-- ==== Sys2Proof/Word.lean ====
section
/-!
DEFINITION. The word types of RSCORE and nothing else: the 32-bit bus and command word, the 8-bit
field element (a byte or a coefficient), and the 16-bit byte address of the Host's address space
(00_scope.md rule R15, 20_memory.md rules R60 and R61).
-/

namespace Sys2Proof

/-- A bus word, a command word or a whole control register: 32 bits, bit 0 least significant (R15, R61). -/
abbrev Word := BitVec 32

/-- A field element, codeword byte, location, coefficient or table entry: 8 bits, unsigned (R15, R100). -/
abbrev Byte := BitVec 8

/-- A byte address as the block sees it: 16 bits (R60). -/
abbrev Addr := BitVec 16

end Sys2Proof
end

