-- ==== Sys2Proof/Syntax.lean ====
section
/-!
DEFINITION. The command set of RSCORE: one constructor for each of the sixteen rows of
spec/opcode_table.json (30_encoding.md rule R87), with the row's used fields in the order of rule R90.
-/

namespace Sys2Proof

/-- A polynomial register index as a command word carries it: an unsigned 4-bit field (R85). Which of the sixteen
values name a register is checked by `wellFormed`. -/
abbrev PIdx := BitVec 4

/-- A command of RSCORE (R80 to R87): format C has no fields, format S has the field elements A and B, format P
has the register indices PD, PA and PB and the scalar K. -/
inductive Instr where
  | init                             -- 0x01, R109
  | gmul (a b : Byte)                -- 0x10, R110
  | ginv (a : Byte)                  -- 0x11, R111
  | pzero (pd : PIdx)                -- 0x20, R121
  | pcopy (pd pa : PIdx)             -- 0x21, R122
  | padd (pd pa pb : PIdx)           -- 0x22, R123
  | pscale (pd pa : PIdx) (k : Byte) -- 0x23, R124
  | pmul (pd pa pb : PIdx)           -- 0x24, R125
  | pshz (pd pa : PIdx)              -- 0x25, R126
  | encode                           -- 0x30, R140
  | synd                             -- 0x31, R150
  | gamma                            -- 0x32, R161
  | bmsolve                          -- 0x33, R170
  | chien                            -- 0x34, R180
  | forney                           -- 0x35, R185
  | correct                          -- 0x36, R190
deriving DecidableEq, Repr

end Sys2Proof
end

