-- ==== Sys2Proof/WellFormed.lean ====
section
/-!
DEFINITION. Which commands are encodings at all. Every value of A, B and K is a legal field element (30_encoding.md
rule R84); a used polynomial index field must name one of the registers P[0] to P[12] (rule R85).
PD = 8 (GEN) is well formed: it decodes, and the issue check RO rejects it (60_exceptions.md rule R206).
-/

namespace Sys2Proof

/-- R85: 0 to 12 name the polynomial registers; 13, 14 and 15 name none. -/
def PIdx.named (p : PIdx) : Bool := p.toNat ≤ 12

/-- The polynomial index fields a command uses (the "used fields" column of R87). -/
def Instr.indices : Instr → List PIdx
  | .init => []
  | .gmul _ _ => []
  | .ginv _ => []
  | .pzero pd => [pd]
  | .pcopy pd pa => [pd, pa]
  | .padd pd pa pb => [pd, pa, pb]
  | .pscale pd pa _ => [pd, pa]
  | .pmul pd pa pb => [pd, pa, pb]
  | .pshz pd pa => [pd, pa]
  | .encode => []
  | .synd => []
  | .gamma => []
  | .bmsolve => []
  | .chien => []
  | .forney => []
  | .correct => []

/-- A command is well formed when every polynomial index it uses names a register (R85, R87). -/
def wellFormed (i : Instr) : Bool := i.indices.all PIdx.named

/-- `wellFormed` as a proposition, decidable. -/
abbrev WellFormed (i : Instr) : Prop := wellFormed i = true

end Sys2Proof
end

