-- ==== Sys2Proof/Decode.lean ====
section
/-!
DEFINITION. The decoder, total on every 32-bit word and naming why it refuses one (30_encoding.md rules R87 to R89,
60_exceptions.md rule R204), and after it the encoder, written from the same formats (rules R81 to R83, R90).
-/

namespace Sys2Proof

/-! ### The fields of a command word (R81 to R85) -/

/-- OP = v[7:0] (R80). -/
def fieldOp (v : Word) : Byte := v.extractLsb' 0 8
/-- A = v[23:16] (R82, R84). -/
def fieldA (v : Word) : Byte := v.extractLsb' 16 8
/-- B = v[31:24] (R82, R84). -/
def fieldB (v : Word) : Byte := v.extractLsb' 24 8
/-- K = v[31:24] (R83, R84). -/
def fieldK (v : Word) : Byte := v.extractLsb' 24 8
/-- PD = v[11:8] (R83, R85). -/
def fieldPD (v : Word) : PIdx := v.extractLsb' 8 4
/-- PA = v[15:12] (R83, R85). -/
def fieldPA (v : Word) : PIdx := v.extractLsb' 12 4
/-- PB = v[19:16] (R83, R85). -/
def fieldPB (v : Word) : PIdx := v.extractLsb' 16 4

/-! ### Decoding -/

/-- The three ways a command word is illegal (R204). -/
inductive IllegalReason where
  | reservedOpcode -- v[7:0] is no opcode of R87
  | mustBeZeroBit  -- (v & mask) != match: a must-be-zero bit is 1
  | badIndex       -- a used polynomial index field holds 13, 14 or 15
deriving DecidableEq, Repr

/-- What the decode procedure returns (R89): a command, or Illegal with its reason. -/
inductive Decoded where
  | legal (i : Instr)
  | illegal (why : IllegalReason)
deriving DecidableEq, Repr

/-- The second and third tests of R89 for one row of R87: the mask, then the used index fields. -/
def decodeRow (v mask mtch : Word) (i : Instr) : Decoded :=
  if v &&& mask = mtch then
    if wellFormed i then .legal i else .illegal .badIndex
  else .illegal .mustBeZeroBit

/-- The decode procedure of R89 over the opcode map of R87, row by row. Every opcode value the map does not
list is reserved (R88). -/
def decode (v : Word) : Decoded :=
  if fieldOp v = 0x01 then decodeRow v 0xFFFFFFFF 0x00000001 .init
  else if fieldOp v = 0x10 then decodeRow v 0x0000FFFF 0x00000010 (.gmul (fieldA v) (fieldB v))
  else if fieldOp v = 0x11 then decodeRow v 0xFF00FFFF 0x00000011 (.ginv (fieldA v))
  else if fieldOp v = 0x20 then decodeRow v 0xFFFFF0FF 0x00000020 (.pzero (fieldPD v))
  else if fieldOp v = 0x21 then decodeRow v 0xFFFF00FF 0x00000021 (.pcopy (fieldPD v) (fieldPA v))
  else if fieldOp v = 0x22 then decodeRow v 0xFFF000FF 0x00000022 (.padd (fieldPD v) (fieldPA v) (fieldPB v))
  else if fieldOp v = 0x23 then decodeRow v 0x00FF00FF 0x00000023 (.pscale (fieldPD v) (fieldPA v) (fieldK v))
  else if fieldOp v = 0x24 then decodeRow v 0xFFF000FF 0x00000024 (.pmul (fieldPD v) (fieldPA v) (fieldPB v))
  else if fieldOp v = 0x25 then decodeRow v 0xFFFF00FF 0x00000025 (.pshz (fieldPD v) (fieldPA v))
  else if fieldOp v = 0x30 then decodeRow v 0xFFFFFFFF 0x00000030 .encode
  else if fieldOp v = 0x31 then decodeRow v 0xFFFFFFFF 0x00000031 .synd
  else if fieldOp v = 0x32 then decodeRow v 0xFFFFFFFF 0x00000032 .gamma
  else if fieldOp v = 0x33 then decodeRow v 0xFFFFFFFF 0x00000033 .bmsolve
  else if fieldOp v = 0x34 then decodeRow v 0xFFFFFFFF 0x00000034 .chien
  else if fieldOp v = 0x35 then decodeRow v 0xFFFFFFFF 0x00000035 .forney
  else if fieldOp v = 0x36 then decodeRow v 0xFFFFFFFF 0x00000036 .correct
  else .illegal .reservedOpcode

/-- The command word of an instruction whose low nbits bits are w: a command is exactly one 32-bit word (R80). -/
def tableWord (nbits w : Nat) : Word := BitVec.ofNat 32 (w % 2 ^ nbits)

/-- What the decoder reads from the word that spec/opcode_table.json numbers w, or none where it refuses. -/
def decodeTableWord (nbits w : Nat) : Option Instr :=
  match decode (tableWord nbits w) with
  | .legal i => some i
  | .illegal _ => none

/-! ### Encoding: each field at its bits, every other bit 0 (R90) -/

/-- Format C (R81). -/
def formatC (op : Byte) : Word := 0#24 ++ op
/-- Format S (R82): B, A, reserved, OP. -/
def formatS (op a b : Byte) : Word := b ++ a ++ 0#8 ++ op
/-- Format P (R83): K, reserved, PB, PA, PD, OP. -/
def formatP (op : Byte) (pd pa pb : PIdx) (k : Byte) : Word := k ++ 0#4 ++ pb ++ pa ++ pd ++ op

/-- The command word of an instruction (R90), a field it does not use being 0 (R87). -/
def encode : Instr → Word
  | .init => formatC 0x01
  | .gmul a b => formatS 0x10 a b
  | .ginv a => formatS 0x11 a 0
  | .pzero pd => formatP 0x20 pd 0 0 0
  | .pcopy pd pa => formatP 0x21 pd pa 0 0
  | .padd pd pa pb => formatP 0x22 pd pa pb 0
  | .pscale pd pa k => formatP 0x23 pd pa 0 k
  | .pmul pd pa pb => formatP 0x24 pd pa pb 0
  | .pshz pd pa => formatP 0x25 pd pa 0 0
  | .encode => formatC 0x30
  | .synd => formatC 0x31
  | .gamma => formatC 0x32
  | .bmsolve => formatC 0x33
  | .chien => formatC 0x34
  | .forney => formatC 0x35
  | .correct => formatC 0x36

end Sys2Proof
end

