-- ==== Sys2Proof/Config.lean ====
section
/-!
DEFINITION. What is fixed for one RSCORE instance, and the free values.
NPAR_MAX is the one build parameter the spec leaves OPEN (00_scope.md rule R9): "a model takes it as an
argument". MAXDEG follows from it (rule R11). The two opaque functions are values the spec calls
unspecified: no proof can learn anything of them (notes/assumptions/4.md and 5.md).
-/

namespace Sys2Proof

/-- One instance's build parameter. R9: NPAR_MAX is an integer with 1 <= NPAR_MAX <= 254, so it is held as
NPAR_MAX - 1 in 0..253 and no illegal instance can be written down. -/
structure Config where
  nparMaxLessOne : Fin 254
deriving DecidableEq, Repr

/-- NPAR_MAX, the largest parity length the instance supports (R9). -/
def Config.nparMax (c : Config) : Nat := c.nparMaxLessOne.val + 1

/-- MAXDEG = 2 × NPAR_MAX, the number of coefficients of every polynomial register (R11). -/
def Config.maxdeg (c : Config) : Nat := 2 * c.nparMax

/-- The instance of `State.reset`: NPAR_MAX = 4 and MAXDEG = 8, the instance the spec's own test vectors use
(95_test_vectors.md, Conventions).
DESIGN CHOICE: the spec leaves NPAR_MAX open (notes/assumptions/2.md). -/
def Config.ofReset : Config := ⟨3⟩

/-- The value of the n-th unspecified 32-bit bus read (R70, R230; 93_implementation_defined.md U8, U15): a free value,
safe: whatever is proved holds for every value (notes/assumptions/5.md). -/
opaque Config.freeWord : Nat → Word

/-- The n-th unspecified value of an array element after a reset, the one of power-on among them (R41; U7): a free value,
safe (notes/assumptions/3.md, 4.md). -/
opaque Config.freeByte : Nat → Byte

end Sys2Proof
end

