-- ==== Sys2Proof/Machine/State.lean ====
section
/-!
DEFINITION. The state of RSCORE as plain data: everything 10_state.md gives the block (rule R20), the level of its
reset input (70_reset_and_hazards.md rule R230), and what the outside world has still to do to it (the model's own
fields, marked so). After it, the reasons a step can stop, and the state right after reset (rule R40).
-/

namespace Sys2Proof.Machine

/-- What the elements of an array that no pair lists hold. -/
inductive Fill where
  /-- 0: INIT has written every element (R109). -/
  | zero
  /-- Values the spec leaves unspecified, one for each element, not written since the reset that left them (R41): element
  k holds the free value numbered draw + k. -/
  | free (draw : Nat)
deriving DecidableEq, Repr

/-- An array of 8-bit elements (R20), held sparsely: (index, element) pairs in the canonical form `Memory.wf`, and what
the elements not listed hold (`Fill.value`, Machine/Ops.lean). The index is the element's word offset from the array's
first word (R65). -/
structure Memory where
  fill  : Fill
  cells : List Host.Cell
deriving DecidableEq, Repr

/-- The array whose every element is 0. -/
def Memory.zeros : Memory := ⟨.zero, []⟩

/-- The array of which no element has been written since reset (R41). -/
def Memory.unwritten (draw : Nat) : Memory := ⟨.free draw, []⟩

/-- The value of a polynomial register: its coefficients, index 0 the constant term (R18, R120). -/
abbrev Poly := List Byte

/-- STATUS.OUTCOME (R25, R28): the terminal states of the decode state machine, or NONE. -/
inductive DecodeOutcome where
  | none | doneClean | corrected | uncorrectable
deriving DecidableEq, Repr

/-- STATUS.FAIL_CAUSE (R25, R28): the value 3 is never written, so it has no name here. -/
inductive FailCause where
  | none | uncorrCount | outOfRangeRoot
deriving DecidableEq, Repr

/-- The event codes of ERRINFO.CODE (R201); codes 7 to 15 are never written. -/
inductive EventCode where
  | none | busy | illegal | notInit | ro | param | zdiv
deriving DecidableEq, Repr

/-- The sticky bits STATUS[13:8] (R25, R29). -/
structure ErrorBits where
  busy    : Bool -- bit 8, ERR_BUSY
  illegal : Bool -- bit 9, ERR_ILLEGAL
  notInit : Bool -- bit 10, ERR_NOTINIT
  ro      : Bool -- bit 11, ERR_RO
  param   : Bool -- bit 12, ERR_PARAM
  zdiv    : Bool -- bit 13, WARN_ZDIV
deriving DecidableEq, Repr

/-- The field engine's tables EXP[0..511] and LOG[0..255] (R36). -/
structure Tables where
  exp : Memory
  log : Memory
deriving DecidableEq, Repr

/-- The working values of the Berlekamp-Massey solver (R37, R170). -/
structure BmScratch where
  psi  : Poly
  psi2 : Poly
  d    : Poly
  n    : Nat
  k    : Int
  l    : Nat
  disc : Byte
deriving DecidableEq, Repr

/-- The states of CORRECT's state machine (R37, R191). -/
inductive Phase where
  | start | syndromeComputed | doneClean | locatorSolved | rootsFound | corrected | uncorrectable
deriving DecidableEq, Repr

/-- The Engine's scratch (R37). The Host never observes it and no command reads a value left in it: each command
initialises all the scratch it reads. A command leaves its last working values here. -/
structure Scratch where
  lfsr  : List Byte -- the encoder's cells R[0..NPAR-1]
  bm    : BmScratch
  chien : Byte      -- the Chien accumulator: the last value of the locator polynomial
  num   : Byte      -- the Forney accumulators: the last numerator ...
  den   : Byte      -- ... and the last denominator
  phase : Phase
deriving DecidableEq, Repr

/-- One act of the outside world on the block, in the single total order of R71: a Host bus access (R61), the Host's
completion wait (R91), or the platform moving the reset input (R230). -/
inductive Input where
  | read (addr : Addr)              -- MemRead(addr, 4)
  | write (addr : Addr) (v : Word)  -- MemWrite(addr, 4, v)
  | poll                            -- read STATUS again and again until bit 0 of the value is 0
  | assertReset
  | releaseReset
deriving DecidableEq, Repr

/-- The whole state. Plain data: no field holds a function. -/
structure State where
  /-- The instance's build parameter, which CAP shows (R9, R22). No step changes it. -/
  config : Config
  -- Control and status registers (10_state.md section 2). ID and CAP are constants, CMD stores nothing, and
  -- STATUS.BUSY and STATUS.RESULT_OK are computed, so none of these has a field.
  /-- CFG.NPAR_REQ (R23). -/
  nparReq : Byte
  /-- CFG.NPAR_ACT (R23): NPAR in every rule. -/
  nparAct : Byte
  /-- STATUS.INIT_DONE (R27). -/
  initDone : Bool
  /-- STATUS.CLEAN (R28, R152). -/
  clean : Bool
  /-- STATUS.OUTCOME (R28). -/
  outcome : DecodeOutcome
  /-- STATUS.FAIL_CAUSE (R28). -/
  failCause : FailCause
  /-- STATUS[13:8] (R29). -/
  errors : ErrorBits
  /-- ERRINFO.CODE (R31). -/
  errInfo : EventCode
  /-- ERRCMD (R31). -/
  errCmd : Word
  /-- RESULT (R32). -/
  result : Byte
  /-- LEN (R32). -/
  len : Byte
  /-- ECNT (R32). -/
  ecnt : Byte
  /-- NERR, nine bits (R32, R42). -/
  nerr : BitVec 9
  /-- BM_L (R32, R174). -/
  bmL : Byte
  -- Arrays (10_state.md sections 3 and 4).
  /-- The polynomial register file: P[p][i] at index 512·p + i, its word slot in the address map (R30, R65). -/
  polys : Memory
  /-- The codeword buffer CW[0..254] (R33). -/
  cw : Memory
  /-- The erasure list ERA[0..NPAR_MAX-1] (R34). -/
  era : Memory
  /-- The error-location list ERRLOC[0..254] (R35). -/
  errloc : Memory
  /-- EXP and LOG (R36). -/
  tables : Tables
  -- Hidden state (10_state.md section 5).
  /-- The pending command word: it exists iff BUSY = 1 (R26, R37). -/
  pending : Option Word
  /-- The Engine's scratch (R37). -/
  scratch : Scratch
  -- The reset input (R230).
  /-- Whether the platform holds the reset input asserted. -/
  resetAsserted : Bool
  -- The model's own: the outside world and the schedule.
  /-- What the Host and the platform have still to do, the next act first (R14, R71). -/
  inputs : List Input
  /-- The reads the Host has made: address and value, the latest first. -/
  reads : List (Addr × Word)
  /-- How many more acts of the outside world fall before the Engine completes the pending command (R240). -/
  engineWait : Nat
  /-- The same number for each command still to be accepted, in order; 0 when the list is used up (R240, R241). -/
  delays : List Nat
  /-- How many free values have been drawn (R41, R70). -/
  draws : Nat
deriving DecidableEq, Repr

/-- Why the machine can stop. -/
inductive Fault where
  /-- Raised by the Engine's completion step when the pending word is no command. Only a state that no run reaches
  holds such a word, because only a decoded word is ever accepted (R202). Safe: the model stops and claims nothing. -/
  | pendingNotACommand
deriving DecidableEq, Repr

/-- Why the model can give no meaning. -/
inductive Refusal where
  /-- Raised by an arm of `exec` whose instruction has no meaning yet; no arm does. Safe. -/
  | notModelled (mnemonic : String)
deriving DecidableEq, Repr

/-- What a step or a command answers. -/
abbrev Result := Host.Outcome State Fault Refusal

/-- No error recorded (R40). -/
def ErrorBits.clear : ErrorBits := ⟨false, false, false, false, false, false⟩

/-- The scratch before any command: the spec leaves it unspecified and unobservable (R40).
DESIGN CHOICE: empty and zero (notes/assumptions/10.md). -/
def Scratch.initial : Scratch where
  lfsr := []
  bm := { psi := [], psi2 := [], d := [], n := 0, k := -1, l := 0, disc := 0 }
  chien := 0
  num := 0
  den := 0
  phase := .start

/-- The machine right after a reset (R40, R230), for an instance c, the free values numbered d and on not drawn yet.
Every control register is 0 and no command is pending, as the spec says. The spec leaves every array element
unspecified, and it may differ between elements and between resets (R41): the element of word address w holds the free
value numbered d + w (notes/assumptions/3.md). -/
def State.resetFrom (c : Config) (d : Nat) : State where
  config := c
  nparReq := 0
  nparAct := 0
  initDone := false
  clean := false
  outcome := .none
  failCause := .none
  errors := .clear
  errInfo := .none
  errCmd := 0
  result := 0
  len := 0
  ecnt := 0
  nerr := 0
  bmL := 0
  polys := .unwritten (d + 0x800)
  cw := .unwritten (d + 0x400)
  era := .unwritten (d + 0x200)
  errloc := .unwritten (d + 0x100)
  tables := ⟨.unwritten (d + 0x2800), .unwritten (d + 0x2A00)⟩
  pending := none
  scratch := .initial
  resetAsserted := false
  inputs := []
  reads := []
  engineWait := 0
  delays := []
  draws := d + 0x4000

/-- The machine right after power-on, for an instance c: the first reset. -/
def State.resetOf (c : Config) : State := State.resetFrom c 0

/-- The machine right after reset, for the instance of `Config.ofReset`. -/
def State.reset : State := State.resetOf .ofReset

end Sys2Proof.Machine
end

