-- ==== Sys2Proof/Machine/Flags.lean ====
section
/-!
DEFINITION. STATUS and the other registers the Host reads bit by bit, as views of the state, and every rule that
computes a flag: BUSY, RESULT_OK, the sticky bits and their W1C (10_state.md rules R21 to R31, 60_exceptions.md
rule R201).
-/

namespace Sys2Proof.Machine

/-- STATUS.BUSY: 1 exactly while a command is pending (R26, R37). -/
def State.busy (s : State) : Bool := s.pending.isSome

/-- STATUS.RESULT_OK: computed on every read as (OUTCOME = 1 or OUTCOME = 2) (R28). -/
def State.resultOk (s : State) : Bool := s.outcome = .doneClean || s.outcome = .corrected

/-- The encoding of OUTCOME (R25). -/
def DecodeOutcome.bits : DecodeOutcome → BitVec 2
  | .none => 0
  | .doneClean => 1
  | .corrected => 2
  | .uncorrectable => 3

/-- The encoding of FAIL_CAUSE (R25). -/
def FailCause.bits : FailCause → BitVec 2
  | .none => 0
  | .uncorrCount => 1
  | .outOfRangeRoot => 2

/-- The encoding of ERRINFO.CODE (R201). -/
def EventCode.bits : EventCode → BitVec 4
  | .none => 0
  | .busy => 1
  | .illegal => 2
  | .notInit => 3
  | .ro => 4
  | .param => 5
  | .zdiv => 6

/-- STATUS[13:8] as bits, WARN_ZDIV on the left (R25). -/
def ErrorBits.bits (e : ErrorBits) : BitVec 6 :=
  BitVec.ofBool e.zdiv ++ BitVec.ofBool e.param ++ BitVec.ofBool e.ro ++ BitVec.ofBool e.notInit ++ BitVec.ofBool e.illegal ++ BitVec.ofBool e.busy

/-- The STATUS word (R25): bits [31:14] read as zero. -/
def State.status (s : State) : Word :=
  0#18 ++ s.errors.bits ++ s.failCause.bits ++ s.outcome.bits ++ BitVec.ofBool s.clean ++ BitVec.ofBool s.resultOk
    ++ BitVec.ofBool s.initDone ++ BitVec.ofBool s.busy

/-- STATUS[7 + code] <- 1 (R201, R203); NONE has no bit. -/
def ErrorBits.set (e : ErrorBits) : EventCode → ErrorBits
  | .none => e
  | .busy => { e with busy := true }
  | .illegal => { e with illegal := true }
  | .notInit => { e with notInit := true }
  | .ro => { e with ro := true }
  | .param => { e with param := true }
  | .zdiv => { e with zdiv := true }

/-- A write of w to STATUS clears each error bit b in 8..13 for which w[b] = 1 and does nothing else (R25). -/
def ErrorBits.writeOneToClear (e : ErrorBits) (w : Word) : ErrorBits where
  busy := e.busy && !w.getLsbD 8
  illegal := e.illegal && !w.getLsbD 9
  notInit := e.notInit && !w.getLsbD 10
  ro := e.ro && !w.getLsbD 11
  param := e.param && !w.getLsbD 12
  zdiv := e.zdiv && !w.getLsbD 13

/-- ID (R21): the constant 0x52530100. -/
def idWord : Word := 0x52530100

/-- CAP (R22): {7'b0, MAXDEG[8:0], 8'b0, NPAR_MAX[7:0]} (R40). -/
def State.cap (s : State) : Word :=
  0#7 ++ BitVec.ofNat 9 s.config.maxdeg ++ 0#8 ++ BitVec.ofNat 8 s.config.nparMax

/-- CFG (R23): NPAR_ACT in [23:16], NPAR_REQ in [7:0]. -/
def State.cfg (s : State) : Word := 0#8 ++ s.nparAct ++ 0#8 ++ s.nparReq

/-- ERRINFO (R31): CODE in [3:0]. -/
def State.errInfoWord (s : State) : Word := 0#28 ++ s.errInfo.bits

/-- An 8-bit element on the bus: zext_32(element) (R63). -/
def elementWord (b : Byte) : Word := 0#24 ++ b

/-- NERR on the bus: nine bits (R32). -/
def State.nerrWord (s : State) : Word := 0#23 ++ s.nerr

end Sys2Proof.Machine
end

