-- ==== Sys2Proof/Machine/Ops.lean ====
section
/-!
DEFINITION. The named operations every meaning is written over: reading and writing an array, the XOR sum, taking an
event (rejection or warning, 60_exceptions.md rules R203 and R207) and acknowledging it (rule R212), and the two
steps of a command's life, issue and completion (rules R202 and R240).
-/

namespace Sys2Proof.Machine

/-! ### Arrays -/

/-- What element k reads as when no pair lists it: 0, or the free value the reset left there (R41). -/
def Fill.value : Fill → Nat → Byte
  | .zero, _ => 0
  | .free d, k => Config.freeByte (d + k)

/-- The one value that every unlisted element is known to hold, so that a pair for it would say nothing. Of a free value
none is known (notes/assumptions/13.md). -/
def Fill.known : Fill → Option Byte
  | .zero => some 0
  | .free _ => none

/-- The canonical form: indices strictly rising, and no pair for an element known to hold that value unlisted. -/
abbrev Memory.wf (m : Memory) : Prop :=
  m.cells.Pairwise (fun c d => c.1 < d.1) ∧ ∀ c ∈ m.cells, m.fill.known ≠ some c.2

/-- Element k of an array with these pairs. -/
def readCells (f : Fill) : List Host.Cell → Nat → Byte
  | [], k => f.value k
  | (j, b) :: cs, k => if k = j then b else readCells f cs k

/-- The pairs after element k is written, in canonical form: writing the known unlisted value removes the pair. -/
def writeCells (f : Fill) : List Host.Cell → Nat → Byte → List Host.Cell
  | [], k, b => if f.known = some b then [] else [(k, b)]
  | (j, c) :: cs, k, b =>
    if k < j then (if f.known = some b then (j, c) :: cs else (k, b) :: (j, c) :: cs)
    else if k = j then (if f.known = some b then cs else (k, b) :: cs)
    else (j, c) :: writeCells f cs k b

/-- Read element k. -/
def Memory.read (m : Memory) (k : Nat) : Byte := readCells m.fill m.cells k

/-- Write element k, keeping the canonical form. -/
def Memory.write (m : Memory) (k : Nat) (b : Byte) : Memory := ⟨m.fill, writeCells m.fill m.cells k b⟩

/-- Write consecutive elements from index k on. -/
def Memory.writeAll (m : Memory) (k : Nat) : List Byte → Memory
  | [] => m
  | b :: bs => (m.write k b).writeAll (k + 1) bs

/-- The pairs of consecutive elements from index k on, those that are 0 left out. -/
def cellsOf (k : Nat) : List Byte → List Host.Cell
  | [] => []
  | b :: bs => if b = 0 then cellsOf (k + 1) bs else (k, b) :: cellsOf (k + 1) bs

/-- The array whose elements from index k on are the given ones, and whose other elements are 0. -/
def Memory.ofBytes (k : Nat) (bs : List Byte) : Memory := ⟨.zero, cellsOf k bs⟩

/-- The first n elements from index k on, as a list. -/
def Memory.bytes (m : Memory) (k n : Nat) : List Byte := (List.range n).map (fun i => m.read (k + i))

/-- XOR_{i in 0..n-1} f(i), and 0 when n = 0 (R16). -/
def xorSum (n : Nat) (f : Nat → Byte) : Byte := (List.range n).foldl (fun acc i => acc ^^^ f i) 0

/-! ### Events: taking one and acknowledging one -/

/-- `raise CmdReject(code)` for the command word v (R203): the error bit, ERRINFO and ERRCMD; nothing else changes.
This is the whole entry of an event (R211). -/
def State.reject (s : State) (code : EventCode) (v : Word) : State :=
  { s with errors := s.errors.set code, errInfo := code, errCmd := v }

/-- `warn ZDIV` inside an accepted command with word v (R207): the same three writes; the command goes on. -/
def State.warnZdiv (s : State) (v : Word) : State := s.reject .zdiv v

/-- A write dropped because BUSY = 1 (R208): only ERR_BUSY; ERRINFO and ERRCMD keep the last real event. -/
def State.dropWrite (s : State) : State := { s with errors := s.errors.set .busy }

/-- A write of w to STATUS, by which the Host acknowledges events (R25, R212). -/
def State.acknowledge (s : State) (w : Word) : State := { s with errors := s.errors.writeOneToClear w }

/-! ### The two steps of a command's life -/

/-- Acceptance (R202): the word is pending, so BUSY = 1. How many acts of the outside world fall before completion is
taken from the schedule (R240; notes/assumptions/6.md). -/
def State.accept (s : State) (v : Word) : State :=
  { s with pending := some v, engineWait := s.delays.headD 0, delays := s.delays.tail }

/-- The end of the completion step (R240): nothing is pending, so BUSY = 0. -/
def State.complete (s : State) : State := { s with pending := none, engineWait := 0 }

/-- What one command does to the machine. With no command pending it is being issued: the issue check either names
the rejection or lets it be accepted (R202, after the decode check). With a command pending it is that command, and
this is its completion step: its effect in full, then BUSY = 0 (R240). -/
def command (i : Instr) (check : State → Option EventCode) (effect : State → State) (s : State) : Result :=
  if s.busy then .next (effect s).complete
  else
    match check s with
    | some code => .next (s.reject code (encode i))
    | none => .next (s.accept (encode i))

/-! ### Issue checks, in the order of R202 and R209 -/

/-- NOTINIT: a command other than INIT while INIT_DONE = 0 (R27, R202). -/
def checkNotInit (s : State) : Option EventCode := if s.initDone then none else some .notInit

/-- The checks of a command with no further one: NOTINIT alone. -/
def checkPlain (s : State) : Option EventCode := checkNotInit s

/-- The checks of a polynomial command with destination pd: NOTINIT, then RO when pd = 8 (GEN) (R206). -/
def checkPoly (pd : PIdx) (s : State) : Option EventCode :=
  (checkNotInit s).or (if pd = 8 then some .ro else none)

/-- The checks of a command with register operands: NOTINIT, then PARAM when they are out of range (R205). -/
def checkParam (bad : State → Bool) (s : State) : Option EventCode :=
  (checkNotInit s).or (if bad s then some .param else none)

end Sys2Proof.Machine
end

