-- ==== Sys2Proof/Machine/Operands.lean ====
section
/-!
DEFINITION. Every operand form of the command set: polynomial registers by index (30_encoding.md rule R85), the
implicit register operands of the format C commands (rule R86), and the range tests on them (60_exceptions.md
rule R205).
-/

namespace Sys2Proof.Machine

/-! ### Polynomial registers -/

/-- GEN = 8, SYN = 9, GAMMA = 10, LAMBDA = 11, OMEGA = 12 (R17, R30). -/
def GEN : PIdx := 8
def SYN : PIdx := 9
def GAMMA : PIdx := 10
def LAMBDA : PIdx := 11
def OMEGA : PIdx := 12

/-- The index of P[p][i] in the register file: 512·p + i, its word slot (R65). -/
def polySlot (p i : Nat) : Nat := 512 * p + i

/-- MAXDEG of this instance (R11). -/
def State.maxdeg (s : State) : Nat := s.config.maxdeg

/-- P[p], all MAXDEG coefficients (R120). -/
def State.poly (s : State) (p : PIdx) : Poly := s.polys.bytes (polySlot p.toNat 0) s.maxdeg

/-- `P[p] <- v` (R17, R120): the coefficients of v from index 0 on. -/
def State.setPoly (s : State) (p : PIdx) (v : Poly) : State :=
  { s with polys := s.polys.writeAll (polySlot p.toNat 0) v }

/-! ### The codeword buffer, the erasure list and the error locations -/

/-- NPAR in every rule: CFG.NPAR_ACT (R23). -/
def State.npar (s : State) : Nat := s.nparAct.toNat

/-- CW[t] (R33). -/
def State.cwAt (s : State) (t : Nat) : Byte := s.cw.read t

/-- CW[t..] <- the given bytes (R33). -/
def State.setCw (s : State) (t : Nat) (bs : List Byte) : State := { s with cw := s.cw.writeAll t bs }

/-- ERA[0..ECNT-1], the erasure locations in force (R34). -/
def State.erasures (s : State) : List Byte := s.era.bytes 0 s.ecnt.toNat

/-- ERRLOC[0..NERR-1], the locations found (R35). -/
def State.locations (s : State) : List Byte := s.errloc.bytes 0 s.nerr.toNat

/-- ERRLOC <- the given locations, every later entry 0 (R35, R180). -/
def State.setErrloc (s : State) (locs : List Byte) : State := { s with errloc := Memory.ofBytes 0 locs }

/-! ### PARAM: register operands out of range (R205) -/

/-- INIT: CFG.NPAR_REQ = 0 or CFG.NPAR_REQ > NPAR_MAX. -/
def paramInit (s : State) : Bool := s.nparReq = 0 || s.config.nparMax < s.nparReq.toNat

/-- ENCODE: LEN + NPAR > 255. -/
def paramEncode (s : State) : Bool := 255 < s.len.toNat + s.npar

/-- BMSOLVE: ECNT > NPAR. -/
def paramBmsolve (s : State) : Bool := s.npar < s.ecnt.toNat

/-- GAMMA and CORRECT: ECNT > NPAR, or ERA[k] >= LEN for some k < ECNT, ERA being examined only when ECNT <= NPAR. -/
def paramErasures (s : State) : Bool :=
  s.npar < s.ecnt.toNat || s.erasures.any (fun e => s.len.toNat ≤ e.toNat)

end Sys2Proof.Machine
end

