-- ==== Sys2Proof/Machine/Bus.lean ====
section
/-!
DEFINITION. The Host's side of the block: the address map (20_memory.md rules R60 to R70), the read and the write of
one word, the reset input (70_reset_and_hazards.md rule R230), the Host's pseudo-instructions (30_encoding.md
rule R91), and which agent moves next (rules R71 and R240). What a command does is the argument `run`, which
Machine/Step.lean fills with exec.
-/

namespace Sys2Proof.Machine

/-! ### The address map -/

/-- What a word address names (R64). -/
inductive Loc where
  | id | cap | cfg | cmd | status | errInfo | errCmd | result | len | ecnt | nerr | bmL
  | errloc (k : Nat) | era (k : Nat) | cw (t : Nat) | poly (p i : Nat) | exp (i : Nat) | log (a : Nat)
  | reserved
deriving DecidableEq, Repr

/-- The word address addr[15:2]: address bits [1:0] are ignored (R62). -/
def wordAddr (addr : Addr) : Nat := addr.toNat / 4

/-- The array locations of R65, and the reserved addresses around them (R64). -/
def locateArray (c : Config) (w : Nat) : Loc :=
  if 0x100 ≤ w ∧ w ≤ 0x1FE then .errloc (w - 0x100)
  else if 0x200 ≤ w ∧ w < 0x200 + c.nparMax then .era (w - 0x200)
  else if 0x400 ≤ w ∧ w ≤ 0x4FE then .cw (w - 0x400)
  else if 0x800 ≤ w ∧ w ≤ 0x27FF then
    if (w - 0x800) / 512 ≤ 12 ∧ (w - 0x800) % 512 < c.maxdeg then .poly ((w - 0x800) / 512) ((w - 0x800) % 512)
    else .reserved
  else if 0x2800 ≤ w ∧ w ≤ 0x29FF then .exp (w - 0x2800)
  else if 0x2A00 ≤ w ∧ w ≤ 0x2AFF then .log (w - 0x2A00)
  else .reserved

/-- The address map (R64): the registers at word addresses 0 to 11, then the arrays. -/
def locate (c : Config) (addr : Addr) : Loc :=
  match wordAddr addr with
  | 0 => .id
  | 1 => .cap
  | 2 => .cfg
  | 3 => .cmd
  | 4 => .status
  | 5 => .errInfo
  | 6 => .errCmd
  | 7 => .result
  | 8 => .len
  | 9 => .ecnt
  | 10 => .nerr
  | 11 => .bmL
  | w => locateArray c w

/-- The byte address of CMD (R64). -/
def cmdAddr : Addr := 0x000C
/-- The byte address of STATUS (R64). -/
def statusAddr : Addr := 0x0010

/-! ### Reading -/

/-- The current value of a location (R63): CMD and reserved locations read 0 (R24, R66). -/
def State.value (s : State) : Loc → Word
  | .id => idWord
  | .cap => s.cap
  | .cfg => s.cfg
  | .cmd => 0
  | .status => s.status
  | .errInfo => s.errInfoWord
  | .errCmd => s.errCmd
  | .result => elementWord s.result
  | .len => elementWord s.len
  | .ecnt => elementWord s.ecnt
  | .nerr => s.nerrWord
  | .bmL => elementWord s.bmL
  | .errloc k => elementWord (s.errloc.read k)
  | .era k => elementWord (s.era.read k)
  | .cw t => elementWord (s.cw.read t)
  | .poly p i => elementWord (s.polys.read (polySlot p i))
  | .exp i => elementWord (s.tables.exp.read i)
  | .log a => elementWord (s.tables.log.read a)
  | .reserved => 0

/-- STATUS, ID and CAP read their current value while BUSY = 1 (R70). -/
def Loc.readableWhileBusy : Loc → Bool
  | .status => true
  | .id => true
  | .cap => true
  | _ => false

/-- Whether a read returns an unspecified value: while BUSY = 1 (R70), or while reset is asserted (R230). -/
def State.unspecifiedRead (s : State) (l : Loc) : Bool := s.resetAsserted || (s.busy && !l.readableWhileBusy)

/-- The value of one Host read (R61): the location's, or a free value where it is unspecified. -/
def State.readValue (s : State) (addr : Addr) : Word :=
  if s.unspecifiedRead (locate s.config addr) then Config.freeWord s.draws else s.value (locate s.config addr)

/-- One Host read: the Host records the value, and the block is unchanged (R68). -/
def hostRead (addr : Addr) (s : State) : State :=
  { s with
    reads := (addr, s.readValue addr) :: s.reads
    draws := if s.unspecifiedRead (locate s.config addr) then s.draws + 1 else s.draws }

/-! ### Writing -/

/-- A write of v to a location other than CMD and STATUS, with BUSY = 0 (R63, R67): read-only and reserved locations
ignore it, and so does GEN (p = 8). -/
def State.store (s : State) (l : Loc) (v : Word) : State :=
  match l with
  | .cfg => { s with nparReq := v.extractLsb' 0 8 }
  | .len => { s with len := v.extractLsb' 0 8 }
  | .ecnt => { s with ecnt := v.extractLsb' 0 8 }
  | .era k => { s with era := s.era.write k (v.extractLsb' 0 8) }
  | .cw t => { s with cw := s.cw.write t (v.extractLsb' 0 8) }
  | .poly p i =>
    if p = GEN.toNat then s else { s with polys := s.polys.write (polySlot p i) (v.extractLsb' 0 8) }
  | .id => s
  | .cap => s
  | .cmd => s
  | .status => s
  | .errInfo => s
  | .errCmd => s
  | .result => s
  | .nerr => s
  | .bmL => s
  | .errloc _ => s
  | .exp _ => s
  | .log _ => s
  | .reserved => s

/-- A write of the command word v to CMD with BUSY = 0 (R202): an illegal word is rejected (R204), a command is
issued. -/
def issueWord (run : Instr → State → Result) (v : Word) (s : State) : Result :=
  match decode v with
  | .illegal _ => .next (s.reject .illegal v)
  | .legal i => run i s

/-- One Host write (R61): nothing while reset is asserted (R230); STATUS at any time (R70); dropped while BUSY = 1
(R208); a command to CMD; otherwise a store. -/
def hostWrite (run : Instr → State → Result) (addr : Addr) (v : Word) (s : State) : Result :=
  if s.resetAsserted then .next s
  else
    match locate s.config addr with
    | .status => .next (s.acknowledge v)
    | .cmd => if s.busy then .next s.dropWrite else issueWord run v s
    | l => if s.busy then .next s.dropWrite else .next (s.store l v)

/-! ### The reset input -/

/-- The platform asserts reset (R230): every register takes its reset value, the pending command is discarded with none
of its effects, and every array element takes a free value not drawn before (R41). The state then keeps these values
until release, because no access has an effect (notes/assumptions/8.md). -/
def assertReset (s : State) : State :=
  { State.resetFrom s.config s.draws with
    resetAsserted := true
    inputs := s.inputs
    reads := s.reads
    delays := s.delays }

/-! ### The agents -/

/-- One act of the outside world, the rest of its acts being already in `inputs`. `poll` reads STATUS and stays next
until bit 0 of the value is 0 (R91). -/
def outsideAct (run : Instr → State → Result) (a : Input) (s : State) : Result :=
  match a with
  | .read addr => .next (hostRead addr s)
  | .write addr v => hostWrite run addr v s
  | .poll =>
    let s1 := hostRead statusAddr s
    .next (if (s.readValue statusAddr).getLsbD 0 then { s1 with inputs := .poll :: s1.inputs } else s1)
  | .assertReset => .next (assertReset s)
  | .releaseReset => .next { s with resetAsserted := false }

/-- The Engine's completion step (R240): execute the rule of the pending command. -/
def engineStep (run : Instr → State → Result) (v : Word) (s : State) : Result :=
  match decode v with
  | .legal i => run i s
  | .illegal _ => .fault .pendingNotACommand

/-- The state as the next act of the outside world finds it: that act taken from the list, and one act fewer for the
pending command to wait for. -/
def State.turn (s : State) (rest : List Input) : State :=
  { s with inputs := rest, engineWait := s.engineWait - 1 }

/-- The step of the outside world: its next act, or nothing when it has none left. -/
def outsideStep (run : Instr → State → Result) (s : State) : Result :=
  match s.inputs with
  | [] => .next (s.turn [])
  | a :: rest => outsideAct run a (s.turn rest)

/-- The command the Engine completes now, if it moves next: the pending one, once its wait is over or the outside world
has nothing left to do (R240, R241). -/
def State.engineTurn (s : State) : Option Word :=
  if s.engineWait = 0 ∨ s.inputs = [] then s.pending else none

/-- One step of the machine: the Engine's, or the outside world's (R14, R71). -/
def stepWith (run : Instr → State → Result) (s : State) : Result :=
  match s.engineTurn with
  | some v => engineStep run v s
  | none => outsideStep run s

/-- The Host about to write the command word v to a block that is not busy and not in reset. -/
def State.placeCommand (s : State) (v : Word) : State :=
  { s with inputs := .write cmdAddr v :: s.inputs, pending := none, resetAsserted := false }

/-! ### The Host's pseudo-instructions (R91); `W`, `R` and `poll` are inputs themselves -/

/-- `run <command>`: write the command word to CMD, then poll. -/
def runCommand (i : Instr) : List Input := [.write cmdAddr (encode i), .poll]

/-- `clrerr`: write 0x00003F00 to STATUS. -/
def clearErrors : List Input := [.write statusAddr 0x00003F00]

end Sys2Proof.Machine
end

