-- ==== Sys2Proof/Machine/Galois.lean ====
section
/-!
DEFINITION. The field functions over the tables EXP and LOG (40_field.md section 1), the construction of the tables
(rules R106 and R107), and the polynomial functions over fixed-capacity coefficient lists that the commands of
41_polynomial.md to 43_decoder.md share. A capacity n is the instance's MAXDEG.
-/

namespace Sys2Proof.Machine

/-! ### Field functions (R102 to R105) -/

/-- EXP[i] as the tables hold it. -/
def Tables.expAt (t : Tables) (i : Nat) : Byte := t.exp.read i

/-- LOG[a] as the tables hold it. -/
def Tables.logAt (t : Tables) (a : Byte) : Byte := t.log.read a.toNat

/-- gf_mul (R102): 0 if either operand is 0, else EXP[LOG[a] + LOG[b]]. -/
def gfMul (t : Tables) (a b : Byte) : Byte :=
  if a = 0 then 0
  else if b = 0 then 0
  else t.expAt ((t.logAt a).toNat + (t.logAt b).toNat)

/-- gf_inv (R103): EXP[255 - LOG[a]], for a = 0 too. -/
def gfInv (t : Tables) (a : Byte) : Byte := t.expAt (255 - (t.logAt a).toNat)

/-- α^e = EXP[e mod 255] (R105). -/
def alphaPow (t : Tables) (e : Nat) : Byte := t.expAt (e % 255)

/-! ### The tables INIT builds -/

/-- One multiplication by α modulo x^8 + x^4 + x^3 + x^2 + 1 (R101, R106): the nine-bit product a·x, reduced by 0x11D
when its bit 8 is 1. PRESUMED with the spec's own G1 and G2 (notes/assumptions/20.md). -/
def mulAlpha (a : Byte) : Byte :=
  let t : BitVec 9 := a.setWidth 9 <<< 1
  if t.getLsbD 8 then (t ^^^ 0x11D#9).extractLsb' 0 8 else t.extractLsb' 0 8

/-- n elements, each the one before it times α. -/
def alphaPowers : Nat → Byte → List Byte
  | 0, _ => []
  | n + 1, a => a :: alphaPowers n (mulAlpha a)

/-- EXP[0..511] (R106): α^0 to α^254, then EXP[255] = 1, EXP[i] = EXP[i - 255] for i in 256..510, and
EXP[511] = 0x02. -/
def expBytes : List Byte :=
  alphaPowers 255 0x01 ++ [0x01] ++ ((alphaPowers 255 0x01).drop 1 ++ [0x01]) ++ [0x02]

/-- LOG (R107): LOG[0] <- 0, then LOG[EXP[i]] <- i for i in 0..254. The 256 writes reach every entry, so the loop starts
from an array of zeros (notes/assumptions/16.md). -/
def logMemory : Memory :=
  ((alphaPowers 255 0x01).zipIdx).foldl (fun m p => m.write p.1.toNat (BitVec.ofNat 8 p.2))
    (Memory.zeros.write 0 0)

/-- EXP and LOG as every INIT builds them (R106, R107). -/
def builtTables : Tables := ⟨Memory.ofBytes 0 expBytes, logMemory⟩

/-! ### Polynomials of capacity n (R120) -/

/-- Coefficient i of p; a coefficient past the end is 0 (R18). -/
def coef (p : Poly) (i : Nat) : Byte := p.getD i 0

/-- The zero polynomial. -/
def polyZero (n : Nat) : Poly := (List.range n).map (fun _ => 0)

/-- The constant polynomial c. -/
def polyConst (n : Nat) (c : Byte) : Poly := (List.range n).map (fun i => if i = 0 then c else 0)

/-- Lane-wise XOR (R123). -/
def polyAdd (n : Nat) (a b : Poly) : Poly := (List.range n).map (fun i => coef a i ^^^ coef b i)

/-- Every coefficient times k (R124). -/
def polyScale (t : Tables) (n : Nat) (k : Byte) (a : Poly) : Poly :=
  (List.range n).map (fun i => gfMul t k (coef a i))

/-- pmul_trunc (R125): the convolution, terms of degree n and above dropped. -/
def polyMul (t : Tables) (n : Nat) (a b : Poly) : Poly :=
  (List.range n).map (fun m => xorSum (m + 1) (fun i => gfMul t (coef a i) (coef b (m - i))))

/-- shift_by_z (R126): one position toward higher degree, the top coefficient dropped. -/
def polyShift (n : Nat) (a : Poly) : Poly :=
  (List.range n).map (fun i => if i = 0 then 0 else coef a (i - 1))

/-- poly_eval(p, e) = p(α^e) over all n coefficients (R163). -/
def polyEval (t : Tables) (n : Nat) (p : Poly) (e : Nat) : Byte :=
  xorSum n (fun k => gfMul t (coef p k) (alphaPow t (k * e)))

/-- The formal derivative of p at α^e: XOR over odd j in 1..n-1 of p[j]·α^(e·(j-1)) (R185, R187). -/
def polyDerivEval (t : Tables) (n : Nat) (p : Poly) (e : Nat) : Byte :=
  xorSum n (fun j => if j % 2 = 1 then gfMul t (coef p j) (alphaPow t (e * (j - 1))) else 0)

end Sys2Proof.Machine
end

