-- ==== Sys2Proof/Machine/Encoder.lean ====
section
/-!
DEFINITION. The systematic encoder ENCODE and the syndrome calculator SYND (42_encoder.md rules R140 to R152).
-/

namespace Sys2Proof.Machine

/-- One message byte through the NPAR-stage LFSR (R140): the feedback is the byte XOR the top cell R[NPAR-1], and each
stage takes the one below it XOR feedback × G[j]. -/
def lfsrStep (t : Tables) (gen : Poly) (npar : Nat) (r : List Byte) (byte : Byte) : List Byte :=
  (List.range npar).map (fun j =>
    (if j = 0 then 0 else r.getD (j - 1) 0) ^^^ gfMul t (coef gen j) (byte ^^^ r.getD (npar - 1) 0))

/-- The LFSR cells after the message CW[0..LEN-1] (R140), from all-zero cells. -/
def lfsrCells (s : State) : List Byte :=
  (s.cw.bytes 0 s.len.toNat).foldl (lfsrStep s.tables (s.poly GEN) s.npar)
    ((List.range s.npar).map (fun _ => 0))

/-- ENCODE (R140): CW[LEN+i] <- R[NPAR-1-i] for i in 0..NPAR-1. -/
def effectEncode (s : State) : State :=
  let r := lfsrCells s
  { s.setCw s.len.toNat ((List.range s.npar).map (fun i => r.getD (s.npar - 1 - i) 0)) with
    scratch := { s.scratch with lfsr := r } }

/-- ENCODE (R140): PARAM when LEN + NPAR > 255. -/
def execEncode (s : State) : Result := command .encode (checkParam paramEncode) effectEncode s

/-- Syndrome j (R150): the codeword CW[0..LEN-1] at α^(j+1) by Horner's rule. -/
def syndrome (s : State) (j : Nat) : Byte :=
  (s.cw.bytes 0 s.len.toNat).foldl (fun acc c => c ^^^ gfMul s.tables (s.tables.expAt (j + 1)) acc) 0

/-- SYND (R150): SYN[j] for j < NPAR, 0 above, and CLEAN iff all NPAR of them are 0 (R152). -/
def effectSynd (s : State) : State :=
  { s.setPoly SYN ((List.range s.maxdeg).map (fun j => if j < s.npar then syndrome s j else 0)) with
    clean := (List.range s.npar).all (fun j => syndrome s j = 0) }

/-- SYND (R150): every LEN is legal. -/
def execSynd (s : State) : Result := command .synd checkPlain effectSynd s

end Sys2Proof.Machine
end

