-- ==== Sys2Proof/Machine/Decoder.lean ====
section
/-!
DEFINITION. The decoder stages GAMMA, BMSOLVE, CHIEN and FORNEY, and CORRECT, which runs the whole chain in one
completion step (43_decoder.md rules R160 to R193).
-/

namespace Sys2Proof.Machine

/-! ### GAMMA -/

/-- Γ(x) = Π (1 ^ α^e·x) over the listed locations, one factor at a time (R161). -/
def erasureLocator (t : Tables) (n : Nat) (es : List Byte) : Poly :=
  es.foldl (fun g e => polyAdd n g (polyShift n (polyScale t n (t.expAt e.toNat) g))) (polyConst n 0x01)

/-- GAMMA (R161): P[GAMMA] <- Γ for ERA[0..ECNT-1]. -/
def effectGamma (s : State) : State :=
  s.setPoly GAMMA (erasureLocator s.tables s.maxdeg s.erasures)

/-- GAMMA (R161): PARAM on a bad erasure list. -/
def execGamma (s : State) : Result := command .gamma (checkParam paramErasures) effectGamma s

/-! ### BMSOLVE -/

/-- The solver's working values before its first step (R170). -/
def bmStart (n : Nat) (gamma : Poly) (ecnt : Nat) : BmScratch :=
  { psi := gamma, psi2 := [], d := polyShift n gamma, n := ecnt, k := -1, l := ecnt, disc := 0 }

/-- The discrepancy of step m: XOR_{i in 0..L} PSI[i]·SYN[m-i] (R170). -/
def discrepancy (t : Tables) (syn psi : Poly) (l m : Nat) : Byte :=
  xorSum (l + 1) (fun i => gfMul t (coef psi i) (coef syn (m - i)))

/-- Step m of the solver (R170): (L, k, D) change together from their old values, and D is shifted exactly once. -/
def bmStep (t : Tables) (n : Nat) (syn : Poly) (b : BmScratch) (m : Nat) : BmScratch :=
  let d := discrepancy t syn b.psi b.l m
  if d = 0 then { b with d := polyShift n b.d, n := m, disc := d }
  else
    let psi2 := polyAdd n b.psi (polyScale t n d b.d)
    if (b.l : Int) < m - b.k then
      { psi := psi2, psi2 := psi2, d := polyShift n (polyScale t n (gfInv t d) b.psi), n := m,
        k := m - b.l, l := ((m : Int) - b.k).toNat, disc := d }
    else { b with psi := psi2, psi2 := psi2, d := polyShift n b.d, n := m, disc := d }

/-- The solver's steps ECNT..NPAR-1 (R170). -/
def bmRun (t : Tables) (n : Nat) (syn gamma : Poly) (ecnt npar : Nat) : BmScratch :=
  ((List.range (npar - ecnt)).map (fun i => ecnt + i)).foldl (bmStep t n syn) (bmStart n gamma ecnt)

/-- Ω = (Λ × S) mod x^NPAR (R170, R173). -/
def evaluator (t : Tables) (n npar : Nat) (lambda syn : Poly) : Poly :=
  (List.range n).map (fun i =>
    if i < npar then xorSum (i + 1) (fun j => gfMul t (coef lambda j) (coef syn (i - j))) else 0)

/-- BMSOLVE (R170): P[LAMBDA], P[OMEGA] and BM_L, from SYN and GAMMA as they stand. -/
def effectBmsolve (s : State) : State :=
  let b := bmRun s.tables s.maxdeg (s.poly SYN) (s.poly GAMMA) s.ecnt.toNat s.npar
  { (s.setPoly LAMBDA b.psi).setPoly OMEGA (evaluator s.tables s.maxdeg s.npar b.psi (s.poly SYN)) with
    bmL := BitVec.ofNat 8 b.l
    scratch := { s.scratch with bm := b } }

/-- BMSOLVE (R170): PARAM when ECNT > NPAR. -/
def execBmsolve (s : State) : Result := command .bmsolve (checkParam paramBmsolve) effectBmsolve s

/-! ### CHIEN -/

/-- The locations 255 - r of the roots α^r of p, for r in 1..255 in increasing order (R180). -/
def rootLocations (t : Tables) (n : Nat) (p : Poly) : List Byte :=
  (((List.range 255).map (fun i => i + 1)).filter (fun r => polyEval t n p r = 0)).map
    (fun r => BitVec.ofNat 8 (255 - r))

/-- CHIEN (R180): ERRLOC and NERR from LAMBDA; it reads neither LEN nor NPAR. -/
def effectChien (s : State) : State :=
  let locs := rootLocations s.tables s.maxdeg (s.poly LAMBDA)
  { s.setErrloc locs with
    nerr := BitVec.ofNat 9 locs.length
    scratch := { s.scratch with chien := polyEval s.tables s.maxdeg (s.poly LAMBDA) 255 } }

/-- CHIEN (R180). -/
def execChien (s : State) : Result := command .chien checkPlain effectChien s

/-! ### FORNEY -/

/-- The numerator Ω(α^(-i)) at location i (R185): α^(-i) = α^(255-i). -/
def forneyNum (s : State) (i : Byte) : Byte := polyEval s.tables s.maxdeg (s.poly OMEGA) (255 - i.toNat)

/-- The denominator Λ'(α^(-i)) at location i (R185, R187). -/
def forneyDen (s : State) (i : Byte) : Byte :=
  polyDerivEval s.tables s.maxdeg (s.poly LAMBDA) (255 - i.toNat)

/-- The correction of one location i by the command word v (R185): warn ZDIV when the denominator is 0, and
CW[LEN-1-i] <- CW[LEN-1-i] ^ num × inv(den). -/
def forneyCorrect (v : Word) (s : State) (i : Byte) : State :=
  let num := forneyNum s i
  let den := forneyDen s i
  let s1 := if den = 0 then s.warnZdiv v else s
  let t := s.len.toNat - 1 - i.toNat
  { s1.setCw t [s.cwAt t ^^^ gfMul s.tables num (gfInv s.tables den)] with
    scratch := { s.scratch with num := num, den := den } }

/-- FORNEY's body for the command word v (R185): the bounds check, then the capacity check, both before any write
(R186), then the corrections in the order of ERRLOC. -/
def forneyBody (v : Word) (s : State) : State :=
  if s.locations.any (fun e => s.len.toNat ≤ e.toNat) then
    { s with outcome := .uncorrectable, failCause := .outOfRangeRoot }
  else if s.nerr = 0 ∨ s.npar < s.nerr.toNat then
    { s with outcome := .uncorrectable, failCause := .uncorrCount }
  else { s.locations.foldl (forneyCorrect v) s with outcome := .corrected, failCause := .none }

/-- FORNEY (R185). -/
def execForney (s : State) : Result := command .forney checkPlain (forneyBody (encode .forney)) s

/-! ### CORRECT -/

/-- The phase of CORRECT's state machine (R191), hidden state. -/
def State.setPhase (s : State) (p : Phase) : State := { s with scratch := { s.scratch with phase := p } }

/-- The end of CORRECT on a codeword that is not clean: the state of R191 that FORNEY's body leads to. -/
def correctEnd (s : State) : State :=
  s.setPhase (if s.outcome = .corrected then .corrected else .uncorrectable)

/-- The phases after SYND on a codeword that is not clean: GAMMA, BMSOLVE, CHIEN and FORNEY (R190), and the state of
R191 each leads to. -/
def correctDirty (s : State) : State :=
  correctEnd (forneyBody (encode .correct)
    ((effectChien ((effectBmsolve (effectGamma s)).setPhase .locatorSolved)).setPhase .rootsFound))

/-- The end of CORRECT on a clean codeword (R190, R192). -/
def correctClean (s : State) : State :=
  { s with outcome := .doneClean, failCause := .none }.setPhase .doneClean

/-- The phases of CORRECT after SYND (R190). -/
def correctAfterSynd (s : State) : State := if s.clean then correctClean s else correctDirty s

/-- CORRECT (R190): the SYND phase, then DONE_CLEAN when clean, else the remaining phases, all in one step. -/
def effectCorrect (s : State) : State :=
  correctAfterSynd ((effectSynd (s.setPhase .start)).setPhase .syndromeComputed)

/-- CORRECT (R190): PARAM on a bad erasure list, even when the codeword turns out clean. -/
def execCorrect (s : State) : Result := command .correct (checkParam paramErasures) effectCorrect s

end Sys2Proof.Machine
end

