-- ==== Sys2Proof/Machine/Field.lean ====
section
/-!
DEFINITION. The field engine's commands INIT, GMUL and GINV (40_field.md rules R108 to R111).
-/

namespace Sys2Proof.Machine

/-- G(x) = Π_{i=1..npar} (x + α^i) by iterated pmul_trunc (R108). -/
def generator (t : Tables) (n npar : Nat) : Poly :=
  (List.range npar).foldl
    (fun g i => polyMul t n g ((List.range n).map
      (fun j => if j = 0 then t.expAt (i + 1) else if j = 1 then 0x01 else 0)))
    (polyConst n 0x01)

/-- What INIT writes (R109): the tables first, then every polynomial register (GEN = G(x), the others 0), NPAR_ACT, and
the results and outcome flags to 0. CW, ERA, LEN, ECNT, NPAR_REQ and the error bits keep their values. -/
def effectInit (s : State) : State :=
  { s with
    tables := builtTables
    polys := Memory.ofBytes (polySlot GEN.toNat 0) (generator builtTables s.maxdeg s.nparReq.toNat)
    nparAct := s.nparReq
    errloc := .zeros
    nerr := 0
    bmL := 0
    result := 0
    clean := false
    outcome := .none
    failCause := .none
    initDone := true }

/-- INIT (R109): NOTINIT never applies to it; PARAM when NPAR_REQ is outside 1..NPAR_MAX. -/
def execInit (s : State) : Result :=
  command .init (fun s => if paramInit s then some .param else none) effectInit s

/-- GMUL (R110): RESULT <- gf_mul(A, B). -/
def effectGmul (a b : Byte) (s : State) : State := { s with result := gfMul s.tables a b }

/-- GMUL (R110). -/
def execGmul (a b : Byte) (s : State) : Result := command (.gmul a b) checkPlain (effectGmul a b) s

/-- GINV (R111): RESULT <- gf_inv(A), and the ZDIV warning when A = 0. -/
def effectGinv (a : Byte) (s : State) : State :=
  let s1 := { s with result := gfInv s.tables a }
  if a = 0 then s1.warnZdiv (encode (.ginv a)) else s1

/-- GINV (R111). -/
def execGinv (a : Byte) (s : State) : Result := command (.ginv a) checkPlain (effectGinv a) s

end Sys2Proof.Machine
end

