-- ==== Sys2Proof/Machine/Polynomial.lean ====
section
/-!
DEFINITION. The polynomial commands PZERO, PCOPY, PADD, PSCALE, PMUL and PSHZ (41_polynomial.md rules R120 to R126).
Each reads its sources in full from the state before it, then writes all MAXDEG coefficients of P[PD].
-/

namespace Sys2Proof.Machine

/-- PZERO (R121): P[PD] <- 0. -/
def execPzero (pd : PIdx) (s : State) : Result :=
  command (.pzero pd) (checkPoly pd) (fun s => s.setPoly pd (polyZero s.maxdeg)) s

/-- PCOPY (R122): P[PD] <- P[PA]. -/
def execPcopy (pd pa : PIdx) (s : State) : Result :=
  command (.pcopy pd pa) (checkPoly pd) (fun s => s.setPoly pd (s.poly pa)) s

/-- PADD (R123): P[PD] <- P[PA] ^ P[PB]. -/
def execPadd (pd pa pb : PIdx) (s : State) : Result :=
  command (.padd pd pa pb) (checkPoly pd)
    (fun s => s.setPoly pd (polyAdd s.maxdeg (s.poly pa) (s.poly pb))) s

/-- PSCALE (R124): P[PD] <- K · P[PA]. -/
def execPscale (pd pa : PIdx) (k : Byte) (s : State) : Result :=
  command (.pscale pd pa k) (checkPoly pd)
    (fun s => s.setPoly pd (polyScale s.tables s.maxdeg k (s.poly pa))) s

/-- PMUL (R125): P[PD] <- pmul_trunc(P[PA], P[PB]). -/
def execPmul (pd pa pb : PIdx) (s : State) : Result :=
  command (.pmul pd pa pb) (checkPoly pd)
    (fun s => s.setPoly pd (polyMul s.tables s.maxdeg (s.poly pa) (s.poly pb))) s

/-- PSHZ (R126): P[PD] <- x · P[PA], the top coefficient dropped. -/
def execPshz (pd pa : PIdx) (s : State) : Result :=
  command (.pshz pd pa) (checkPoly pd) (fun s => s.setPoly pd (polyShift s.maxdeg (s.poly pa))) s

end Sys2Proof.Machine
end

