-- ==== Sys2Proof/Machine/Dispatch.lean ====
section
/-!
DEFINITION. One arm per command: its meaning. With no command pending, exec i is the issue of command i (60_exceptions.md
rule R202, after the BUSY and ILLEGAL checks, which come before a command is known); with one pending, it is the
completion step of command i (70_reset_and_hazards.md rule R240).
-/

namespace Sys2Proof.Machine

def exec (i : Instr) (s : State) : Host.Outcome State Fault Refusal :=
  match i with
  | .init => Sys2Proof.Machine.execInit s
  | .gmul a b => Sys2Proof.Machine.execGmul a b s
  | .ginv a => Sys2Proof.Machine.execGinv a s
  | .pzero pd => Sys2Proof.Machine.execPzero pd s
  | .pcopy pd pa => Sys2Proof.Machine.execPcopy pd pa s
  | .padd pd pa pb => Sys2Proof.Machine.execPadd pd pa pb s
  | .pscale pd pa k => Sys2Proof.Machine.execPscale pd pa k s
  | .pmul pd pa pb => Sys2Proof.Machine.execPmul pd pa pb s
  | .pshz pd pa => Sys2Proof.Machine.execPshz pd pa s
  | .encode => Sys2Proof.Machine.execEncode s
  | .synd => Sys2Proof.Machine.execSynd s
  | .gamma => Sys2Proof.Machine.execGamma s
  | .bmsolve => Sys2Proof.Machine.execBmsolve s
  | .chien => Sys2Proof.Machine.execChien s
  | .forney => Sys2Proof.Machine.execForney s
  | .correct => Sys2Proof.Machine.execCorrect s

end Sys2Proof.Machine
end

