-- ==== Sys2Proof/Machine/Step.lean ====
section
/-!
DEFINITION. One step of the machine, and where the next command word is placed. RSCORE fetches nothing (10_state.md
rule R39): a command is the word of a Host write to CMD, so that write is where step fetches its next instruction.
-/

namespace Sys2Proof.Machine

/-- One step: the Engine's completion of the pending command, or the next act of the outside world. -/
def step (s : State) : Host.Outcome State Fault Refusal := stepWith exec s

/-- s with the word w as the Host's next write to CMD, the block neither busy nor in reset: step issues exactly that
command (notes/assumptions/9.md). -/
def State.withFetchWord (s : State) (nbits w : Nat) : State := s.placeCommand (tableWord nbits w)

end Sys2Proof.Machine
end

