-- ==== Sys2Proof/Safety.lean ====
section
/-!
DEFINITION. The vocabulary of the claims: the issue rules read from 60_exceptions.md rather than from the meanings, field
multiplication as polynomial multiplication, and what a good state is. Nothing of the machine is defined from it.
-/

namespace Sys2Proof.Machine

/-! ### The issue rules (60_exceptions.md rules R202 to R206) -/

/-- The polynomial register a command names as its destination, if it has one (R206). -/
def destination : Instr → Option PIdx
  | .init => none
  | .gmul _ _ => none
  | .ginv _ => none
  | .pzero pd => some pd
  | .pcopy pd _ => some pd
  | .padd pd _ _ => some pd
  | .pscale pd _ _ => some pd
  | .pmul pd _ _ => some pd
  | .pshz pd _ => some pd
  | .encode => none
  | .synd => none
  | .gamma => none
  | .bmsolve => none
  | .chien => none
  | .forney => none
  | .correct => none

/-- The erasure list is bad: ECNT > NPAR, or ERA[k] >= LEN for some k in 0..ECNT-1 (R205). -/
def BadErasures (s : State) : Prop :=
  s.npar < s.ecnt.toNat ∨ ∃ k < s.ecnt.toNat, s.len.toNat ≤ (s.era.read k).toNat

/-- The table of R205: when a command's register operands are out of range. -/
def ParamViolation : Instr → State → Prop
  | .init => fun s => s.nparReq.toNat = 0 ∨ s.config.nparMax < s.nparReq.toNat
  | .gmul _ _ => fun _ => False
  | .ginv _ => fun _ => False
  | .pzero _ => fun _ => False
  | .pcopy _ _ => fun _ => False
  | .padd _ _ _ => fun _ => False
  | .pscale _ _ _ => fun _ => False
  | .pmul _ _ _ => fun _ => False
  | .pshz _ _ => fun _ => False
  | .encode => fun s => 255 < s.len.toNat + s.npar
  | .synd => fun _ => False
  | .gamma => BadErasures
  | .bmsolve => fun s => s.npar < s.ecnt.toNat
  | .chien => fun _ => False
  | .forney => fun _ => False
  | .correct => BadErasures

/-- Every issue check passes (R202): not NOTINIT, not RO, not PARAM. -/
def Passes (i : Instr) (s : State) : Prop :=
  (i = .init ∨ s.initDone = true) ∧ destination i ≠ some GEN ∧ ¬ParamViolation i s

/-! ### The field GF(256), without tables (40_field.md rules R100 and R101) -/

/-- a·x modulo x^8 + x^4 + x^3 + x^2 + 1: shift, and reduce when the top bit was 1. -/
def timesX (a : Byte) : Byte := if a.getLsbD 7 then (a <<< 1) ^^^ 0x1D else a <<< 1

/-- x^k·a. -/
def timesXPow : Nat → Byte → Byte
  | 0, a => a
  | k + 1, a => timesX (timesXPow k a)

/-- The product of two field elements as polynomials over GF(2): the sum of x^k·a over the bits k of b. -/
def fieldMul (a b : Byte) : Byte := xorSum 8 (fun k => if b.getLsbD k then timesXPow k a else 0)

/-- α^e for the generator α = x, without a table (R100, R105). -/
def fieldPow (e : Nat) : Byte := timesXPow e 1

/-- Coefficient i of P[p], read from the register file (R30, R65). -/
def State.coefAt (s : State) (p : PIdx) (i : Nat) : Byte := s.polys.read (512 * p.toNat + i)

/-- P[p] at α^r, all MAXDEG coefficients (R163), without tables. -/
def State.evalAt (s : State) (p : PIdx) (r : Nat) : Byte :=
  xorSum s.maxdeg (fun k => fieldMul (s.coefAt p k) (fieldPow (k * r)))

/-- The formal derivative of P[p] at α^r: the odd coefficients survive (R187), without tables. -/
def State.derivAt (s : State) (p : PIdx) (r : Nat) : Byte :=
  xorSum s.maxdeg (fun j => if j % 2 = 1 then fieldMul (s.coefAt p j) (fieldPow (r * (j - 1))) else 0)

/-- The codeword c of length n, as a polynomial, at α^(j+1) (R18, R151): byte τ has degree n-1-τ. -/
def codewordAt (c : Nat → Byte) (n j : Nat) : Byte :=
  xorSum n (fun τ => fieldMul (c τ) (fieldPow ((j + 1) * (n - 1 - τ))))

/-! ### The opcode map, as 30_encoding.md rule R87 prints it -/

/-- One row of R87. -/
structure OpcodeRow where
  op    : Nat
  mtch  : Word
  mask  : Word
  usesPD : Bool
  usesPA : Bool
  usesPB : Bool

/-- The table of R87, row by row. -/
def opcodeMap : List OpcodeRow :=
  [⟨0x01, 0x00000001, 0xFFFFFFFF, false, false, false⟩,
   ⟨0x10, 0x00000010, 0x0000FFFF, false, false, false⟩,
   ⟨0x11, 0x00000011, 0xFF00FFFF, false, false, false⟩,
   ⟨0x20, 0x00000020, 0xFFFFF0FF, true, false, false⟩,
   ⟨0x21, 0x00000021, 0xFFFF00FF, true, true, false⟩,
   ⟨0x22, 0x00000022, 0xFFF000FF, true, true, true⟩,
   ⟨0x23, 0x00000023, 0x00FF00FF, true, true, false⟩,
   ⟨0x24, 0x00000024, 0xFFF000FF, true, true, true⟩] ++
  [⟨0x25, 0x00000025, 0xFFFF00FF, true, true, false⟩,
   ⟨0x30, 0x00000030, 0xFFFFFFFF, false, false, false⟩,
   ⟨0x31, 0x00000031, 0xFFFFFFFF, false, false, false⟩,
   ⟨0x32, 0x00000032, 0xFFFFFFFF, false, false, false⟩,
   ⟨0x33, 0x00000033, 0xFFFFFFFF, false, false, false⟩,
   ⟨0x34, 0x00000034, 0xFFFFFFFF, false, false, false⟩,
   ⟨0x35, 0x00000035, 0xFFFFFFFF, false, false, false⟩,
   ⟨0x36, 0x00000036, 0xFFFFFFFF, false, false, false⟩]

/-- v is a legal encoding of the row's command (R87): the opcode, the mask, and every used index field <= 12. -/
def OpcodeRow.Encodes (r : OpcodeRow) (v : Word) : Prop :=
  v.toNat % 256 = r.op ∧ v &&& r.mask = r.mtch ∧
  (r.usesPD = true → v.toNat / 2 ^ 8 % 16 ≤ 12) ∧
  (r.usesPA = true → v.toNat / 2 ^ 12 % 16 ≤ 12) ∧
  (r.usesPB = true → v.toNat / 2 ^ 16 % 16 ≤ 12)

/-! ### Who moves, and what a completed command may have changed -/

/-- The outside world moves next, and its act is a. -/
def OutsideActs (s : State) (a : Input) (rest : List Input) : Prop := s.engineTurn = none ∧ s.inputs = a :: rest

/-- The completion step of a command that wrote nothing but P[p]: the coefficients of that register are f, and every other
element of the register file is unchanged (R120). -/
def WritesRegister (s t : State) (p : PIdx) (f : Nat → Byte) : Prop :=
  t = { s with polys := t.polys, pending := none, engineWait := 0 } ∧
  (∀ i < s.maxdeg, t.coefAt p i = f i) ∧
  (∀ k, ¬(512 * p.toNat ≤ k ∧ k < 512 * p.toNat + s.maxdeg) → t.polys.read k = s.polys.read k)

/-- The register file is unchanged outside the given registers. -/
def OnlyRegisters (s t : State) (ps : List PIdx) : Prop :=
  ∀ k, (∀ p ∈ ps, ¬(512 * p.toNat ≤ k ∧ k < 512 * p.toNat + s.maxdeg)) → t.polys.read k = s.polys.read k

/-- The ZDIV warning was either not raised, or raised by the command word v (R207). -/
def MayWarn (s t : State) (v : Word) : Prop :=
  (t.errors = s.errors ∧ t.errInfo = s.errInfo ∧ t.errCmd = s.errCmd) ∨
  (t.errors = { s.errors with zdiv := true } ∧ t.errInfo = .zdiv ∧ t.errCmd = v)

/-- The table of R38: what the completion step of each command may write; it clears BUSY, and the Engine's scratch is
hidden state (R37). -/
def WritesOnly : Instr → State → State → Prop
  | .init => fun s t =>
    t = { s with tables := t.tables, nparAct := t.nparAct, polys := t.polys, errloc := t.errloc, nerr := 0, bmL := 0,
                 result := 0, clean := false, outcome := .none, failCause := .none, initDone := true,
                 pending := none, engineWait := 0 }
  | .gmul _ _ => fun s t => t = { s with result := t.result, pending := none, engineWait := 0 }
  | .ginv a => fun s t =>
    t = { s with result := t.result, errors := t.errors, errInfo := t.errInfo, errCmd := t.errCmd,
                 pending := none, engineWait := 0 } ∧
    MayWarn s t (encode (.ginv a)) ∧ (a ≠ 0 → t.errors = s.errors)
  | .pzero pd => fun s t => WritesRegister s t pd (t.coefAt pd)
  | .pcopy pd _ => fun s t => WritesRegister s t pd (t.coefAt pd)
  | .padd pd _ _ => fun s t => WritesRegister s t pd (t.coefAt pd)
  | .pscale pd _ _ => fun s t => WritesRegister s t pd (t.coefAt pd)
  | .pmul pd _ _ => fun s t => WritesRegister s t pd (t.coefAt pd)
  | .pshz pd _ => fun s t => WritesRegister s t pd (t.coefAt pd)
  | .encode => fun s t =>
    t = { s with cw := t.cw, scratch := t.scratch, pending := none, engineWait := 0 } ∧
    ∀ k, ¬(s.len.toNat ≤ k ∧ k < s.len.toNat + s.npar) → t.cw.read k = s.cw.read k
  | .synd => fun s t =>
    t = { s with polys := t.polys, clean := t.clean, pending := none, engineWait := 0 } ∧ OnlyRegisters s t [SYN]
  | .gamma => fun s t => WritesRegister s t GAMMA (t.coefAt GAMMA)
  | .bmsolve => fun s t =>
    t = { s with polys := t.polys, bmL := t.bmL, scratch := t.scratch, pending := none, engineWait := 0 } ∧
    OnlyRegisters s t [LAMBDA, OMEGA]
  | .chien => fun s t =>
    t = { s with errloc := t.errloc, nerr := t.nerr, scratch := t.scratch, pending := none, engineWait := 0 }
  | .forney => fun s t =>
    t = { s with cw := t.cw, outcome := t.outcome, failCause := t.failCause, errors := t.errors, errInfo := t.errInfo,
                 errCmd := t.errCmd, scratch := t.scratch, pending := none, engineWait := 0 } ∧
    MayWarn s t (encode .forney) ∧
    (t.outcome ≠ .corrected → t.cw = s.cw) ∧
    ∀ k, (∀ e ∈ s.locations, k ≠ s.len.toNat - 1 - e.toNat) → t.cw.read k = s.cw.read k
  | .correct => fun s t =>
    t = { s with polys := t.polys, clean := t.clean, bmL := t.bmL, errloc := t.errloc, nerr := t.nerr, cw := t.cw,
                 outcome := t.outcome, failCause := t.failCause, errors := t.errors, errInfo := t.errInfo,
                 errCmd := t.errCmd, scratch := t.scratch, pending := none, engineWait := 0 } ∧
    OnlyRegisters s t [SYN, GAMMA, LAMBDA, OMEGA] ∧ MayWarn s t (encode .correct) ∧
    (t.outcome ≠ .corrected → t.cw = s.cw) ∧
    ∀ k, (∀ e ∈ t.locations, k ≠ s.len.toNat - 1 - e.toNat) → t.cw.read k = s.cw.read k

/-! ### Good states -/

/-- Every array is in its canonical form. -/
structure Canonical (s : State) : Prop where
  polys : s.polys.wf
  cw : s.cw.wf
  era : s.era.wf
  errloc : s.errloc.wf
  exp : s.tables.exp.wf
  log : s.tables.log.wf

/-- No array lists an element that does not exist (R30, R33 to R36). -/
structure InRange (s : State) : Prop where
  polys : ∀ c ∈ s.polys.cells, c.1 / 512 ≤ 12 ∧ c.1 % 512 < s.maxdeg
  cw : ∀ c ∈ s.cw.cells, c.1 < 255
  era : ∀ c ∈ s.era.cells, c.1 < s.config.nparMax
  errloc : ∀ c ∈ s.errloc.cells, c.1 < 255
  exp : ∀ c ∈ s.tables.exp.cells, c.1 < 512
  log : ∀ c ∈ s.tables.log.cells, c.1 < 256

/-- Once INIT_DONE = 1 (R233): the tables are the ones of R106 and R107, NPAR is legal, and GEN is G(x) for it. -/
structure Booted (s : State) : Prop where
  tables : s.tables = builtTables
  nparPos : 1 ≤ s.npar
  nparLe : s.npar ≤ s.config.nparMax
  gen : s.poly GEN = generator builtTables s.maxdeg s.npar

/-- The pending word is a command that passes every issue check (R202, R73). -/
def PendingPasses (s : State) : Prop := ∀ v, s.pending = some v → ∃ i, decode v = .legal i ∧ Passes i s

/-- The located errors are distinct degrees in 0..254 (R35, R181). -/
structure LocationsLegal (s : State) : Prop where
  count : s.nerr.toNat ≤ 255
  distinct : s.locations.Nodup
  range : ∀ e ∈ s.locations, e.toNat ≤ 254

/-- What every step keeps. -/
structure Inv (s : State) : Prop where
  canonical : Canonical s
  inRange : InRange s
  booted : s.initDone = true → Booted s
  notBooted : s.initDone = false → s.npar = 0
  pending : PendingPasses s
  locations : LocationsLegal s
  bmL : s.bmL.toNat ≤ s.npar
  outcome : s.outcome = .uncorrectable ↔ s.failCause ≠ .none
  errInfo : s.errInfo ≠ .busy
  inReset : s.resetAsserted = true → s.pending = none ∧ s.initDone = false

/-- A safe run: no number of steps ends in a fault or a refusal. -/
def SafeRun (s : State) : Prop := ∀ n, ∃ t, Sys2Proof.core.run n s = .next t

end Sys2Proof.Machine
end

