-- ==== Sys2Proof/Certificates/Slice0/Obligations.lean ====
section
/-!
DEFINITION. The statements about RSCORE, each a proposition over the machine's own step and exec. The docstring names
the rule of spec/ a statement formalises, or the model's choice it rests on.
-/

open Sys2Proof Sys2Proof.Machine

/-! ### Encoding -/

/-- Words written out from the spec's encodings decode to the commands they stand for, and three reserved words are
refused for the reason the spec gives (30_encoding.md rules R87, R90; 95_test_vectors.md section 2.3). -/
def Obligations.DecodesWordsOfTheSpec : Prop :=
  decode 0x00000001 = .legal .init ∧
  decode 0x80020010 = .legal (.gmul 0x02 0x80) ∧
  decode 0x00020011 = .legal (.ginv 0x02) ∧
  decode 0x00021324 = .legal (.pmul 3 1 2) ∧
  decode 0x02001423 = .legal (.pscale 4 1 2) ∧
  decode 0x00008721 = .legal (.pcopy 7 8) ∧
  decode 0x00000030 = .legal .encode ∧
  decode 0x00000036 = .legal .correct ∧
  decode 0x00000000 = .illegal .reservedOpcode ∧
  decode 0x00121522 = .illegal .mustBeZeroBit ∧
  decode 0x00000D20 = .illegal .badIndex

/-- Decoding the encoding of any well-formed command gives it back, with every operand at every value (R81 to R90). -/
def Obligations.DecodeOfEncodeIsTheCommand : Prop :=
  ∀ i : Instr, WellFormed i → decode (encode i) = .legal i

/-- Every legal word is the encoding of the command it decodes to, which is well formed: each command has one word
(R80, R87, R89). -/
def Obligations.LegalWordIsTheEncodingOfItsCommand : Prop :=
  ∀ (v : Word) (i : Instr), decode v = .legal i → WellFormed i ∧ encode i = v

/-- R204: exactly the words with no opcode of R87, a must-be-zero bit set or a used index of 13 to 15 are illegal; the
Host's write of one to CMD is rejected with ILLEGAL whenever BUSY = 0, before INIT as after it. -/
def Obligations.IllegalWordsAreExactlyThoseOfTheMap : Prop :=
  (∀ v : Word, (∃ why, decode v = .illegal why) ↔ ¬∃ r ∈ opcodeMap, r.Encodes v) ∧
  ∀ (s : State) (addr : Addr) (v : Word) (rest : List Input), OutsideActs s (.write addr v) rest →
    addr.toNat / 4 = 3 → s.resetAsserted = false → s.pending = none → (¬∃ r ∈ opcodeMap, r.Encodes v) →
    step s = .next ((s.turn rest).reject .illegal v)

/-! ### The step -/

/-- A step runs the command the Host writes to CMD: with BUSY = 0, that write is where step fetches, and the step is exec
of the decoded command at the state as the act finds it (R74, R202). -/
def Obligations.StepIssuesTheCommandWritten : Prop :=
  ∀ (s : State) (addr : Addr) (v : Word) (i : Instr) (rest : List Input), OutsideActs s (.write addr v) rest →
    addr.toNat / 4 = 3 → s.resetAsserted = false → s.pending = none → decode v = .legal i →
    step s = exec i (s.turn rest)

/-- A step runs the pending command: when the Engine moves, the step is exec of the decoded pending word at the state
as it stands (R240). -/
def Obligations.StepCompletesThePendingCommand : Prop :=
  ∀ (s : State) (v : Word) (i : Instr), s.pending = some v → s.engineWait = 0 ∨ s.inputs = [] →
    decode v = .legal i → step s = exec i s

/-- Every command answers a next state in every state: no command of the table faults or is refused. -/
def Obligations.EveryCommandAnswersANextState : Prop := ∀ (i : Instr) (s : State), ∃ t, exec i s = .next t

/-- R202: one Host write to CMD. BUSY drops it; an illegal word, NOTINIT, RO and PARAM reject it, the first that fails in
this order; otherwise the word is pending. -/
def Obligations.IssueFollowsTheCheckOrder : Prop :=
  ∀ (s : State) (addr : Addr) (v : Word) (rest : List Input), OutsideActs s (.write addr v) rest →
    addr.toNat / 4 = 3 → s.resetAsserted = false →
    (s.busy = true → step s = .next { s.turn rest with errors := { s.errors with busy := true } }) ∧
    (s.busy = false → ∀ why, decode v = .illegal why → step s = .next ((s.turn rest).reject .illegal v)) ∧
    (s.busy = false → ∀ i, decode v = .legal i →
      (i ≠ .init → s.initDone = false → step s = .next ((s.turn rest).reject .notInit v)) ∧
      (s.initDone = true → destination i = some GEN → step s = .next ((s.turn rest).reject .ro v)) ∧
      ((i = .init ∨ s.initDone = true) → destination i ≠ some GEN → ParamViolation i s →
        step s = .next ((s.turn rest).reject .param v)) ∧
      (Passes i s → step s = .next { s.turn rest with
        pending := some v, engineWait := s.delays.headD 0, delays := s.delays.tail }))

/-- R203: a rejection with code 2 (ILLEGAL), 3 (NOTINIT), 4 (RO) or 5 (PARAM) for the word v sets STATUS[7 + code],
ERRINFO.CODE and ERRCMD; nothing else changes, and every other bit of STATUS, BUSY among them, keeps its value. (A BUSY
rejection is no such event: it sets ERR_BUSY alone, R208; the warning ZDIV is R207.) -/
def Obligations.RejectionWritesThreeThings : Prop :=
  ∀ (s : State) (c : EventCode) (n : Nat) (v : Word),
    (c = .illegal ∧ n = 2 ∨ c = .notInit ∧ n = 3 ∨ c = .ro ∧ n = 4 ∨ c = .param ∧ n = 5) →
    let t := s.reject c v
    t = { s with errors := t.errors, errInfo := c, errCmd := v } ∧
    t.status.getLsbD (7 + n) = true ∧
    (∀ b, b ≠ 7 + n → t.status.getLsbD b = s.status.getLsbD b) ∧
    t.errInfoWord.toNat = n

/-! ### The bus -/

/-- R70: the four kinds of access while BUSY = 1. -/
def Obligations.AccessesWhileBusy : Prop :=
  ∀ (s : State) (a : Input) (rest : List Input), OutsideActs s a rest → s.busy = true → s.resetAsserted = false →
    (∀ addr v, a = .write addr v → addr.toNat / 4 = 4 →
      ∃ t, step s = .next t ∧ t = { s.turn rest with errors := t.errors } ∧
        ∀ b, t.status.getLsbD b = (s.status.getLsbD b && !(decide (8 ≤ b ∧ b ≤ 13) && v.getLsbD b))) ∧
    (∀ addr v, a = .write addr v → addr.toNat / 4 ≠ 4 →
      step s = .next { s.turn rest with errors := { s.errors with busy := true } }) ∧
    (∀ addr, a = .read addr → addr.toNat / 4 = 0 →
      step s = .next { s.turn rest with reads := (addr, 0x52530100) :: s.reads }) ∧
    (∀ addr, a = .read addr → addr.toNat / 4 = 1 →
      step s = .next { s.turn rest with reads := (addr, s.cap) :: s.reads }) ∧
    (∀ addr, a = .read addr → addr.toNat / 4 = 4 →
      step s = .next { s.turn rest with reads := (addr, s.status) :: s.reads }) ∧
    (∀ addr, a = .read addr → addr.toNat / 4 ≠ 0 → addr.toNat / 4 ≠ 1 → addr.toNat / 4 ≠ 4 →
      step s = .next { s.turn rest with
        reads := (addr, Config.freeWord s.draws) :: s.reads, draws := s.draws + 1 })

/-- The bits of STATUS and what each shows, by the numbers of R25 (R25, R26, R28): BUSY is 1 exactly while a command is
pending, OUTCOME and FAIL_CAUSE are the codes of the table, RESULT_OK is 1 iff OUTCOME is 1 or 2, and bits [31:14]
read 0. -/
def Obligations.StatusShowsItsFields : Prop :=
  ∀ s : State,
    (s.status.getLsbD 0 = true ↔ ∃ v, s.pending = some v) ∧
    s.status.getLsbD 1 = s.initDone ∧
    (s.status.getLsbD 2 = true ↔ s.status.toNat / 2 ^ 4 % 4 = 1 ∨ s.status.toNat / 2 ^ 4 % 4 = 2) ∧
    s.status.getLsbD 3 = s.clean ∧
    (s.status.toNat / 2 ^ 4 % 4 = 0 ↔ s.outcome = .none) ∧
    (s.status.toNat / 2 ^ 4 % 4 = 1 ↔ s.outcome = .doneClean) ∧
    (s.status.toNat / 2 ^ 4 % 4 = 2 ↔ s.outcome = .corrected) ∧
    (s.status.toNat / 2 ^ 4 % 4 = 3 ↔ s.outcome = .uncorrectable) ∧
    (s.status.toNat / 2 ^ 6 % 4 = 0 ↔ s.failCause = .none) ∧
    (s.status.toNat / 2 ^ 6 % 4 = 1 ↔ s.failCause = .uncorrCount) ∧
    (s.status.toNat / 2 ^ 6 % 4 = 2 ↔ s.failCause = .outOfRangeRoot) ∧
    s.status.toNat / 2 ^ 6 % 4 ≠ 3 ∧
    s.status.getLsbD 8 = s.errors.busy ∧ s.status.getLsbD 9 = s.errors.illegal ∧
    s.status.getLsbD 10 = s.errors.notInit ∧ s.status.getLsbD 11 = s.errors.ro ∧
    s.status.getLsbD 12 = s.errors.param ∧ s.status.getLsbD 13 = s.errors.zdiv ∧
    ∀ b, 14 ≤ b → s.status.getLsbD b = false

/-- R21 and R22: ID and CAP read as their constants whenever reset is not asserted, and a write to either, with BUSY = 0,
changes nothing. CAP shows NPAR_MAX in 1..254 (R9) and MAXDEG = 2 × NPAR_MAX (R11). -/
def Obligations.IdAndCapAreConstant : Prop :=
  ∀ (s : State) (a : Input) (rest : List Input), OutsideActs s a rest → s.resetAsserted = false →
    (∀ addr, a = .read addr → addr.toNat / 4 = 0 →
      step s = .next { s.turn rest with reads := (addr, 0x52530100) :: s.reads }) ∧
    (∀ addr, a = .read addr → addr.toNat / 4 = 1 →
      ∃ x : Word, step s = .next { s.turn rest with reads := (addr, x) :: s.reads } ∧
        x.toNat = s.config.nparMax + 2 ^ 16 * s.config.maxdeg ∧
        1 ≤ s.config.nparMax ∧ s.config.nparMax ≤ 254 ∧ s.config.maxdeg = 2 * s.config.nparMax) ∧
    (∀ addr v, a = .write addr v → addr.toNat / 4 < 2 → s.busy = false → step s = .next (s.turn rest))

/-- With BUSY = 0 a Host read of each register returns its value, the named bits only (R23, R24, R31, R32, R63): the word
the Host records, as a number, ERRINFO by the codes of R201. -/
def Obligations.RegisterReadsReturnTheValue : Prop :=
  ∀ (s : State) (addr : Addr) (rest : List Input), OutsideActs s (.read addr) rest → s.resetAsserted = false →
    s.busy = false → addr.toNat / 4 < 12 → ∃ x : Word,
      step s = .next { s.turn rest with reads := (addr, x) :: s.reads } ∧
      (addr.toNat / 4 = 2 → x.toNat = s.nparReq.toNat + 2 ^ 16 * s.nparAct.toNat) ∧
      (addr.toNat / 4 = 3 → x = 0) ∧
      (addr.toNat / 4 = 4 → x = s.status) ∧
      (addr.toNat / 4 = 5 → x.toNat ≤ 6 ∧ (x.toNat = 0 ↔ s.errInfo = .none) ∧ (x.toNat = 1 ↔ s.errInfo = .busy) ∧
        (x.toNat = 2 ↔ s.errInfo = .illegal) ∧ (x.toNat = 3 ↔ s.errInfo = .notInit) ∧ (x.toNat = 4 ↔ s.errInfo = .ro) ∧
        (x.toNat = 5 ↔ s.errInfo = .param) ∧ (x.toNat = 6 ↔ s.errInfo = .zdiv)) ∧
      (addr.toNat / 4 = 6 → x = s.errCmd) ∧
      (addr.toNat / 4 = 7 → x.toNat = s.result.toNat) ∧
      (addr.toNat / 4 = 8 → x.toNat = s.len.toNat) ∧
      (addr.toNat / 4 = 9 → x.toNat = s.ecnt.toNat) ∧
      (addr.toNat / 4 = 10 → x.toNat = s.nerr.toNat) ∧
      (addr.toNat / 4 = 11 → x.toNat = s.bmL.toNat)

/-- With BUSY = 0 a Host read of an array location returns the element, zero-extended (R63, R64): the byte addresses of
the map, for each element that exists. -/
def Obligations.ArrayReadsReturnTheElement : Prop :=
  ∀ (s : State) (addr : Addr) (rest : List Input), OutsideActs s (.read addr) rest → s.resetAsserted = false →
    s.busy = false →
    ∃ x : Word, step s = .next { s.turn rest with reads := (addr, x) :: s.reads } ∧
      (∀ k ≤ 254, addr.toNat / 4 * 4 = 0x0400 + 4 * k → x.toNat = (s.errloc.read k).toNat) ∧
      (∀ k < s.config.nparMax, addr.toNat / 4 * 4 = 0x0800 + 4 * k → x.toNat = (s.era.read k).toNat) ∧
      (∀ k ≤ 254, addr.toNat / 4 * 4 = 0x1000 + 4 * k → x.toNat = (s.cw.read k).toNat) ∧
      (∀ p : PIdx, p.toNat ≤ 12 → ∀ i < s.config.maxdeg,
        addr.toNat / 4 * 4 = 0x2000 + 0x800 * p.toNat + 4 * i → x.toNat = (s.coefAt p i).toNat) ∧
      (∀ i ≤ 511, addr.toNat / 4 * 4 = 0xA000 + 4 * i → x.toNat = (s.tables.exp.read i).toNat) ∧
      (∀ k ≤ 255, addr.toNat / 4 * 4 = 0xA800 + 4 * k → x.toNat = (s.tables.log.read k).toNat)

/-- A word address of R64 that names nothing: reserved. -/
def ReservedWord (c : Config) (w : Nat) : Prop :=
  (0xC ≤ w ∧ w ≤ 0xFF) ∨ w = 0x1FF ∨ (0x200 + c.nparMax ≤ w ∧ w ≤ 0x3FF) ∨ (0x4FF ≤ w ∧ w ≤ 0x7FF) ∨
  (∃ p i, p ≤ 15 ∧ i ≤ 511 ∧ w = 0x800 + 512 * p + i ∧ (13 ≤ p ∨ c.maxdeg ≤ i)) ∨ (0x2B00 ≤ w ∧ w ≤ 0x3FFF)

/-- A word address of R64 whose whole location is read-only. -/
def ReadOnlyWord (c : Config) (w : Nat) : Prop :=
  w = 0 ∨ w = 1 ∨ w = 5 ∨ w = 6 ∨ w = 7 ∨ w = 10 ∨ w = 11 ∨ (0x100 ≤ w ∧ w ≤ 0x1FE) ∨
  (0x1800 ≤ w ∧ w < 0x1800 + c.maxdeg) ∨ (0x2800 ≤ w ∧ w ≤ 0x29FF) ∨ (0x2A00 ≤ w ∧ w ≤ 0x2AFF)

/-- R66 and R67: with BUSY = 0, a reserved address reads 0 and a write to it is ignored; a write to a read-only location
has no effect and sets no error bit, NPAR_ACT and the other bits of STATUS among them. With BUSY = 1 a write to a
reserved address sets ERR_BUSY and does nothing else. -/
def Obligations.ReservedAndReadOnlyLocations : Prop :=
  ∀ (s : State) (a : Input) (rest : List Input), OutsideActs s a rest → s.resetAsserted = false →
    (∀ addr, a = .read addr → ReservedWord s.config (addr.toNat / 4) → s.busy = false →
      step s = .next { s.turn rest with reads := (addr, 0) :: s.reads }) ∧
    (∀ addr v, a = .write addr v → ReservedWord s.config (addr.toNat / 4) → s.busy = true →
      step s = .next { s.turn rest with errors := { s.errors with busy := true } }) ∧
    (∀ addr v, a = .write addr v → s.busy = false →
      ReservedWord s.config (addr.toNat / 4) ∨ ReadOnlyWord s.config (addr.toNat / 4) →
      step s = .next (s.turn rest)) ∧
    (∀ addr v, a = .write addr v → addr.toNat / 4 = 2 → s.busy = false →
      ∃ t, step s = .next t ∧ t = { s.turn rest with nparReq := t.nparReq }) ∧
    (∀ addr v, a = .write addr v → addr.toNat / 4 = 4 →
      ∃ t, step s = .next t ∧ t = { s.turn rest with errors := t.errors } ∧
        ∀ b, t.status.getLsbD b = (s.status.getLsbD b && !(decide (8 ≤ b ∧ b ≤ 13) && v.getLsbD b)))

/-- With BUSY = 0 a Host write to a location other than CMD changes only what that word address reads as (R68), and a
writable location then reads as the data's low byte (R63; NPAR_ACT is unchanged, R23). -/
def Obligations.WriteChangesOnlyTheAddressedLocation : Prop :=
  ∀ (s : State) (addr : Addr) (v : Word) (rest : List Input), OutsideActs s (.write addr v) rest →
    s.resetAsserted = false → s.busy = false → Canonical s → addr.toNat / 4 ≠ 3 →
    ∃ t, step s = .next t ∧ t.inputs = rest ∧ t.reads = s.reads ∧ t.pending = none ∧
      (∀ b : Addr, b.toNat / 4 ≠ addr.toNat / 4 →
        t.value (locate t.config b) = s.value (locate s.config b)) ∧
      (addr.toNat / 4 = 2 → t.nparReq = v.extractLsb' 0 8 ∧ t.nparAct = s.nparAct) ∧
      (addr.toNat / 4 = 8 → t.len = v.extractLsb' 0 8) ∧
      (addr.toNat / 4 = 9 → t.ecnt = v.extractLsb' 0 8) ∧
      (∀ k < s.config.nparMax, addr.toNat / 4 = 0x200 + k → t.era.read k = v.extractLsb' 0 8) ∧
      (∀ k ≤ 254, addr.toNat / 4 = 0x400 + k → t.cw.read k = v.extractLsb' 0 8) ∧
      (∀ p : PIdx, p.toNat ≤ 12 → p ≠ GEN → ∀ i < s.config.maxdeg, addr.toNat / 4 = 0x800 + 512 * p.toNat + i →
        t.coefAt p i = v.extractLsb' 0 8)

/-- A write of v to CMD is the act of the step, with BUSY = 0 and reset not asserted: v is issued. -/
def Issues (s : State) (v : Word) : Prop :=
  s.busy = false ∧ s.resetAsserted = false ∧ ∃ addr rest, OutsideActs s (.write addr v) rest ∧ addr.toNat / 4 = 3

/-- R29: a sticky error bit, once 1, is cleared only by a STATUS write that names it or by reset, when that act is what
the step does: no completion clears one. In a step a bit is newly 1 only by the event R25 names for it: bit 8 by a
write other than to STATUS while BUSY = 1; bit 9 by an illegal word; bit 10 by a command other than INIT before
INIT_DONE; bit 11 by a command with destination GEN; bit 12 by a command with register operands out of range; bit 13
by the completion of GINV of 0, or of FORNEY or CORRECT with a denominator 0 at a located error. -/
def Obligations.ErrorBitsAreSticky : Prop :=
  ∀ s t : State, step s = .next t →
    (∀ b, 8 ≤ b → b ≤ 13 → s.status.getLsbD b = true → t.status.getLsbD b = false →
      ∃ a rest, OutsideActs s a rest ∧ (a = .assertReset ∨
        s.resetAsserted = false ∧ ∃ addr v, a = .write addr v ∧ addr.toNat / 4 = 4 ∧ v.getLsbD b = true)) ∧
    (s.status.getLsbD 8 = false → t.status.getLsbD 8 = true → s.busy = true ∧ s.resetAsserted = false ∧
      ∃ addr v rest, OutsideActs s (.write addr v) rest ∧ addr.toNat / 4 ≠ 4) ∧
    (s.status.getLsbD 9 = false → t.status.getLsbD 9 = true →
      ∃ v why, Issues s v ∧ decode v = .illegal why) ∧
    (s.status.getLsbD 10 = false → t.status.getLsbD 10 = true →
      ∃ v i, Issues s v ∧ decode v = .legal i ∧ i ≠ .init ∧ s.initDone = false) ∧
    (s.status.getLsbD 11 = false → t.status.getLsbD 11 = true →
      ∃ v i, Issues s v ∧ decode v = .legal i ∧ s.initDone = true ∧ destination i = some GEN) ∧
    (s.status.getLsbD 12 = false → t.status.getLsbD 12 = true →
      ∃ v i, Issues s v ∧ decode v = .legal i ∧ (i = .init ∨ s.initDone = true) ∧ destination i ≠ some GEN ∧
        ParamViolation i s) ∧
    (s.status.getLsbD 13 = false → t.status.getLsbD 13 = true →
      ∃ v i, s.engineTurn = some v ∧ decode v = .legal i ∧
        (i = .ginv 0 ∨ (i = .forney ∨ i = .correct) ∧ ∃ e ∈ t.locations, forneyDen t e = 0))

/-! ### Progress and independence -/

/-- A Host that polls STATUS eventually reads BUSY = 0 (R241, R91): from a busy state whose pending word is a command,
within as many steps as the Engine lets acts pass and two more, the poll is over, its last read has bit 0 = 0, and
nothing is pending. (The bound is in terms of the model's schedule, notes/assumptions/6.md.) -/
def Obligations.PollEndsWithTheCommandComplete : Prop :=
  ∀ (s : State) (v : Word) (i : Instr) (rest : List Input), s.inputs = .poll :: rest → s.resetAsserted = false →
    s.pending = some v → decode v = .legal i →
    ∃ n t x rs, n ≤ s.engineWait + 2 ∧ Sys2Proof.core.run n s = .next t ∧ t.inputs = rest ∧ t.pending = none ∧
      t.reads = (statusAddr, x) :: rs ∧ x.getLsbD 0 = false

/-- R73 and R70: what the Host does while a command is pending does not reach the command. After any act but a reset,
every command's completion gives the same state as before the act, but for the error bits, what the Host has recorded
and how many free values were drawn. -/
def Obligations.BusyActsDoNotReachTheCommand : Prop :=
  ∀ (s t : State) (a : Input) (rest : List Input), OutsideActs s a rest → s.busy = true → a ≠ .assertReset →
    step s = .next t → t.pending = s.pending ∧
    ∀ (i : Instr) (u : State), exec i s = .next u →
      ∃ w, exec i t = .next w ∧
        w = { u with errors := w.errors, inputs := w.inputs, reads := w.reads, draws := w.draws,
                     resetAsserted := w.resetAsserted }

/-! ### Reset -/

/-- The reset values the spec gives (R40), for every instance: CFG, STATUS, ERRINFO, ERRCMD and the scalar registers read
0, ID and CAP hold their constants, NPAR_MAX in 1..254 (R9) and MAXDEG = 2 × NPAR_MAX (R11), and no command is pending.
Nothing is said of the arrays. -/
def Obligations.ResetValuesOfTheSpec : Prop :=
  ∀ c : Config,
    let s := State.resetOf c
    idWord = 0x52530100 ∧ s.cap.toNat = c.nparMax + 2 ^ 16 * (2 * c.nparMax) ∧ 1 ≤ c.nparMax ∧ c.nparMax ≤ 254 ∧ s.cfg = 0 ∧ s.status = 0 ∧
    s.errInfoWord = 0 ∧ s.errCmd = 0 ∧ s.result = 0 ∧ s.len = 0 ∧ s.ecnt = 0 ∧ s.nerr = 0 ∧ s.bmL = 0 ∧
    s.pending = none

/-- R230: asserting reset sets every control register to 0 and discards a pending command with none of its effects;
while reset is asserted a Host write has no effect and a read returns an unspecified value; release changes nothing
else. (That the values are taken at assertion is the model's choice, notes/assumptions/8.md.) -/
def Obligations.ResetDiscardsThePendingCommand : Prop :=
  ∀ (s : State) (a : Input) (rest : List Input), OutsideActs s a rest →
    (a = .assertReset → ∃ t, step s = .next t ∧ t.config = s.config ∧ t.cfg = 0 ∧ t.status = 0 ∧
      t.errInfoWord = 0 ∧ t.errCmd = 0 ∧ t.result = 0 ∧ t.len = 0 ∧ t.ecnt = 0 ∧ t.nerr = 0 ∧ t.bmL = 0 ∧
      t.pending = none ∧ t.resetAsserted = true ∧ t.inputs = rest ∧ t.reads = s.reads) ∧
    (s.resetAsserted = true → ∀ addr v, a = .write addr v → step s = .next (s.turn rest)) ∧
    (s.resetAsserted = true → ∀ addr, a = .read addr → step s = .next { s.turn rest with
      reads := (addr, Config.freeWord s.draws) :: s.reads, draws := s.draws + 1 }) ∧
    (a = .releaseReset → step s = .next { s.turn rest with resetAsserted := false })

/-! ### Whole-machine rules -/

/-- R27: INIT_DONE is 0 after reset; the completion of INIT sets it; no step but a reset clears it, and no step but that
completion sets it; while it is 0, every other command is rejected with NOTINIT. -/
def Obligations.InitDoneIsClearedOnlyByReset : Prop :=
  (∀ c, (State.resetOf c).initDone = false) ∧
  (∀ s : State, s.busy = true → ∃ t, exec .init s = .next t ∧ t.initDone = true) ∧
  (∀ s t : State, step s = .next t → s.initDone = true → t.initDone = true ∨ ∃ rest, OutsideActs s .assertReset rest) ∧
  (∀ s t : State, step s = .next t → s.initDone = false → t.initDone = true → s.engineTurn = some 0x00000001) ∧
  (∀ (s : State) (i : Instr), s.initDone = false → s.busy = false → i ≠ .init →
    exec i s = .next (s.reject .notInit (encode i)))

/-- R38: the completion step of each command writes the state the table lists for it, and no other. -/
def Obligations.CommandsWriteOnlyTheListedState : Prop :=
  (∀ (i : Instr) (s t : State), Canonical s → s.busy = true → exec i s = .next t → WritesOnly i s t) ∧
  (∀ (i : Instr) (s t : State), s.busy = false → exec i s = .next t →
    t = { s with errors := t.errors, errInfo := t.errInfo, errCmd := t.errCmd } ∨
    t = { s with pending := some (encode i), engineWait := t.engineWait, delays := t.delays })

/-- Over whole steps (R30, R36, R38): EXP, LOG, GEN and NPAR_ACT change only in the completion of INIT or in a reset. -/
def Obligations.OnlyInitChangesTablesAndGenerator : Prop :=
  ∀ s t : State, PendingPasses s → s.polys.wf → step s = .next t → s.engineTurn ≠ some 0x00000001 →
    (¬∃ rest, OutsideActs s .assertReset rest) →
    t.tables = s.tables ∧ t.nparAct = s.nparAct ∧ t.poly GEN = s.poly GEN

/-! ### The field engine -/

/-- INIT (R109) completes in every busy state: the tables, NPAR_ACT and GEN are written, every other polynomial register,
ERRLOC, NERR, BM_L, RESULT and the outcome flags are 0, INIT_DONE is 1, and everything else is unchanged. The tables and
the generator are those of the next two statements. -/
def Obligations.InitCompletes : Prop :=
  ∀ s : State, s.busy = true → ∃ t, exec .init s = .next t ∧
    t = { s with tables := builtTables, polys := t.polys, nparAct := s.nparReq, errloc := t.errloc, nerr := 0, bmL := 0,
                 result := 0, clean := false, outcome := .none, failCause := .none, initDone := true,
                 pending := none, engineWait := 0 } ∧
    (∀ p : PIdx, p ≠ GEN → ∀ i < s.maxdeg, t.coefAt p i = 0) ∧
    (∀ i < s.maxdeg, t.coefAt GEN i = coef (generator builtTables s.maxdeg s.nparReq.toNat) i) ∧
    (∀ k, t.errloc.read k = 0)

/-- R106 and R107: the tables the completion of INIT leaves, element by element: EXP[0] = 1, each power x times the one
before it modulo the field polynomial, the second half a copy, EXP[511] = 2, so EXP[i] = α^(i mod 255) for the 512
entries; LOG[0] = 0, LOG[α^i] = i, LOG[1] = 0, and EXP[LOG[a]] = a for a != 0. -/
def Obligations.InitBuildsExpAndLog : Prop :=
  ∀ s t : State, s.busy = true → exec .init s = .next t →
    t.tables.exp.read 0 = 0x01 ∧
    (∀ i, 1 ≤ i → i ≤ 254 → t.tables.exp.read i = timesX (t.tables.exp.read (i - 1))) ∧
    t.tables.exp.read 255 = 0x01 ∧
    (∀ i, 256 ≤ i → i ≤ 510 → t.tables.exp.read i = t.tables.exp.read (i - 255)) ∧
    t.tables.exp.read 511 = 0x02 ∧
    (∀ i ≤ 511, t.tables.exp.read i = fieldPow (i % 255)) ∧
    t.tables.log.read 0 = 0x00 ∧
    (∀ i ≤ 254, t.tables.log.read (t.tables.exp.read i).toNat = BitVec.ofNat 8 i) ∧
    t.tables.log.read 1 = 0x00 ∧
    (∀ a : Byte, a ≠ 0 → t.tables.exp.read (t.tables.log.read a.toNat).toNat = a)

/-- R108: the generator polynomial for npar below the capacity n is monic of degree npar, and α^1 to α^npar are roots of
it, so it is the product of the factors x + α^i. -/
def Obligations.GeneratorIsMonicWithItsRoots : Prop :=
  ∀ n npar : Nat, npar < n → npar ≤ 254 →
    let g := generator builtTables n npar
    coef g npar = 1 ∧ (∀ j, npar < j → coef g j = 0) ∧
    ∀ i, 1 ≤ i → i ≤ npar → xorSum n (fun k => fieldMul (coef g k) (fieldPow (k * i))) = 0

/-- GMUL (R110) on a booted block: RESULT is the product of A and B as polynomials modulo x^8 + x^4 + x^3 + x^2 + 1
(R100, R101), and nothing else but BUSY changes. -/
def Obligations.GmulIsPolynomialMultiplication : Prop :=
  ∀ (s : State) (a b : Byte), s.busy = true → s.tables = builtTables →
    exec (.gmul a b) s = .next { s with result := fieldMul a b, pending := none, engineWait := 0 }

/-- GINV (R111) on a booted block: for A != 0 RESULT is the inverse of A; for A = 0 RESULT is 1 and the ZDIV warning is
recorded (R207); nothing else but BUSY changes. -/
def Obligations.GinvIsTheFieldInverse : Prop :=
  ∀ (s : State) (a : Byte), s.busy = true → s.tables = builtTables →
    (a ≠ 0 → ∃ r, fieldMul a r = 1 ∧
      exec (.ginv a) s = .next { s with result := r, pending := none, engineWait := 0 }) ∧
    (a = 0 → exec (.ginv a) s = .next { s with
      result := 1, errors := { s.errors with zdiv := true }, errInfo := .zdiv, errCmd := 0x00000011,
      pending := none, engineWait := 0 })

/-- R112: the laws of gf_mul and gf_inv over the tables INIT builds, and that every table index they use is in range. -/
def Obligations.FieldLaws : Prop :=
  (∀ a b : Byte, (builtTables.logAt a).toNat + (builtTables.logAt b).toNat ≤ 508) ∧
  (∀ a : Byte, 1 ≤ 255 - (builtTables.logAt a).toNat ∧ 255 - (builtTables.logAt a).toNat ≤ 255) ∧
  (∀ a b : Byte, gfMul builtTables a b = gfMul builtTables b a) ∧
  (∀ a b c : Byte, gfMul builtTables (gfMul builtTables a b) c = gfMul builtTables a (gfMul builtTables b c)) ∧
  (∀ a b c : Byte, gfMul builtTables a (b ^^^ c) = gfMul builtTables a b ^^^ gfMul builtTables a c) ∧
  (∀ a : Byte, gfMul builtTables 1 a = a ∧ gfMul builtTables 0 a = 0) ∧
  (∀ a : Byte, a ≠ 0 → gfMul builtTables a (gfInv builtTables a) = 1)

/-! ### The polynomial commands -/

/-- PZERO, PCOPY, PADD and PSHZ (R121, R122, R123, R126) complete in every busy state and write the coefficients the rule
gives, from the sources as they were, whichever of the registers are the same. -/
def Obligations.ZeroCopyAddShiftWriteTheirResult : Prop :=
  ∀ (s : State) (pd pa pb : PIdx), s.busy = true → s.polys.wf →
    (∃ t, exec (.pzero pd) s = .next t ∧ WritesRegister s t pd (fun _ => 0)) ∧
    (∃ t, exec (.pcopy pd pa) s = .next t ∧ WritesRegister s t pd (s.coefAt pa)) ∧
    (∃ t, exec (.padd pd pa pb) s = .next t ∧ WritesRegister s t pd (fun i => s.coefAt pa i ^^^ s.coefAt pb i)) ∧
    (∃ t, exec (.pshz pd pa) s = .next t ∧
      WritesRegister s t pd (fun i => if i = 0 then 0 else s.coefAt pa (i - 1)))

/-- PSCALE and PMUL (R124, R125) complete in every busy state of a booted block: every coefficient times K, and the
convolution truncated to MAXDEG coefficients, with field multiplication as polynomial multiplication. -/
def Obligations.ScaleAndMultiplyWriteTheirResult : Prop :=
  ∀ (s : State) (pd pa pb : PIdx) (k : Byte), s.busy = true → s.polys.wf → s.tables = builtTables →
    (∃ t, exec (.pscale pd pa k) s = .next t ∧ WritesRegister s t pd (fun i => fieldMul k (s.coefAt pa i))) ∧
    (∃ t, exec (.pmul pd pa pb) s = .next t ∧
      WritesRegister s t pd (fun m => xorSum (m + 1) (fun i => fieldMul (s.coefAt pa i) (s.coefAt pb (m - i)))))

/-! ### The encoder and the syndrome calculator -/

/-- ENCODE (R140) completes in every busy state of a booted block: CW[LEN+i] is cell NPAR-1-i of the LFSR after the message,
the cells following the recurrence of the rule from all zero; every other byte of CW and all other state but the hidden
scratch is unchanged. -/
def Obligations.EncodeWritesTheLfsrParity : Prop :=
  ∀ s : State, s.busy = true → s.cw.wf → s.tables = builtTables → s.npar ≤ s.config.nparMax →
    ∃ t, exec .encode s = .next t ∧
      t = { s with cw := t.cw, scratch := { s.scratch with lfsr := t.scratch.lfsr }, pending := none, engineWait := 0 } ∧
      (∃ r : Nat → Nat → Byte,
        (∀ j < s.npar, r 0 j = 0) ∧
        (∀ τ < s.len.toNat, ∀ j < s.npar, r (τ + 1) j =
          (if j = 0 then 0 else r τ (j - 1)) ^^^ fieldMul (s.coefAt GEN j) (s.cw.read τ ^^^ r τ (s.npar - 1))) ∧
        ∀ i < s.npar, t.cw.read (s.len.toNat + i) = r s.len.toNat (s.npar - 1 - i)) ∧
      ∀ k, ¬(s.len.toNat ≤ k ∧ k < s.len.toNat + s.npar) → t.cw.read k = s.cw.read k

/-- SYND (R150, R151, R152) completes in every busy state of a booted block: SYN[j] is the codeword at α^(j+1) for j < NPAR
and 0 above, CLEAN is 1 iff all NPAR of them are 0, and all other state is unchanged. -/
def Obligations.SyndEvaluatesTheCodeword : Prop :=
  ∀ s : State, s.busy = true → s.polys.wf → s.tables = builtTables → s.npar ≤ s.config.nparMax →
    ∃ t, exec .synd s = .next t ∧
      t = { s with polys := t.polys, clean := t.clean, pending := none, engineWait := 0 } ∧
      OnlyRegisters s t [SYN] ∧
      (∀ j < s.npar, t.coefAt SYN j = codewordAt s.cw.read s.len.toNat j) ∧
      (∀ j, s.npar ≤ j → j < s.maxdeg → t.coefAt SYN j = 0) ∧
      (t.clean = true ↔ ∀ j < s.npar, codewordAt s.cw.read s.len.toNat j = 0)

/-- The round trip of an uncorrupted codeword (R141, R192): after ENCODE and LEN <- LEN + NPAR, SYND finds every syndrome
0, and CORRECT answers DONE_CLEAN and leaves the buffer as it is. -/
def Obligations.EncodeThenDecodeIsClean : Prop :=
  ∀ (s t : State) (v : Word), s.busy = true → Booted s → Canonical s → s.len.toNat + s.npar ≤ 255 →
    exec .encode s = .next t →
    let u := { t with len := BitVec.ofNat 8 (s.len.toNat + s.npar), pending := some v }
    (∃ w, exec .synd u = .next w ∧ w.clean = true ∧ ∀ j < s.npar, w.coefAt SYN j = 0) ∧
    ∃ w, exec .correct u = .next w ∧ w.outcome = .doneClean ∧ w.cw = t.cw

/-! ### The decoder -/

/-- GAMMA (R161) completes in every busy state of a booted block: the coefficients of Γ after the last listed location,
each location e multiplying the factor 1 ^ α^e·x in, from Γ = 1; all other state is unchanged. -/
def Obligations.GammaMultipliesTheFactors : Prop :=
  ∀ s : State, s.busy = true → s.polys.wf → s.tables = builtTables →
    ∃ t, exec .gamma s = .next t ∧
      ∃ g : Nat → Nat → Byte,
        (∀ i < s.maxdeg, g 0 i = if i = 0 then 1 else 0) ∧
        (∀ k < s.ecnt.toNat, ∀ i < s.maxdeg, g (k + 1) i =
          g k i ^^^ (if i = 0 then 0 else fieldMul (fieldPow (s.era.read k).toNat) (g k (i - 1)))) ∧
        WritesRegister s t GAMMA (g s.ecnt.toNat)

/-- R162: after GAMMA with ECNT below the capacity, Γ(x) is the product of the factors 1 ^ α^e·x (at every α^r), its
constant term is 1, its degree is ECNT, and it is 0 at α^(-e) for every listed location e in 0..254. -/
def Obligations.GammaHasTheErasuresAsRoots : Prop :=
  ∀ s t : State, s.busy = true → s.polys.wf → s.tables = builtTables → s.ecnt.toNat < s.maxdeg →
    exec .gamma s = .next t →
    (∀ r, t.evalAt GAMMA r = (List.range s.ecnt.toNat).foldl
      (fun acc k => fieldMul acc (1 ^^^ fieldMul (fieldPow (s.era.read k).toNat) (fieldPow r))) 1) ∧
    t.coefAt GAMMA 0 = 1 ∧ t.coefAt GAMMA s.ecnt.toNat ≠ 0 ∧
    (∀ i, s.ecnt.toNat < i → i < s.maxdeg → t.coefAt GAMMA i = 0) ∧
    ∀ k < s.ecnt.toNat, (s.era.read k).toNat ≤ 254 → t.evalAt GAMMA ((255 - (s.era.read k).toNat) % 255) = 0

/-- BMSOLVE (R170, R173) completes in every busy state of a booted block with ECNT <= NPAR: Λ, Ω and BM_L come from the
recurrence of the rule, in which (L, k, D) change together from their old values and D is shifted once a step; all
other state but the hidden scratch is unchanged. -/
def Obligations.BmsolveFollowsTheRecurrence : Prop :=
  ∀ s : State, s.busy = true → s.polys.wf → s.tables = builtTables → s.npar ≤ s.config.nparMax →
    s.ecnt.toNat ≤ s.npar →
    ∃ t, exec .bmsolve s = .next t ∧
      t = { s with polys := t.polys, bmL := t.bmL, scratch := { s.scratch with bm := t.scratch.bm },
                   pending := none, engineWait := 0 } ∧
      OnlyRegisters s t [LAMBDA, OMEGA] ∧
      ∃ (psi d : Nat → Nat → Byte) (l : Nat → Nat) (k : Nat → Int),
        (∀ i < s.maxdeg, psi s.ecnt.toNat i = s.coefAt GAMMA i) ∧
        (∀ i < s.maxdeg, d s.ecnt.toNat i = if i = 0 then 0 else s.coefAt GAMMA (i - 1)) ∧
        l s.ecnt.toNat = s.ecnt.toNat ∧ k s.ecnt.toNat = -1 ∧
        (∀ n, s.ecnt.toNat ≤ n → n < s.npar →
          let disc := xorSum (l n + 1) (fun i => fieldMul (psi n i) (s.coefAt SYN (n - i)))
          (disc = 0 → l (n + 1) = l n ∧ k (n + 1) = k n ∧
            ∀ i < s.maxdeg, psi (n + 1) i = psi n i ∧ d (n + 1) i = if i = 0 then 0 else d n (i - 1)) ∧
          (disc ≠ 0 → (∀ i < s.maxdeg, psi (n + 1) i = psi n i ^^^ fieldMul disc (d n i)) ∧
            ((l n : Int) < n - k n → (l (n + 1) : Int) = n - k n ∧ k (n + 1) = n - l n ∧
              ∃ c, fieldMul disc c = 1 ∧
                ∀ i < s.maxdeg, d (n + 1) i = if i = 0 then 0 else fieldMul c (psi n (i - 1))) ∧
            (¬(l n : Int) < n - k n → l (n + 1) = l n ∧ k (n + 1) = k n ∧
              ∀ i < s.maxdeg, d (n + 1) i = if i = 0 then 0 else d n (i - 1)))) ∧
        (∀ i < s.maxdeg, t.coefAt LAMBDA i = psi s.npar i) ∧
        (∀ i < s.maxdeg, t.coefAt OMEGA i =
          if i < s.npar then xorSum (i + 1) (fun j => fieldMul (psi s.npar j) (s.coefAt SYN (i - j))) else 0) ∧
        t.bmL.toNat = l s.npar

/-- R171: before step m of BMSOLVE, with ECNT <= m, ECNT <= L <= m and -1 <= k <= m-1, whatever the tables and the
registers hold; so BM_L ends in ECNT..NPAR. -/
def Obligations.BmsolveIndicesStayInRange : Prop :=
  (∀ (t : Tables) (n : Nat) (syn gamma : Poly) (ecnt m : Nat), ecnt ≤ m →
    let b := bmRun t n syn gamma ecnt m
    ecnt ≤ b.l ∧ b.l ≤ m ∧ -1 ≤ b.k ∧ b.k ≤ (m : Int) - 1) ∧
  ∀ s t : State, s.busy = true → s.ecnt.toNat ≤ s.npar → exec .bmsolve s = .next t →
    s.ecnt.toNat ≤ t.bmL.toNat ∧ t.bmL.toNat ≤ s.npar

/-- The first bullet of R172: BMSOLVE keeps the constant term, Λ[0] = Γ[0]. -/
def Obligations.LambdaKeepsTheConstantTerm : Prop :=
  ∀ s t : State, s.busy = true → s.polys.wf → exec .bmsolve s = .next t → t.coefAt LAMBDA 0 = s.coefAt GAMMA 0

/-- CHIEN (R180, R181, R35) completes in every busy state of a booted block: ERRLOC[0..NERR-1] are exactly the 255 - r for
the roots α^r of Λ with r in 1..255, in strictly decreasing order, every later entry is 0, and all other state but the
hidden scratch is unchanged. -/
def Obligations.ChienFindsExactlyTheRoots : Prop :=
  ∀ s : State, s.busy = true → s.tables = builtTables →
    ∃ t, exec .chien s = .next t ∧
      t = { s with errloc := t.errloc, nerr := t.nerr, scratch := { s.scratch with chien := t.scratch.chien },
                   pending := none, engineWait := 0 } ∧
      t.nerr.toNat ≤ 255 ∧
      (∀ r, 1 ≤ r → r ≤ 255 →
        (s.evalAt LAMBDA r = 0 ↔ ∃ k < t.nerr.toNat, (t.errloc.read k).toNat = 255 - r)) ∧
      (∀ j k, j < k → k < t.nerr.toNat → (t.errloc.read k).toNat < (t.errloc.read j).toNat) ∧
      (∀ k < t.nerr.toNat, (t.errloc.read k).toNat ≤ 254) ∧
      ∀ k, t.nerr.toNat ≤ k → t.errloc.read k = 0

/-- R186: FORNEY checks bounds first, then capacity, both before any write; either failure is UNCORRECTABLE, leaves CW and
everything but OUTCOME, FAIL_CAUSE and BUSY as it was, and the two differ only in FAIL_CAUSE. -/
def Obligations.ForneyFailsBeforeAnyWrite : Prop :=
  ∀ s : State, s.busy = true →
    ((∃ k < s.nerr.toNat, s.len.toNat ≤ (s.errloc.read k).toNat) →
      exec .forney s = .next { s with
        outcome := .uncorrectable, failCause := .outOfRangeRoot, pending := none, engineWait := 0 }) ∧
    ((∀ k < s.nerr.toNat, (s.errloc.read k).toNat < s.len.toNat) → (s.nerr.toNat = 0 ∨ s.npar < s.nerr.toNat) →
      exec .forney s = .next { s with
        outcome := .uncorrectable, failCause := .uncorrCount, pending := none, engineWait := 0 })

/-- FORNEY (R185, R187) on a booted block, when both checks pass and the locations are distinct: OUTCOME is CORRECTED, and
the byte CW[LEN-1-i] of each location i is XORed with the magnitude num/den, or with num when den = 0; then and only
then the ZDIV warning is recorded (R207). Every other byte of CW and all other state but the hidden scratch is
unchanged. -/
def Obligations.ForneyCorrectsEachLocation : Prop :=
  ∀ s : State, s.busy = true → s.tables = builtTables → s.cw.wf →
    (∀ k < s.nerr.toNat, (s.errloc.read k).toNat < s.len.toNat) →
    1 ≤ s.nerr.toNat → s.nerr.toNat ≤ s.npar → s.locations.Nodup →
    ∃ t, exec .forney s = .next t ∧
      t = { s with cw := t.cw, outcome := .corrected, failCause := .none, errors := t.errors, errInfo := t.errInfo,
                   errCmd := t.errCmd, scratch := { s.scratch with num := t.scratch.num, den := t.scratch.den },
                   pending := none, engineWait := 0 } ∧
      (∀ k < s.nerr.toNat,
        let x := 255 - (s.errloc.read k).toNat
        let τ := s.len.toNat - 1 - (s.errloc.read k).toNat
        ∃ mag, t.cw.read τ = s.cw.read τ ^^^ mag ∧
          (s.derivAt LAMBDA x ≠ 0 → fieldMul mag (s.derivAt LAMBDA x) = s.evalAt OMEGA x) ∧
          (s.derivAt LAMBDA x = 0 → mag = s.evalAt OMEGA x)) ∧
      (∀ τ, (∀ k < s.nerr.toNat, τ ≠ s.len.toNat - 1 - (s.errloc.read k).toNat) → t.cw.read τ = s.cw.read τ) ∧
      ((∃ k < s.nerr.toNat, s.derivAt LAMBDA (255 - (s.errloc.read k).toNat) = 0) →
        t.errors = { s.errors with zdiv := true } ∧ t.errInfo = .zdiv ∧ t.errCmd = 0x00000035) ∧
      ((∀ k < s.nerr.toNat, s.derivAt LAMBDA (255 - (s.errloc.read k).toNat) ≠ 0) →
        t.errors = s.errors ∧ t.errInfo = s.errInfo ∧ t.errCmd = s.errCmd)

/-- CORRECT on a clean codeword (R190, R192): DONE_CLEAN, whatever erasures are listed; it writes what SYND writes, and
OUTCOME and FAIL_CAUSE; CW, GAMMA, LAMBDA, OMEGA, BM_L, ERRLOC and NERR keep their values. -/
def Obligations.CorrectLeavesACleanCodeword : Prop :=
  ∀ s : State, s.busy = true → s.polys.wf → s.tables = builtTables → s.npar ≤ s.config.nparMax →
    (∀ j < s.npar, codewordAt s.cw.read s.len.toNat j = 0) →
    ∃ t, exec .correct s = .next t ∧
      t = { s with polys := t.polys, clean := true, outcome := .doneClean, failCause := .none,
                   scratch := { s.scratch with phase := .doneClean }, pending := none, engineWait := 0 } ∧
      OnlyRegisters s t [SYN] ∧ ∀ j < s.maxdeg, t.coefAt SYN j = 0

/-- CORRECT on a codeword that is not clean (R190, R191) is SYND, GAMMA, BMSOLVE, CHIEN and FORNEY run one after another on
the state each leaves, in one step: it ends in the state the five commands end in, but for the hidden scratch and for
the word a ZDIV warning records. -/
def Obligations.CorrectIsItsStagesInSequence : Prop :=
  ∀ (s u1 : State) (v : Word), s.busy = true → exec .synd s = .next u1 → u1.clean = false →
    ∃ u2 u3 u4 u5 t,
      exec .gamma { u1 with pending := some v } = .next u2 ∧
      exec .bmsolve { u2 with pending := some v } = .next u3 ∧
      exec .chien { u3 with pending := some v } = .next u4 ∧
      exec .forney { u4 with pending := some v } = .next u5 ∧
      exec .correct s = .next t ∧
      t = { u5 with errCmd := t.errCmd, scratch := t.scratch } ∧
      ((t.errCmd = s.errCmd ∧ u5.errCmd = s.errCmd) ∨
       (t.errCmd = 0x00000036 ∧ u5.errCmd = 0x00000035 ∧ t.errInfo = .zdiv))

/-- One unknown error (the first case of R192's "pure error correction"): when the buffer differs from a codeword in
exactly one byte and NPAR >= 2, CORRECT with no erasures answers CORRECTED and restores the codeword. -/
def Obligations.CorrectRepairsOneError : Prop :=
  ∀ (s : State) (c : Nat → Byte) (e : Nat), s.busy = true → Booted s → Canonical s → 2 ≤ s.npar →
    s.ecnt.toNat = 0 → e < s.len.toNat → (∀ j < s.npar, codewordAt c s.len.toNat j = 0) →
    (∀ τ < s.len.toNat, s.cw.read τ = c τ ↔ τ ≠ s.len.toNat - 1 - e) →
    ∃ t, exec .correct s = .next t ∧ t.outcome = .corrected ∧ t.failCause = .none ∧
      t.nerr.toNat = 1 ∧ (t.errloc.read 0).toNat = e ∧ ∀ τ < s.len.toNat, t.cw.read τ = c τ

/-! ### Invariants -/

/-- The invariant holds right after reset, for every instance, whatever the unspecified elements of the arrays hold (R41;
notes/assumptions/3.md). -/
def Obligations.ResetMeetsTheInvariant : Prop := ∀ c : Config, Inv (State.resetOf c)

/-- Every step keeps the invariant, from every state that meets it: arrays in canonical form with no element that does
not exist, tables and GEN right for NPAR once INIT_DONE = 1, a pending word that passes every issue check, distinct
located errors in 0..254, BM_L <= NPAR, FAIL_CAUSE telling an UNCORRECTABLE outcome, and code BUSY never in ERRINFO. -/
def Obligations.StepKeepsTheInvariant : Prop := ∀ s t : State, Inv s → step s = .next t → Inv t

/-- From every state that meets the invariant no run stops: no number of steps ends in a fault or a refusal. -/
def Obligations.RunsNeverStop : Prop := ∀ s : State, Inv s → SafeRun s

/-! ### The warning -/

/-- FORNEY's two checks pass in s (R185), and the denominator at some located error is 0 (R187). -/
def ZeroDenominator (s : State) : Prop :=
  (∀ k < s.nerr.toNat, (s.errloc.read k).toNat < s.len.toNat) ∧ 1 ≤ s.nerr.toNat ∧ s.nerr.toNat ≤ s.npar ∧
  ∃ k < s.nerr.toNat, s.derivAt LAMBDA (255 - (s.errloc.read k).toNat) = 0

/-- The command with word v completed in t with its normal outcome, and the warning is recorded. -/
def CompletesWithWarning (s t : State) (v : Word) : Prop :=
  t.pending = none ∧ t.outcome = .corrected ∧ t.failCause = .none ∧
  t.errors = { s.errors with zdiv := true } ∧ t.errInfo = .zdiv ∧ t.errCmd = v

/-- Each located byte whose denominator in s is 0 is corrected by the numerator alone, gf_inv(0) being 1 (R103, R185). -/
def CorrectedByNumerators (s t : State) : Prop :=
  ∀ k < s.nerr.toNat, s.derivAt LAMBDA (255 - (s.errloc.read k).toNat) = 0 →
    t.cw.read (s.len.toNat - 1 - (s.errloc.read k).toNat) =
      s.cw.read (s.len.toNat - 1 - (s.errloc.read k).toNat) ^^^ s.evalAt OMEGA (255 - (s.errloc.read k).toNat)

/-- R207: `warn ZDIV` with the word v sets WARN_ZDIV, ERRINFO.CODE = 6 and ERRCMD = v and nothing else, and a second time
changes nothing. GINV with A = 0 raises it and completes with RESULT = gf_inv(0) = 1; so does FORNEY when a denominator
is 0, and CORRECT in its FORNEY phase: each completes, with OUTCOME CORRECTED, the byte of a location with denominator 0
corrected by the numerator times 1, and the warning recorded with its own word. Blocks whose tables are INIT's. -/
def Obligations.ZdivIsRecordedAndTheCommandCompletes : Prop :=
  (∀ (s : State) (v : Word),
    let t := s.warnZdiv v
    t = { s with errors := t.errors, errInfo := .zdiv, errCmd := v } ∧ t.status.getLsbD 13 = true ∧
    (∀ b, b ≠ 13 → t.status.getLsbD b = s.status.getLsbD b) ∧ t.errInfoWord.toNat = 6 ∧ t.warnZdiv v = t) ∧
  (∀ s : State, s.busy = true → s.tables = builtTables →
    exec (.ginv 0) s = .next { s.warnZdiv 0x00000011 with result := 1, pending := none, engineWait := 0 }) ∧
  (∀ s : State, s.busy = true → s.tables = builtTables → s.cw.wf → ZeroDenominator s → s.locations.Nodup →
    ∃ t, exec .forney s = .next t ∧ CompletesWithWarning s t 0x00000035 ∧ CorrectedByNumerators s t) ∧
  ∀ (s u1 u2 u3 u4 : State) (v : Word), s.busy = true → s.tables = builtTables → s.cw.wf →
    exec .synd s = .next u1 → u1.clean = false →
    exec .gamma { u1 with pending := some v } = .next u2 →
    exec .bmsolve { u2 with pending := some v } = .next u3 →
    exec .chien { u3 with pending := some v } = .next u4 → ZeroDenominator u4 →
    ∃ t, exec .correct s = .next t ∧ CompletesWithWarning s t 0x00000036 ∧ CorrectedByNumerators u4 t

/-! ### Unspecified elements -/

/-- R41: after power-on, and after every reset, each array element (of P, CW, ERA, ERRLOC, EXP and LOG) holds a free value
of its own, one that no element held and nothing drew before: numbers are drawn upwards only, and the two clauses give
different numbers to different elements and resets. A Host read, with BUSY = 0, returns the value an element holds. (The
numbering, by word address, is the model's, notes/assumptions/3.md and 4.md.) -/
def Obligations.ResetLeavesEveryElementUnspecified : Prop :=
  (∀ c : Config, 2 ^ 14 ≤ (State.resetOf c).draws ∧
    ∀ a : Addr, 0x100 ≤ a.toNat / 4 → ¬ReservedWord c (a.toNat / 4) →
      (State.resetOf c).value (locate c a) = elementWord (Config.freeByte (a.toNat / 4))) ∧
  (∀ (s : State) (rest : List Input), OutsideActs s .assertReset rest →
    ∃ t, step s = .next t ∧ s.draws + 2 ^ 14 ≤ t.draws ∧
      ∀ a : Addr, 0x100 ≤ a.toNat / 4 → ¬ReservedWord s.config (a.toNat / 4) →
        t.value (locate t.config a) = elementWord (Config.freeByte (s.draws + a.toNat / 4))) ∧
  (∀ s t : State, step s = .next t → s.draws ≤ t.draws) ∧
  ∀ (s : State) (a : Addr) (rest : List Input), OutsideActs s (.read a) rest → s.resetAsserted = false →
    s.busy = false →
    step s = .next { s.turn rest with reads := (a, s.value (locate s.config a)) :: s.reads }
end

