-- ==== Sys2Proof/Laws/Memory.lean ====
section
/-!
SUPPORT. What the array operations of Machine/Ops.lean do, said once: each keeps the canonical form, a read after a
write gives the value written, and a write leaves every other element alone.
-/

namespace Sys2Proof.Machine

/-! ### Pairs -/

@[simp] theorem Fill.value_zero (k : Nat) : Fill.zero.value k = 0 := rfl
@[simp] theorem Fill.value_free (d k : Nat) : (Fill.free d).value k = Config.freeByte (d + k) := rfl
@[simp] theorem Fill.known_zero : Fill.zero.known = some 0 := rfl
@[simp] theorem Fill.known_free (d : Nat) : (Fill.free d).known = none := rfl

/-- A known value is the one every unlisted element holds. -/
theorem Fill.value_of_known {f : Fill} {b : Byte} (h : f.known = some b) (k : Nat) : f.value k = b := by
  cases f with
  | zero => exact Option.some.inj h
  | free d => exact nomatch h

/-- The canonical form of the pairs of an array. -/
abbrev WfCells (f : Fill) (cs : List Host.Cell) : Prop :=
  cs.Pairwise (fun c d => c.1 < d.1) ∧ ∀ c ∈ cs, f.known ≠ some c.2

theorem readCells_cons (f : Fill) (j : Nat) (b : Byte) (cs : List Host.Cell) (k : Nat) :
    readCells f ((j, b) :: cs) k = if k = j then b else readCells f cs k := rfl

/-- An element below every listed index reads as unlisted. -/
theorem readCells_of_lt_all (f : Fill) {cs : List Host.Cell} {k : Nat} (h : ∀ c ∈ cs, k < c.1) :
    readCells f cs k = f.value k := by
  induction cs with
  | nil => rfl
  | cons c cs ih =>
    have hc : k < c.1 := h c List.mem_cons_self
    rw [readCells_cons, if_neg (by omega)]
    exact ih fun d hd => h d (List.mem_cons_of_mem _ hd)

theorem wfCells_nil (f : Fill) : WfCells f [] := ⟨List.Pairwise.nil, by simp⟩

theorem wfCells_cons {f : Fill} {j : Nat} {b : Byte} {cs : List Host.Cell} :
    WfCells f ((j, b) :: cs) ↔ (∀ c ∈ cs, j < c.1) ∧ f.known ≠ some b ∧ WfCells f cs := by
  simp only [WfCells, List.pairwise_cons, List.forall_mem_cons]
  exact ⟨fun h => ⟨h.1.1, h.2.1, h.1.2, h.2.2⟩, fun h => ⟨⟨h.1, h.2.2.1⟩, h.2.1, h.2.2.2⟩⟩

/-- Every pair a write leaves is the written one or was listed before. -/
theorem mem_writeCells {f : Fill} {cs : List Host.Cell} {k : Nat} {b : Byte} {c : Host.Cell} (h : c ∈ writeCells f cs k b) :
    c = (k, b) ∨ c ∈ cs := by
  induction cs with
  | nil =>
    simp only [writeCells] at h
    split at h
    · exact .inr h
    · exact .inl (List.mem_singleton.1 h)
  | cons d cs ih =>
    obtain ⟨j, e⟩ := d
    simp only [writeCells] at h
    split at h
    · split at h
      · exact .inr h
      · exact List.mem_cons.1 h
    · split at h
      · split at h
        · exact .inr (List.mem_cons_of_mem _ h)
        · exact (List.mem_cons.1 h).imp_right (List.mem_cons_of_mem _)
      · rcases List.mem_cons.1 h with rfl | h
        · exact .inr List.mem_cons_self
        · exact (ih h).imp_right (List.mem_cons_of_mem _)

theorem writeCells_wf {f : Fill} {cs : List Host.Cell} (hm : WfCells f cs) (k : Nat) (b : Byte) :
    WfCells f (writeCells f cs k b) := by
  induction cs with
  | nil =>
    simp only [writeCells]
    split
    · exact wfCells_nil f
    · exact wfCells_cons.2 ⟨by simp, ‹_›, wfCells_nil f⟩
  | cons d cs ih =>
    obtain ⟨j, e⟩ := d
    obtain ⟨hj, he, hwf⟩ := wfCells_cons.1 hm
    simp only [writeCells]
    split
    · split
      · exact hm
      · refine wfCells_cons.2 ⟨?_, ‹_›, hm⟩
        rintro c hc
        rcases List.mem_cons.1 hc with rfl | hc
        · assumption
        · have := hj c hc; omega
    · split
      · next hkj =>
        subst hkj
        split
        · exact hwf
        · exact wfCells_cons.2 ⟨hj, ‹_›, hwf⟩
      · refine wfCells_cons.2 ⟨?_, he, ih hwf⟩
        intro c hc
        rcases mem_writeCells hc with rfl | hc
        · show j < k; omega
        · exact hj c hc

theorem readCells_writeCells {f : Fill} {cs : List Host.Cell} (hm : WfCells f cs) (k : Nat) (b : Byte) (a : Nat) :
    readCells f (writeCells f cs k b) a = if a = k then b else readCells f cs a := by
  induction cs with
  | nil =>
    simp only [writeCells]
    split
    · next hb =>
      split
      · exact Fill.value_of_known hb a
      · rfl
    · rfl
  | cons d cs ih =>
    obtain ⟨j, e⟩ := d
    obtain ⟨hj, -, hwf⟩ := wfCells_cons.1 hm
    simp only [writeCells]
    split
    · next hkj =>
      split
      · next hb =>
        split
        · next hak =>
          subst hak
          rw [readCells_cons, if_neg (by omega), readCells_of_lt_all f fun c hc => by have := hj c hc; omega]
          exact Fill.value_of_known hb a
        · rfl
      · rw [readCells_cons]
    · split
      · next hkj =>
        subst hkj
        split
        · next hb =>
          split
          · next hak =>
            subst hak
            rw [readCells_of_lt_all f hj]
            exact Fill.value_of_known hb a
          · next hak => rw [readCells_cons, if_neg hak]
        · rw [readCells_cons, readCells_cons]
          split <;> rfl
      · next hkj =>
        rw [readCells_cons, ih hwf, readCells_cons]
        split
        · next haj => rw [if_neg (by omega)]
        · rfl

/-! ### Arrays -/

@[simp] theorem Memory.read_zeros (k : Nat) : Memory.zeros.read k = 0 := rfl

/-- An element not written since the reset that left the free values from draw d on (R41). -/
@[simp] theorem Memory.read_unwritten (d k : Nat) : (Memory.unwritten d).read k = Config.freeByte (d + k) := rfl

@[simp] theorem Memory.fill_write (m : Memory) (k : Nat) (b : Byte) : (m.write k b).fill = m.fill := rfl

theorem Memory.wf_zeros : Memory.zeros.wf := wfCells_nil _
theorem Memory.wf_unwritten (d : Nat) : (Memory.unwritten d).wf := wfCells_nil _

/-- Every pair a write leaves is the written one or was listed before. -/
theorem Memory.mem_write {m : Memory} {k : Nat} {b : Byte} {c : Host.Cell} (h : c ∈ (m.write k b).cells) :
    c = (k, b) ∨ c ∈ m.cells := mem_writeCells h

/-- A write keeps the canonical form. -/
theorem Memory.write_wf {m : Memory} (hm : m.wf) (k : Nat) (b : Byte) : (m.write k b).wf := writeCells_wf hm k b

/-- What a write leaves to read. -/
theorem Memory.read_write {m : Memory} (hm : m.wf) (k : Nat) (b : Byte) (a : Nat) :
    (m.write k b).read a = if a = k then b else m.read a := readCells_writeCells hm k b a

theorem Memory.read_write_same {m : Memory} (hm : m.wf) (k : Nat) (b : Byte) : (m.write k b).read k = b := by
  rw [Memory.read_write hm, if_pos rfl]

theorem Memory.read_write_other {m : Memory} (hm : m.wf) {k a : Nat} (h : a ≠ k) (b : Byte) :
    (m.write k b).read a = m.read a := by
  rw [Memory.read_write hm, if_neg h]

/-- Writing consecutive elements keeps the canonical form. -/
theorem Memory.writeAll_wf {m : Memory} (hm : m.wf) (k : Nat) (bs : List Byte) : (m.writeAll k bs).wf := by
  induction bs generalizing m k with
  | nil => exact hm
  | cons b bs ih => exact ih (Memory.write_wf hm k b) (k + 1)

/-- What writing consecutive elements leaves to read: the bytes written at their places, and every other element as
before. -/
theorem Memory.read_writeAll {m : Memory} (hm : m.wf) (k : Nat) (bs : List Byte) (a : Nat) :
    (m.writeAll k bs).read a = if k ≤ a ∧ a < k + bs.length then bs.getD (a - k) 0 else m.read a := by
  induction bs generalizing m k with
  | nil => simp [Memory.writeAll]
  | cons b bs ih =>
    rw [Memory.writeAll, ih (Memory.write_wf hm k b), Memory.read_write hm]
    simp only [List.length_cons]
    by_cases hak : a = k
    · subst hak
      simp
    · by_cases h : k + 1 ≤ a ∧ a < k + 1 + bs.length
      · have h2 : k ≤ a ∧ a < k + (bs.length + 1) := by omega
        rw [if_pos h, if_pos h2]
        obtain ⟨d, rfl⟩ : ∃ d, a = k + 1 + d := ⟨a - (k + 1), by omega⟩
        rw [show k + 1 + d - (k + 1) = d by omega, show k + 1 + d - k = d + 1 by omega]
        simp
      · have h2 : ¬(k ≤ a ∧ a < k + (bs.length + 1)) := by omega
        rw [if_neg h, if_neg h2, if_neg hak]

/-- Every index listed after writing consecutive elements was written or was listed before. -/
theorem Memory.mem_writeAll {m : Memory} {k : Nat} {bs : List Byte} {c : Host.Cell} (h : c ∈ (m.writeAll k bs).cells) :
    (k ≤ c.1 ∧ c.1 < k + bs.length) ∨ c ∈ m.cells := by
  induction bs generalizing m k with
  | nil => exact .inr h
  | cons b bs ih =>
    rcases ih h with h | h
    · left; simp only [List.length_cons]; omega
    · rcases Memory.mem_write h with rfl | h
      · left; simp
      · exact .inr h

/-- Every index `ofBytes` lists lies in its range. -/
theorem Memory.mem_ofBytes {k : Nat} {bs : List Byte} {c : Host.Cell} (h : c ∈ (Memory.ofBytes k bs).cells) :
    k ≤ c.1 ∧ c.1 < k + bs.length := by
  change c ∈ cellsOf k bs at h
  induction bs generalizing k with
  | nil => simp [cellsOf] at h
  | cons b bs ih =>
    simp only [cellsOf] at h
    simp only [List.length_cons]
    split at h
    · have := ih h; omega
    · rcases List.mem_cons.1 h with rfl | h
      · simp
      · have := ih h; omega

/-- An array made from a list of elements is in canonical form. -/
theorem Memory.ofBytes_wf (k : Nat) (bs : List Byte) : (Memory.ofBytes k bs).wf := by
  show WfCells .zero (cellsOf k bs)
  induction bs generalizing k with
  | nil => exact wfCells_nil _
  | cons b bs ih =>
    simp only [cellsOf]
    split
    · exact ih (k + 1)
    · next hb =>
      refine wfCells_cons.2 ⟨fun c hc => ?_, fun h => hb (Option.some.inj h).symm, ih (k + 1)⟩
      have := Memory.mem_ofBytes (k := k + 1) hc; omega

/-- What an array made from a list of elements reads as. -/
theorem Memory.read_ofBytes (k : Nat) (bs : List Byte) (a : Nat) :
    (Memory.ofBytes k bs).read a = if k ≤ a ∧ a < k + bs.length then bs.getD (a - k) 0 else 0 := by
  induction bs generalizing k with
  | nil => simp only [List.getD_nil, ite_self]; rfl
  | cons b bs ih =>
    have key : (Memory.ofBytes k (b :: bs)).read a = if a = k then b else (Memory.ofBytes (k + 1) bs).read a := by
      simp only [Memory.read, Memory.ofBytes, cellsOf]
      split
      · next hb =>
        split
        · next hak =>
          rw [hak, hb]
          exact readCells_of_lt_all _ fun c hc => by have := Memory.mem_ofBytes (k := k + 1) hc; omega
        · rfl
      · rfl
    rw [key, ih]
    simp only [List.length_cons]
    by_cases hak : a = k
    · subst hak; simp
    · by_cases h : k + 1 ≤ a ∧ a < k + 1 + bs.length
      · have h2 : k ≤ a ∧ a < k + (bs.length + 1) := by omega
        rw [if_neg hak, if_pos h, if_pos h2]
        obtain ⟨d, rfl⟩ : ∃ d, a = k + 1 + d := ⟨a - (k + 1), by omega⟩
        rw [show k + 1 + d - (k + 1) = d by omega, show k + 1 + d - k = d + 1 by omega]
        simp
      · have h2 : ¬(k ≤ a ∧ a < k + (bs.length + 1)) := by omega
        rw [if_neg hak, if_neg h, if_neg h2]

@[simp] theorem Memory.length_bytes (m : Memory) (k n : Nat) : (m.bytes k n).length = n := by
  simp [Memory.bytes]

/-- Element i of a range of an array. -/
theorem Memory.getD_bytes (m : Memory) (k n i : Nat) :
    (m.bytes k n).getD i 0 = if i < n then m.read (k + i) else 0 := by
  simp only [Memory.bytes, List.getD_eq_getElem?_getD, List.getElem?_map]
  by_cases h : i < n
  · simp [h]
  · simp [h]

/-- The XOR sum over one more index. -/
theorem xorSum_succ (n : Nat) (f : Nat → Byte) : xorSum (n + 1) f = xorSum n f ^^^ f n := by
  simp [xorSum, List.range_succ]

@[simp] theorem xorSum_zero (f : Nat → Byte) : xorSum 0 f = 0 := rfl

/-- The XOR sum of equal terms. -/
theorem xorSum_congr {n : Nat} {f g : Nat → Byte} (h : ∀ i < n, f i = g i) : xorSum n f = xorSum n g := by
  induction n with
  | zero => rfl
  | succ n ih => rw [xorSum_succ, xorSum_succ, ih fun i hi => h i (by omega), h n (by omega)]

end Sys2Proof.Machine
end

