-- ==== Sys2Proof/Laws/State.lean ====
section
/-!
SUPPORT. One lemma per field per named update of State, each true by rfl, so that no proof unfolds a record update.
-/

namespace Sys2Proof.Machine

/-! ### setPoly -/

@[simp] theorem State.setPoly_config (s : State) (p : PIdx) (v : Poly) : (s.setPoly p v).config = s.config := rfl
@[simp] theorem State.setPoly_nparReq (s : State) (p : PIdx) (v : Poly) : (s.setPoly p v).nparReq = s.nparReq := rfl
@[simp] theorem State.setPoly_nparAct (s : State) (p : PIdx) (v : Poly) : (s.setPoly p v).nparAct = s.nparAct := rfl
@[simp] theorem State.setPoly_initDone (s : State) (p : PIdx) (v : Poly) : (s.setPoly p v).initDone = s.initDone := rfl
@[simp] theorem State.setPoly_clean (s : State) (p : PIdx) (v : Poly) : (s.setPoly p v).clean = s.clean := rfl
@[simp] theorem State.setPoly_outcome (s : State) (p : PIdx) (v : Poly) : (s.setPoly p v).outcome = s.outcome := rfl
@[simp] theorem State.setPoly_failCause (s : State) (p : PIdx) (v : Poly) : (s.setPoly p v).failCause = s.failCause := rfl
@[simp] theorem State.setPoly_errors (s : State) (p : PIdx) (v : Poly) : (s.setPoly p v).errors = s.errors := rfl
@[simp] theorem State.setPoly_errInfo (s : State) (p : PIdx) (v : Poly) : (s.setPoly p v).errInfo = s.errInfo := rfl
@[simp] theorem State.setPoly_errCmd (s : State) (p : PIdx) (v : Poly) : (s.setPoly p v).errCmd = s.errCmd := rfl
@[simp] theorem State.setPoly_result (s : State) (p : PIdx) (v : Poly) : (s.setPoly p v).result = s.result := rfl
@[simp] theorem State.setPoly_len (s : State) (p : PIdx) (v : Poly) : (s.setPoly p v).len = s.len := rfl
@[simp] theorem State.setPoly_ecnt (s : State) (p : PIdx) (v : Poly) : (s.setPoly p v).ecnt = s.ecnt := rfl
@[simp] theorem State.setPoly_nerr (s : State) (p : PIdx) (v : Poly) : (s.setPoly p v).nerr = s.nerr := rfl
@[simp] theorem State.setPoly_bmL (s : State) (p : PIdx) (v : Poly) : (s.setPoly p v).bmL = s.bmL := rfl
@[simp] theorem State.setPoly_polys (s : State) (p : PIdx) (v : Poly) : (s.setPoly p v).polys = s.polys.writeAll (polySlot p.toNat 0) v := rfl
@[simp] theorem State.setPoly_cw (s : State) (p : PIdx) (v : Poly) : (s.setPoly p v).cw = s.cw := rfl
@[simp] theorem State.setPoly_era (s : State) (p : PIdx) (v : Poly) : (s.setPoly p v).era = s.era := rfl
@[simp] theorem State.setPoly_errloc (s : State) (p : PIdx) (v : Poly) : (s.setPoly p v).errloc = s.errloc := rfl
@[simp] theorem State.setPoly_tables (s : State) (p : PIdx) (v : Poly) : (s.setPoly p v).tables = s.tables := rfl
@[simp] theorem State.setPoly_pending (s : State) (p : PIdx) (v : Poly) : (s.setPoly p v).pending = s.pending := rfl
@[simp] theorem State.setPoly_scratch (s : State) (p : PIdx) (v : Poly) : (s.setPoly p v).scratch = s.scratch := rfl
@[simp] theorem State.setPoly_resetAsserted (s : State) (p : PIdx) (v : Poly) : (s.setPoly p v).resetAsserted = s.resetAsserted := rfl
@[simp] theorem State.setPoly_inputs (s : State) (p : PIdx) (v : Poly) : (s.setPoly p v).inputs = s.inputs := rfl
@[simp] theorem State.setPoly_reads (s : State) (p : PIdx) (v : Poly) : (s.setPoly p v).reads = s.reads := rfl
@[simp] theorem State.setPoly_engineWait (s : State) (p : PIdx) (v : Poly) : (s.setPoly p v).engineWait = s.engineWait := rfl
@[simp] theorem State.setPoly_delays (s : State) (p : PIdx) (v : Poly) : (s.setPoly p v).delays = s.delays := rfl
@[simp] theorem State.setPoly_draws (s : State) (p : PIdx) (v : Poly) : (s.setPoly p v).draws = s.draws := rfl

/-! ### setCw -/

@[simp] theorem State.setCw_config (s : State) (t : Nat) (bs : List Byte) : (s.setCw t bs).config = s.config := rfl
@[simp] theorem State.setCw_nparReq (s : State) (t : Nat) (bs : List Byte) : (s.setCw t bs).nparReq = s.nparReq := rfl
@[simp] theorem State.setCw_nparAct (s : State) (t : Nat) (bs : List Byte) : (s.setCw t bs).nparAct = s.nparAct := rfl
@[simp] theorem State.setCw_initDone (s : State) (t : Nat) (bs : List Byte) : (s.setCw t bs).initDone = s.initDone := rfl
@[simp] theorem State.setCw_clean (s : State) (t : Nat) (bs : List Byte) : (s.setCw t bs).clean = s.clean := rfl
@[simp] theorem State.setCw_outcome (s : State) (t : Nat) (bs : List Byte) : (s.setCw t bs).outcome = s.outcome := rfl
@[simp] theorem State.setCw_failCause (s : State) (t : Nat) (bs : List Byte) : (s.setCw t bs).failCause = s.failCause := rfl
@[simp] theorem State.setCw_errors (s : State) (t : Nat) (bs : List Byte) : (s.setCw t bs).errors = s.errors := rfl
@[simp] theorem State.setCw_errInfo (s : State) (t : Nat) (bs : List Byte) : (s.setCw t bs).errInfo = s.errInfo := rfl
@[simp] theorem State.setCw_errCmd (s : State) (t : Nat) (bs : List Byte) : (s.setCw t bs).errCmd = s.errCmd := rfl
@[simp] theorem State.setCw_result (s : State) (t : Nat) (bs : List Byte) : (s.setCw t bs).result = s.result := rfl
@[simp] theorem State.setCw_len (s : State) (t : Nat) (bs : List Byte) : (s.setCw t bs).len = s.len := rfl
@[simp] theorem State.setCw_ecnt (s : State) (t : Nat) (bs : List Byte) : (s.setCw t bs).ecnt = s.ecnt := rfl
@[simp] theorem State.setCw_nerr (s : State) (t : Nat) (bs : List Byte) : (s.setCw t bs).nerr = s.nerr := rfl
@[simp] theorem State.setCw_bmL (s : State) (t : Nat) (bs : List Byte) : (s.setCw t bs).bmL = s.bmL := rfl
@[simp] theorem State.setCw_polys (s : State) (t : Nat) (bs : List Byte) : (s.setCw t bs).polys = s.polys := rfl
@[simp] theorem State.setCw_cw (s : State) (t : Nat) (bs : List Byte) : (s.setCw t bs).cw = s.cw.writeAll t bs := rfl
@[simp] theorem State.setCw_era (s : State) (t : Nat) (bs : List Byte) : (s.setCw t bs).era = s.era := rfl
@[simp] theorem State.setCw_errloc (s : State) (t : Nat) (bs : List Byte) : (s.setCw t bs).errloc = s.errloc := rfl
@[simp] theorem State.setCw_tables (s : State) (t : Nat) (bs : List Byte) : (s.setCw t bs).tables = s.tables := rfl
@[simp] theorem State.setCw_pending (s : State) (t : Nat) (bs : List Byte) : (s.setCw t bs).pending = s.pending := rfl
@[simp] theorem State.setCw_scratch (s : State) (t : Nat) (bs : List Byte) : (s.setCw t bs).scratch = s.scratch := rfl
@[simp] theorem State.setCw_resetAsserted (s : State) (t : Nat) (bs : List Byte) : (s.setCw t bs).resetAsserted = s.resetAsserted := rfl
@[simp] theorem State.setCw_inputs (s : State) (t : Nat) (bs : List Byte) : (s.setCw t bs).inputs = s.inputs := rfl
@[simp] theorem State.setCw_reads (s : State) (t : Nat) (bs : List Byte) : (s.setCw t bs).reads = s.reads := rfl
@[simp] theorem State.setCw_engineWait (s : State) (t : Nat) (bs : List Byte) : (s.setCw t bs).engineWait = s.engineWait := rfl
@[simp] theorem State.setCw_delays (s : State) (t : Nat) (bs : List Byte) : (s.setCw t bs).delays = s.delays := rfl
@[simp] theorem State.setCw_draws (s : State) (t : Nat) (bs : List Byte) : (s.setCw t bs).draws = s.draws := rfl

/-! ### setErrloc -/

@[simp] theorem State.setErrloc_config (s : State) (locs : List Byte) : (s.setErrloc locs).config = s.config := rfl
@[simp] theorem State.setErrloc_nparReq (s : State) (locs : List Byte) : (s.setErrloc locs).nparReq = s.nparReq := rfl
@[simp] theorem State.setErrloc_nparAct (s : State) (locs : List Byte) : (s.setErrloc locs).nparAct = s.nparAct := rfl
@[simp] theorem State.setErrloc_initDone (s : State) (locs : List Byte) : (s.setErrloc locs).initDone = s.initDone := rfl
@[simp] theorem State.setErrloc_clean (s : State) (locs : List Byte) : (s.setErrloc locs).clean = s.clean := rfl
@[simp] theorem State.setErrloc_outcome (s : State) (locs : List Byte) : (s.setErrloc locs).outcome = s.outcome := rfl
@[simp] theorem State.setErrloc_failCause (s : State) (locs : List Byte) : (s.setErrloc locs).failCause = s.failCause := rfl
@[simp] theorem State.setErrloc_errors (s : State) (locs : List Byte) : (s.setErrloc locs).errors = s.errors := rfl
@[simp] theorem State.setErrloc_errInfo (s : State) (locs : List Byte) : (s.setErrloc locs).errInfo = s.errInfo := rfl
@[simp] theorem State.setErrloc_errCmd (s : State) (locs : List Byte) : (s.setErrloc locs).errCmd = s.errCmd := rfl
@[simp] theorem State.setErrloc_result (s : State) (locs : List Byte) : (s.setErrloc locs).result = s.result := rfl
@[simp] theorem State.setErrloc_len (s : State) (locs : List Byte) : (s.setErrloc locs).len = s.len := rfl
@[simp] theorem State.setErrloc_ecnt (s : State) (locs : List Byte) : (s.setErrloc locs).ecnt = s.ecnt := rfl
@[simp] theorem State.setErrloc_nerr (s : State) (locs : List Byte) : (s.setErrloc locs).nerr = s.nerr := rfl
@[simp] theorem State.setErrloc_bmL (s : State) (locs : List Byte) : (s.setErrloc locs).bmL = s.bmL := rfl
@[simp] theorem State.setErrloc_polys (s : State) (locs : List Byte) : (s.setErrloc locs).polys = s.polys := rfl
@[simp] theorem State.setErrloc_cw (s : State) (locs : List Byte) : (s.setErrloc locs).cw = s.cw := rfl
@[simp] theorem State.setErrloc_era (s : State) (locs : List Byte) : (s.setErrloc locs).era = s.era := rfl
@[simp] theorem State.setErrloc_errloc (s : State) (locs : List Byte) : (s.setErrloc locs).errloc = Memory.ofBytes 0 locs := rfl
@[simp] theorem State.setErrloc_tables (s : State) (locs : List Byte) : (s.setErrloc locs).tables = s.tables := rfl
@[simp] theorem State.setErrloc_pending (s : State) (locs : List Byte) : (s.setErrloc locs).pending = s.pending := rfl
@[simp] theorem State.setErrloc_scratch (s : State) (locs : List Byte) : (s.setErrloc locs).scratch = s.scratch := rfl
@[simp] theorem State.setErrloc_resetAsserted (s : State) (locs : List Byte) : (s.setErrloc locs).resetAsserted = s.resetAsserted := rfl
@[simp] theorem State.setErrloc_inputs (s : State) (locs : List Byte) : (s.setErrloc locs).inputs = s.inputs := rfl
@[simp] theorem State.setErrloc_reads (s : State) (locs : List Byte) : (s.setErrloc locs).reads = s.reads := rfl
@[simp] theorem State.setErrloc_engineWait (s : State) (locs : List Byte) : (s.setErrloc locs).engineWait = s.engineWait := rfl
@[simp] theorem State.setErrloc_delays (s : State) (locs : List Byte) : (s.setErrloc locs).delays = s.delays := rfl
@[simp] theorem State.setErrloc_draws (s : State) (locs : List Byte) : (s.setErrloc locs).draws = s.draws := rfl

/-! ### reject -/

@[simp] theorem State.reject_config (s : State) (c : EventCode) (v : Word) : (s.reject c v).config = s.config := rfl
@[simp] theorem State.reject_nparReq (s : State) (c : EventCode) (v : Word) : (s.reject c v).nparReq = s.nparReq := rfl
@[simp] theorem State.reject_nparAct (s : State) (c : EventCode) (v : Word) : (s.reject c v).nparAct = s.nparAct := rfl
@[simp] theorem State.reject_initDone (s : State) (c : EventCode) (v : Word) : (s.reject c v).initDone = s.initDone := rfl
@[simp] theorem State.reject_clean (s : State) (c : EventCode) (v : Word) : (s.reject c v).clean = s.clean := rfl
@[simp] theorem State.reject_outcome (s : State) (c : EventCode) (v : Word) : (s.reject c v).outcome = s.outcome := rfl
@[simp] theorem State.reject_failCause (s : State) (c : EventCode) (v : Word) : (s.reject c v).failCause = s.failCause := rfl
@[simp] theorem State.reject_errors (s : State) (c : EventCode) (v : Word) : (s.reject c v).errors = s.errors.set c := rfl
@[simp] theorem State.reject_errInfo (s : State) (c : EventCode) (v : Word) : (s.reject c v).errInfo = c := rfl
@[simp] theorem State.reject_errCmd (s : State) (c : EventCode) (v : Word) : (s.reject c v).errCmd = v := rfl
@[simp] theorem State.reject_result (s : State) (c : EventCode) (v : Word) : (s.reject c v).result = s.result := rfl
@[simp] theorem State.reject_len (s : State) (c : EventCode) (v : Word) : (s.reject c v).len = s.len := rfl
@[simp] theorem State.reject_ecnt (s : State) (c : EventCode) (v : Word) : (s.reject c v).ecnt = s.ecnt := rfl
@[simp] theorem State.reject_nerr (s : State) (c : EventCode) (v : Word) : (s.reject c v).nerr = s.nerr := rfl
@[simp] theorem State.reject_bmL (s : State) (c : EventCode) (v : Word) : (s.reject c v).bmL = s.bmL := rfl
@[simp] theorem State.reject_polys (s : State) (c : EventCode) (v : Word) : (s.reject c v).polys = s.polys := rfl
@[simp] theorem State.reject_cw (s : State) (c : EventCode) (v : Word) : (s.reject c v).cw = s.cw := rfl
@[simp] theorem State.reject_era (s : State) (c : EventCode) (v : Word) : (s.reject c v).era = s.era := rfl
@[simp] theorem State.reject_errloc (s : State) (c : EventCode) (v : Word) : (s.reject c v).errloc = s.errloc := rfl
@[simp] theorem State.reject_tables (s : State) (c : EventCode) (v : Word) : (s.reject c v).tables = s.tables := rfl
@[simp] theorem State.reject_pending (s : State) (c : EventCode) (v : Word) : (s.reject c v).pending = s.pending := rfl
@[simp] theorem State.reject_scratch (s : State) (c : EventCode) (v : Word) : (s.reject c v).scratch = s.scratch := rfl
@[simp] theorem State.reject_resetAsserted (s : State) (c : EventCode) (v : Word) : (s.reject c v).resetAsserted = s.resetAsserted := rfl
@[simp] theorem State.reject_inputs (s : State) (c : EventCode) (v : Word) : (s.reject c v).inputs = s.inputs := rfl
@[simp] theorem State.reject_reads (s : State) (c : EventCode) (v : Word) : (s.reject c v).reads = s.reads := rfl
@[simp] theorem State.reject_engineWait (s : State) (c : EventCode) (v : Word) : (s.reject c v).engineWait = s.engineWait := rfl
@[simp] theorem State.reject_delays (s : State) (c : EventCode) (v : Word) : (s.reject c v).delays = s.delays := rfl
@[simp] theorem State.reject_draws (s : State) (c : EventCode) (v : Word) : (s.reject c v).draws = s.draws := rfl

/-! ### warnZdiv -/

@[simp] theorem State.warnZdiv_config (s : State) (v : Word) : (s.warnZdiv v).config = s.config := rfl
@[simp] theorem State.warnZdiv_nparReq (s : State) (v : Word) : (s.warnZdiv v).nparReq = s.nparReq := rfl
@[simp] theorem State.warnZdiv_nparAct (s : State) (v : Word) : (s.warnZdiv v).nparAct = s.nparAct := rfl
@[simp] theorem State.warnZdiv_initDone (s : State) (v : Word) : (s.warnZdiv v).initDone = s.initDone := rfl
@[simp] theorem State.warnZdiv_clean (s : State) (v : Word) : (s.warnZdiv v).clean = s.clean := rfl
@[simp] theorem State.warnZdiv_outcome (s : State) (v : Word) : (s.warnZdiv v).outcome = s.outcome := rfl
@[simp] theorem State.warnZdiv_failCause (s : State) (v : Word) : (s.warnZdiv v).failCause = s.failCause := rfl
@[simp] theorem State.warnZdiv_errors (s : State) (v : Word) : (s.warnZdiv v).errors = s.errors.set .zdiv := rfl
@[simp] theorem State.warnZdiv_errInfo (s : State) (v : Word) : (s.warnZdiv v).errInfo = .zdiv := rfl
@[simp] theorem State.warnZdiv_errCmd (s : State) (v : Word) : (s.warnZdiv v).errCmd = v := rfl
@[simp] theorem State.warnZdiv_result (s : State) (v : Word) : (s.warnZdiv v).result = s.result := rfl
@[simp] theorem State.warnZdiv_len (s : State) (v : Word) : (s.warnZdiv v).len = s.len := rfl
@[simp] theorem State.warnZdiv_ecnt (s : State) (v : Word) : (s.warnZdiv v).ecnt = s.ecnt := rfl
@[simp] theorem State.warnZdiv_nerr (s : State) (v : Word) : (s.warnZdiv v).nerr = s.nerr := rfl
@[simp] theorem State.warnZdiv_bmL (s : State) (v : Word) : (s.warnZdiv v).bmL = s.bmL := rfl
@[simp] theorem State.warnZdiv_polys (s : State) (v : Word) : (s.warnZdiv v).polys = s.polys := rfl
@[simp] theorem State.warnZdiv_cw (s : State) (v : Word) : (s.warnZdiv v).cw = s.cw := rfl
@[simp] theorem State.warnZdiv_era (s : State) (v : Word) : (s.warnZdiv v).era = s.era := rfl
@[simp] theorem State.warnZdiv_errloc (s : State) (v : Word) : (s.warnZdiv v).errloc = s.errloc := rfl
@[simp] theorem State.warnZdiv_tables (s : State) (v : Word) : (s.warnZdiv v).tables = s.tables := rfl
@[simp] theorem State.warnZdiv_pending (s : State) (v : Word) : (s.warnZdiv v).pending = s.pending := rfl
@[simp] theorem State.warnZdiv_scratch (s : State) (v : Word) : (s.warnZdiv v).scratch = s.scratch := rfl
@[simp] theorem State.warnZdiv_resetAsserted (s : State) (v : Word) : (s.warnZdiv v).resetAsserted = s.resetAsserted := rfl
@[simp] theorem State.warnZdiv_inputs (s : State) (v : Word) : (s.warnZdiv v).inputs = s.inputs := rfl
@[simp] theorem State.warnZdiv_reads (s : State) (v : Word) : (s.warnZdiv v).reads = s.reads := rfl
@[simp] theorem State.warnZdiv_engineWait (s : State) (v : Word) : (s.warnZdiv v).engineWait = s.engineWait := rfl
@[simp] theorem State.warnZdiv_delays (s : State) (v : Word) : (s.warnZdiv v).delays = s.delays := rfl
@[simp] theorem State.warnZdiv_draws (s : State) (v : Word) : (s.warnZdiv v).draws = s.draws := rfl

/-! ### dropWrite -/

@[simp] theorem State.dropWrite_config (s : State) : (s.dropWrite).config = s.config := rfl
@[simp] theorem State.dropWrite_nparReq (s : State) : (s.dropWrite).nparReq = s.nparReq := rfl
@[simp] theorem State.dropWrite_nparAct (s : State) : (s.dropWrite).nparAct = s.nparAct := rfl
@[simp] theorem State.dropWrite_initDone (s : State) : (s.dropWrite).initDone = s.initDone := rfl
@[simp] theorem State.dropWrite_clean (s : State) : (s.dropWrite).clean = s.clean := rfl
@[simp] theorem State.dropWrite_outcome (s : State) : (s.dropWrite).outcome = s.outcome := rfl
@[simp] theorem State.dropWrite_failCause (s : State) : (s.dropWrite).failCause = s.failCause := rfl
@[simp] theorem State.dropWrite_errors (s : State) : (s.dropWrite).errors = s.errors.set .busy := rfl
@[simp] theorem State.dropWrite_errInfo (s : State) : (s.dropWrite).errInfo = s.errInfo := rfl
@[simp] theorem State.dropWrite_errCmd (s : State) : (s.dropWrite).errCmd = s.errCmd := rfl
@[simp] theorem State.dropWrite_result (s : State) : (s.dropWrite).result = s.result := rfl
@[simp] theorem State.dropWrite_len (s : State) : (s.dropWrite).len = s.len := rfl
@[simp] theorem State.dropWrite_ecnt (s : State) : (s.dropWrite).ecnt = s.ecnt := rfl
@[simp] theorem State.dropWrite_nerr (s : State) : (s.dropWrite).nerr = s.nerr := rfl
@[simp] theorem State.dropWrite_bmL (s : State) : (s.dropWrite).bmL = s.bmL := rfl
@[simp] theorem State.dropWrite_polys (s : State) : (s.dropWrite).polys = s.polys := rfl
@[simp] theorem State.dropWrite_cw (s : State) : (s.dropWrite).cw = s.cw := rfl
@[simp] theorem State.dropWrite_era (s : State) : (s.dropWrite).era = s.era := rfl
@[simp] theorem State.dropWrite_errloc (s : State) : (s.dropWrite).errloc = s.errloc := rfl
@[simp] theorem State.dropWrite_tables (s : State) : (s.dropWrite).tables = s.tables := rfl
@[simp] theorem State.dropWrite_pending (s : State) : (s.dropWrite).pending = s.pending := rfl
@[simp] theorem State.dropWrite_scratch (s : State) : (s.dropWrite).scratch = s.scratch := rfl
@[simp] theorem State.dropWrite_resetAsserted (s : State) : (s.dropWrite).resetAsserted = s.resetAsserted := rfl
@[simp] theorem State.dropWrite_inputs (s : State) : (s.dropWrite).inputs = s.inputs := rfl
@[simp] theorem State.dropWrite_reads (s : State) : (s.dropWrite).reads = s.reads := rfl
@[simp] theorem State.dropWrite_engineWait (s : State) : (s.dropWrite).engineWait = s.engineWait := rfl
@[simp] theorem State.dropWrite_delays (s : State) : (s.dropWrite).delays = s.delays := rfl
@[simp] theorem State.dropWrite_draws (s : State) : (s.dropWrite).draws = s.draws := rfl

/-! ### acknowledge -/

@[simp] theorem State.acknowledge_config (s : State) (w : Word) : (s.acknowledge w).config = s.config := rfl
@[simp] theorem State.acknowledge_nparReq (s : State) (w : Word) : (s.acknowledge w).nparReq = s.nparReq := rfl
@[simp] theorem State.acknowledge_nparAct (s : State) (w : Word) : (s.acknowledge w).nparAct = s.nparAct := rfl
@[simp] theorem State.acknowledge_initDone (s : State) (w : Word) : (s.acknowledge w).initDone = s.initDone := rfl
@[simp] theorem State.acknowledge_clean (s : State) (w : Word) : (s.acknowledge w).clean = s.clean := rfl
@[simp] theorem State.acknowledge_outcome (s : State) (w : Word) : (s.acknowledge w).outcome = s.outcome := rfl
@[simp] theorem State.acknowledge_failCause (s : State) (w : Word) : (s.acknowledge w).failCause = s.failCause := rfl
@[simp] theorem State.acknowledge_errors (s : State) (w : Word) : (s.acknowledge w).errors = s.errors.writeOneToClear w := rfl
@[simp] theorem State.acknowledge_errInfo (s : State) (w : Word) : (s.acknowledge w).errInfo = s.errInfo := rfl
@[simp] theorem State.acknowledge_errCmd (s : State) (w : Word) : (s.acknowledge w).errCmd = s.errCmd := rfl
@[simp] theorem State.acknowledge_result (s : State) (w : Word) : (s.acknowledge w).result = s.result := rfl
@[simp] theorem State.acknowledge_len (s : State) (w : Word) : (s.acknowledge w).len = s.len := rfl
@[simp] theorem State.acknowledge_ecnt (s : State) (w : Word) : (s.acknowledge w).ecnt = s.ecnt := rfl
@[simp] theorem State.acknowledge_nerr (s : State) (w : Word) : (s.acknowledge w).nerr = s.nerr := rfl
@[simp] theorem State.acknowledge_bmL (s : State) (w : Word) : (s.acknowledge w).bmL = s.bmL := rfl
@[simp] theorem State.acknowledge_polys (s : State) (w : Word) : (s.acknowledge w).polys = s.polys := rfl
@[simp] theorem State.acknowledge_cw (s : State) (w : Word) : (s.acknowledge w).cw = s.cw := rfl
@[simp] theorem State.acknowledge_era (s : State) (w : Word) : (s.acknowledge w).era = s.era := rfl
@[simp] theorem State.acknowledge_errloc (s : State) (w : Word) : (s.acknowledge w).errloc = s.errloc := rfl
@[simp] theorem State.acknowledge_tables (s : State) (w : Word) : (s.acknowledge w).tables = s.tables := rfl
@[simp] theorem State.acknowledge_pending (s : State) (w : Word) : (s.acknowledge w).pending = s.pending := rfl
@[simp] theorem State.acknowledge_scratch (s : State) (w : Word) : (s.acknowledge w).scratch = s.scratch := rfl
@[simp] theorem State.acknowledge_resetAsserted (s : State) (w : Word) : (s.acknowledge w).resetAsserted = s.resetAsserted := rfl
@[simp] theorem State.acknowledge_inputs (s : State) (w : Word) : (s.acknowledge w).inputs = s.inputs := rfl
@[simp] theorem State.acknowledge_reads (s : State) (w : Word) : (s.acknowledge w).reads = s.reads := rfl
@[simp] theorem State.acknowledge_engineWait (s : State) (w : Word) : (s.acknowledge w).engineWait = s.engineWait := rfl
@[simp] theorem State.acknowledge_delays (s : State) (w : Word) : (s.acknowledge w).delays = s.delays := rfl
@[simp] theorem State.acknowledge_draws (s : State) (w : Word) : (s.acknowledge w).draws = s.draws := rfl

/-! ### accept -/

@[simp] theorem State.accept_config (s : State) (v : Word) : (s.accept v).config = s.config := rfl
@[simp] theorem State.accept_nparReq (s : State) (v : Word) : (s.accept v).nparReq = s.nparReq := rfl
@[simp] theorem State.accept_nparAct (s : State) (v : Word) : (s.accept v).nparAct = s.nparAct := rfl
@[simp] theorem State.accept_initDone (s : State) (v : Word) : (s.accept v).initDone = s.initDone := rfl
@[simp] theorem State.accept_clean (s : State) (v : Word) : (s.accept v).clean = s.clean := rfl
@[simp] theorem State.accept_outcome (s : State) (v : Word) : (s.accept v).outcome = s.outcome := rfl
@[simp] theorem State.accept_failCause (s : State) (v : Word) : (s.accept v).failCause = s.failCause := rfl
@[simp] theorem State.accept_errors (s : State) (v : Word) : (s.accept v).errors = s.errors := rfl
@[simp] theorem State.accept_errInfo (s : State) (v : Word) : (s.accept v).errInfo = s.errInfo := rfl
@[simp] theorem State.accept_errCmd (s : State) (v : Word) : (s.accept v).errCmd = s.errCmd := rfl
@[simp] theorem State.accept_result (s : State) (v : Word) : (s.accept v).result = s.result := rfl
@[simp] theorem State.accept_len (s : State) (v : Word) : (s.accept v).len = s.len := rfl
@[simp] theorem State.accept_ecnt (s : State) (v : Word) : (s.accept v).ecnt = s.ecnt := rfl
@[simp] theorem State.accept_nerr (s : State) (v : Word) : (s.accept v).nerr = s.nerr := rfl
@[simp] theorem State.accept_bmL (s : State) (v : Word) : (s.accept v).bmL = s.bmL := rfl
@[simp] theorem State.accept_polys (s : State) (v : Word) : (s.accept v).polys = s.polys := rfl
@[simp] theorem State.accept_cw (s : State) (v : Word) : (s.accept v).cw = s.cw := rfl
@[simp] theorem State.accept_era (s : State) (v : Word) : (s.accept v).era = s.era := rfl
@[simp] theorem State.accept_errloc (s : State) (v : Word) : (s.accept v).errloc = s.errloc := rfl
@[simp] theorem State.accept_tables (s : State) (v : Word) : (s.accept v).tables = s.tables := rfl
@[simp] theorem State.accept_pending (s : State) (v : Word) : (s.accept v).pending = some v := rfl
@[simp] theorem State.accept_scratch (s : State) (v : Word) : (s.accept v).scratch = s.scratch := rfl
@[simp] theorem State.accept_resetAsserted (s : State) (v : Word) : (s.accept v).resetAsserted = s.resetAsserted := rfl
@[simp] theorem State.accept_inputs (s : State) (v : Word) : (s.accept v).inputs = s.inputs := rfl
@[simp] theorem State.accept_reads (s : State) (v : Word) : (s.accept v).reads = s.reads := rfl
@[simp] theorem State.accept_engineWait (s : State) (v : Word) : (s.accept v).engineWait = s.delays.headD 0 := rfl
@[simp] theorem State.accept_delays (s : State) (v : Word) : (s.accept v).delays = s.delays.tail := rfl
@[simp] theorem State.accept_draws (s : State) (v : Word) : (s.accept v).draws = s.draws := rfl

/-! ### complete -/

@[simp] theorem State.complete_config (s : State) : (s.complete).config = s.config := rfl
@[simp] theorem State.complete_nparReq (s : State) : (s.complete).nparReq = s.nparReq := rfl
@[simp] theorem State.complete_nparAct (s : State) : (s.complete).nparAct = s.nparAct := rfl
@[simp] theorem State.complete_initDone (s : State) : (s.complete).initDone = s.initDone := rfl
@[simp] theorem State.complete_clean (s : State) : (s.complete).clean = s.clean := rfl
@[simp] theorem State.complete_outcome (s : State) : (s.complete).outcome = s.outcome := rfl
@[simp] theorem State.complete_failCause (s : State) : (s.complete).failCause = s.failCause := rfl
@[simp] theorem State.complete_errors (s : State) : (s.complete).errors = s.errors := rfl
@[simp] theorem State.complete_errInfo (s : State) : (s.complete).errInfo = s.errInfo := rfl
@[simp] theorem State.complete_errCmd (s : State) : (s.complete).errCmd = s.errCmd := rfl
@[simp] theorem State.complete_result (s : State) : (s.complete).result = s.result := rfl
@[simp] theorem State.complete_len (s : State) : (s.complete).len = s.len := rfl
@[simp] theorem State.complete_ecnt (s : State) : (s.complete).ecnt = s.ecnt := rfl
@[simp] theorem State.complete_nerr (s : State) : (s.complete).nerr = s.nerr := rfl
@[simp] theorem State.complete_bmL (s : State) : (s.complete).bmL = s.bmL := rfl
@[simp] theorem State.complete_polys (s : State) : (s.complete).polys = s.polys := rfl
@[simp] theorem State.complete_cw (s : State) : (s.complete).cw = s.cw := rfl
@[simp] theorem State.complete_era (s : State) : (s.complete).era = s.era := rfl
@[simp] theorem State.complete_errloc (s : State) : (s.complete).errloc = s.errloc := rfl
@[simp] theorem State.complete_tables (s : State) : (s.complete).tables = s.tables := rfl
@[simp] theorem State.complete_pending (s : State) : (s.complete).pending = none := rfl
@[simp] theorem State.complete_scratch (s : State) : (s.complete).scratch = s.scratch := rfl
@[simp] theorem State.complete_resetAsserted (s : State) : (s.complete).resetAsserted = s.resetAsserted := rfl
@[simp] theorem State.complete_inputs (s : State) : (s.complete).inputs = s.inputs := rfl
@[simp] theorem State.complete_reads (s : State) : (s.complete).reads = s.reads := rfl
@[simp] theorem State.complete_engineWait (s : State) : (s.complete).engineWait = 0 := rfl
@[simp] theorem State.complete_delays (s : State) : (s.complete).delays = s.delays := rfl
@[simp] theorem State.complete_draws (s : State) : (s.complete).draws = s.draws := rfl

/-! ### setPhase -/

@[simp] theorem State.setPhase_config (s : State) (p : Phase) : (s.setPhase p).config = s.config := rfl
@[simp] theorem State.setPhase_nparReq (s : State) (p : Phase) : (s.setPhase p).nparReq = s.nparReq := rfl
@[simp] theorem State.setPhase_nparAct (s : State) (p : Phase) : (s.setPhase p).nparAct = s.nparAct := rfl
@[simp] theorem State.setPhase_initDone (s : State) (p : Phase) : (s.setPhase p).initDone = s.initDone := rfl
@[simp] theorem State.setPhase_clean (s : State) (p : Phase) : (s.setPhase p).clean = s.clean := rfl
@[simp] theorem State.setPhase_outcome (s : State) (p : Phase) : (s.setPhase p).outcome = s.outcome := rfl
@[simp] theorem State.setPhase_failCause (s : State) (p : Phase) : (s.setPhase p).failCause = s.failCause := rfl
@[simp] theorem State.setPhase_errors (s : State) (p : Phase) : (s.setPhase p).errors = s.errors := rfl
@[simp] theorem State.setPhase_errInfo (s : State) (p : Phase) : (s.setPhase p).errInfo = s.errInfo := rfl
@[simp] theorem State.setPhase_errCmd (s : State) (p : Phase) : (s.setPhase p).errCmd = s.errCmd := rfl
@[simp] theorem State.setPhase_result (s : State) (p : Phase) : (s.setPhase p).result = s.result := rfl
@[simp] theorem State.setPhase_len (s : State) (p : Phase) : (s.setPhase p).len = s.len := rfl
@[simp] theorem State.setPhase_ecnt (s : State) (p : Phase) : (s.setPhase p).ecnt = s.ecnt := rfl
@[simp] theorem State.setPhase_nerr (s : State) (p : Phase) : (s.setPhase p).nerr = s.nerr := rfl
@[simp] theorem State.setPhase_bmL (s : State) (p : Phase) : (s.setPhase p).bmL = s.bmL := rfl
@[simp] theorem State.setPhase_polys (s : State) (p : Phase) : (s.setPhase p).polys = s.polys := rfl
@[simp] theorem State.setPhase_cw (s : State) (p : Phase) : (s.setPhase p).cw = s.cw := rfl
@[simp] theorem State.setPhase_era (s : State) (p : Phase) : (s.setPhase p).era = s.era := rfl
@[simp] theorem State.setPhase_errloc (s : State) (p : Phase) : (s.setPhase p).errloc = s.errloc := rfl
@[simp] theorem State.setPhase_tables (s : State) (p : Phase) : (s.setPhase p).tables = s.tables := rfl
@[simp] theorem State.setPhase_pending (s : State) (p : Phase) : (s.setPhase p).pending = s.pending := rfl
@[simp] theorem State.setPhase_scratch (s : State) (p : Phase) : (s.setPhase p).scratch = { s.scratch with phase := p } := rfl
@[simp] theorem State.setPhase_resetAsserted (s : State) (p : Phase) : (s.setPhase p).resetAsserted = s.resetAsserted := rfl
@[simp] theorem State.setPhase_inputs (s : State) (p : Phase) : (s.setPhase p).inputs = s.inputs := rfl
@[simp] theorem State.setPhase_reads (s : State) (p : Phase) : (s.setPhase p).reads = s.reads := rfl
@[simp] theorem State.setPhase_engineWait (s : State) (p : Phase) : (s.setPhase p).engineWait = s.engineWait := rfl
@[simp] theorem State.setPhase_delays (s : State) (p : Phase) : (s.setPhase p).delays = s.delays := rfl
@[simp] theorem State.setPhase_draws (s : State) (p : Phase) : (s.setPhase p).draws = s.draws := rfl

end Sys2Proof.Machine
end

