-- ==== Sys2Proof/Laws/Ops.lean ====
section
/-!
SUPPORT. What the shared operation `command` can do, said once, and what a completion step of each command answers.
-/

namespace Sys2Proof.Machine

/-- BUSY = 1 exactly while a command is pending (R26). -/
theorem State.busy_iff (s : State) : s.busy = true ↔ ∃ v, s.pending = some v := Option.isSome_iff_exists

/-- The completion step of a command: its effect in full, then BUSY = 0 (R240). -/
theorem command_busy {i : Instr} {check : State → Option EventCode} {effect : State → State} {s : State}
    (h : s.busy = true) : command i check effect s = .next (effect s).complete := by
  rw [command, if_pos h]

/-- The issue of a command that a check rejects (R203). -/
theorem command_rejects {i : Instr} {check : State → Option EventCode} {effect : State → State} {s : State}
    {c : EventCode} (h : s.busy = false) (hc : check s = some c) :
    command i check effect s = .next (s.reject c (encode i)) := by
  rw [command, h, hc]; rfl

/-- The issue of a command that passes its checks (R202). -/
theorem command_accepts {i : Instr} {check : State → Option EventCode} {effect : State → State} {s : State}
    (h : s.busy = false) (hc : check s = none) : command i check effect s = .next (s.accept (encode i)) := by
  rw [command, h, hc]; rfl

/-- Everything `command` can do. -/
theorem command_cases (i : Instr) (check : State → Option EventCode) (effect : State → State) (s : State) :
    (s.busy = true ∧ command i check effect s = .next (effect s).complete) ∨
    (s.busy = false ∧ (∃ c, check s = some c ∧ command i check effect s = .next (s.reject c (encode i)))) ∨
    (s.busy = false ∧ check s = none ∧ command i check effect s = .next (s.accept (encode i))) := by
  cases h : s.busy with
  | true => exact .inl ⟨rfl, command_busy h⟩
  | false =>
    cases hc : check s with
    | some c => exact .inr (.inl ⟨rfl, c, rfl, command_rejects h hc⟩)
    | none => exact .inr (.inr ⟨rfl, rfl, command_accepts h hc⟩)

/-- The issue check of each command (R202, R205, R206): the code it is rejected with, or none. -/
def issueCheck : Instr → State → Option EventCode
  | .init => fun s => if paramInit s then some .param else none
  | .gmul _ _ => checkPlain
  | .ginv _ => checkPlain
  | .pzero pd => checkPoly pd
  | .pcopy pd _ => checkPoly pd
  | .padd pd _ _ => checkPoly pd
  | .pscale pd _ _ => checkPoly pd
  | .pmul pd _ _ => checkPoly pd
  | .pshz pd _ => checkPoly pd
  | .encode => checkParam paramEncode
  | .synd => checkPlain
  | .gamma => checkParam paramErasures
  | .bmsolve => checkParam paramBmsolve
  | .chien => checkPlain
  | .forney => checkPlain
  | .correct => checkParam paramErasures

/-- The effect of each command, less the end of its completion step. -/
def effectOf : Instr → State → State
  | .init => effectInit
  | .gmul a b => effectGmul a b
  | .ginv a => effectGinv a
  | .pzero pd => fun s => s.setPoly pd (polyZero s.maxdeg)
  | .pcopy pd pa => fun s => s.setPoly pd (s.poly pa)
  | .padd pd pa pb => fun s => s.setPoly pd (polyAdd s.maxdeg (s.poly pa) (s.poly pb))
  | .pscale pd pa k => fun s => s.setPoly pd (polyScale s.tables s.maxdeg k (s.poly pa))
  | .pmul pd pa pb => fun s => s.setPoly pd (polyMul s.tables s.maxdeg (s.poly pa) (s.poly pb))
  | .pshz pd pa => fun s => s.setPoly pd (polyShift s.maxdeg (s.poly pa))
  | .encode => effectEncode
  | .synd => effectSynd
  | .gamma => effectGamma
  | .bmsolve => effectBmsolve
  | .chien => effectChien
  | .forney => forneyBody (encode .forney)
  | .correct => effectCorrect

/-- Every meaning is `command` over that command's own check and effect. -/
theorem exec_eq_command (i : Instr) (s : State) : exec i s = command i (issueCheck i) (effectOf i) s := by
  cases i <;> rfl

/-- The completion step of any command. -/
theorem exec_busy {i : Instr} {s : State} (h : s.busy = true) : exec i s = .next (effectOf i s).complete := by
  rw [exec_eq_command, command_busy h]

end Sys2Proof.Machine
end

