-- ==== Sys2Proof/Laws/Step.lean ====
section
/-!
SUPPORT. Everything one step can do, said once: the Engine completes the pending command, or the outside world makes its
next act, or nothing happens. Later proofs cite these and unfold neither step nor stepWith.
-/

namespace Sys2Proof.Machine

/-- When the Engine moves (R240): a command is pending, and its wait is over or the outside world has nothing to do. -/
theorem State.engineTurn_eq_some {s : State} {v : Word} :
    s.engineTurn = some v ↔ s.pending = some v ∧ (s.engineWait = 0 ∨ s.inputs = []) := by
  unfold State.engineTurn
  split
  · next hw => exact ⟨fun h => ⟨h, hw⟩, fun h => h.1⟩
  · next hw => exact ⟨(nomatch ·), fun h => absurd h.2 hw⟩

/-- When the outside world moves. -/
theorem State.engineTurn_eq_none {s : State} :
    s.engineTurn = none ↔ s.pending = none ∨ (s.engineWait ≠ 0 ∧ s.inputs ≠ []) := by
  unfold State.engineTurn
  split
  · next h => exact ⟨.inl, fun h2 => h2.elim id fun h3 => absurd h (by simp [h3.1, h3.2])⟩
  · next h => exact ⟨fun _ => .inr (by simpa using h), fun _ => rfl⟩

/-- With nothing pending the outside world moves. -/
theorem State.engineTurn_of_idle {s : State} (h : s.pending = none) : s.engineTurn = none :=
  State.engineTurn_eq_none.2 (.inl h)

/-- The Engine's step. -/
theorem step_engine {s : State} {v : Word} {i : Instr} (h : s.engineTurn = some v) (hd : decode v = .legal i) :
    step s = exec i s := by
  simp only [step, stepWith, h, engineStep, hd]

/-- The Engine's step, as the effect of the command it completes. -/
theorem step_completes {s : State} {v : Word} {i : Instr} (h : s.engineTurn = some v) (hd : decode v = .legal i) :
    step s = .next (effectOf i s).complete := by
  rw [step_engine h hd]
  exact exec_busy (by rw [State.busy, (State.engineTurn_eq_some.1 h).1]; rfl)

/-- The outside world's step. -/
theorem step_outside {s : State} {a : Input} {rest : List Input} (h : s.engineTurn = none) (hi : s.inputs = a :: rest) :
    step s = outsideAct exec a (s.turn rest) := by
  simp only [step, stepWith, h, outsideStep, hi]

/-- The step in which nothing happens. -/
theorem step_idle {s : State} (h : s.engineTurn = none) (hi : s.inputs = []) : step s = .next (s.turn []) := by
  simp only [step, stepWith, h, outsideStep, hi]

/-- Everything a step can do. -/
theorem step_cases (s : State) :
    (∃ v i, s.engineTurn = some v ∧ s.pending = some v ∧ decode v = .legal i ∧
      step s = .next (effectOf i s).complete) ∨
    (∃ v why, s.engineTurn = some v ∧ s.pending = some v ∧ decode v = .illegal why ∧
      step s = .fault .pendingNotACommand) ∨
    (s.engineTurn = none ∧ s.inputs = [] ∧ step s = .next (s.turn [])) ∨
    (∃ a rest, s.engineTurn = none ∧ s.inputs = a :: rest ∧ step s = outsideAct exec a (s.turn rest)) := by
  cases h : s.engineTurn with
  | some v =>
    have hp := (State.engineTurn_eq_some.1 h).1
    cases hd : decode v with
    | legal i => exact .inl ⟨v, i, rfl, hp, hd, step_completes h hd⟩
    | illegal why =>
      exact .inr (.inl ⟨v, why, rfl, hp, hd, by simp only [step, stepWith, h, engineStep, hd]⟩)
  | none =>
    cases hi : s.inputs with
    | nil => exact .inr (.inr (.inl ⟨rfl, rfl, step_idle h hi⟩))
    | cons a rest => exact .inr (.inr (.inr ⟨a, rest, rfl, rfl, step_outside h hi⟩))

/-- Everything a Host write can do (R61, R70, R202, R208, R230). -/
theorem hostWrite_cases (addr : Addr) (v : Word) (s : State) :
    (s.resetAsserted = true ∧ hostWrite exec addr v s = .next s) ∨
    (s.resetAsserted = false ∧ locate s.config addr = .status ∧ hostWrite exec addr v s = .next (s.acknowledge v)) ∨
    (s.resetAsserted = false ∧ locate s.config addr ≠ .status ∧ s.busy = true ∧
      hostWrite exec addr v s = .next s.dropWrite) ∨
    (s.resetAsserted = false ∧ s.busy = false ∧ locate s.config addr = .cmd ∧
      hostWrite exec addr v s = issueWord exec v s) ∨
    (s.resetAsserted = false ∧ s.busy = false ∧ locate s.config addr ≠ .cmd ∧ locate s.config addr ≠ .status ∧
      hostWrite exec addr v s = .next (s.store (locate s.config addr) v)) := by
  cases hr : s.resetAsserted with
  | true => exact .inl ⟨rfl, by simp [hostWrite, hr]⟩
  | false =>
    refine .inr ?_
    cases hb : s.busy <;> cases hl : locate s.config addr <;> simp [hostWrite, hr, hl, hb]

/-- Everything the issue of a word to CMD can do, with BUSY = 0 (R202). -/
theorem issueWord_cases {s : State} (h : s.busy = false) (v : Word) :
    (∃ why, decode v = .illegal why ∧ issueWord exec v s = .next (s.reject .illegal v)) ∨
    (∃ i c, decode v = .legal i ∧ issueCheck i s = some c ∧ issueWord exec v s = .next (s.reject c (encode i))) ∨
    (∃ i, decode v = .legal i ∧ issueCheck i s = none ∧ issueWord exec v s = .next (s.accept (encode i))) := by
  cases hd : decode v with
  | illegal why => exact .inl ⟨why, rfl, by simp only [issueWord, hd]⟩
  | legal i =>
    refine .inr ?_
    have hx : issueWord exec v s = exec i s := by simp only [issueWord, hd]
    rw [hx, exec_eq_command]
    cases hc : issueCheck i s with
    | some c => exact .inl ⟨i, c, rfl, hc, command_rejects h hc⟩
    | none => exact .inr ⟨i, rfl, hc, command_accepts h hc⟩

/-- No act of the outside world stops the machine. -/
theorem outsideAct_next (a : Input) (s : State) : ∃ t, outsideAct exec a s = .next t := by
  cases a with
  | read addr => exact ⟨_, rfl⟩
  | poll => exact ⟨_, rfl⟩
  | assertReset => exact ⟨_, rfl⟩
  | releaseReset => exact ⟨_, rfl⟩
  | write addr v =>
    show ∃ t, hostWrite exec addr v s = .next t
    rcases hostWrite_cases addr v s with ⟨-, h⟩ | ⟨-, -, h⟩ | ⟨-, -, -, h⟩ | ⟨-, hb, -, h⟩ | ⟨-, -, -, -, h⟩
    · exact ⟨_, h⟩
    · exact ⟨_, h⟩
    · exact ⟨_, h⟩
    · rw [h]
      rcases issueWord_cases hb v with ⟨_, _, h⟩ | ⟨_, _, _, _, h⟩ | ⟨_, _, _, h⟩ <;> exact ⟨_, h⟩
    · exact ⟨_, h⟩

end Sys2Proof.Machine
end

