-- ==== Sys2Proof/Laws/Bus.lean ====
section
/-!
SUPPORT. The address map read forwards and backwards (20_memory.md rules R64 and R65), and what a Host access leaves
unchanged.
-/

namespace Sys2Proof

/-! ### The build parameter (R9, R11) -/

theorem Config.nparMax_pos (c : Config) : 1 ≤ c.nparMax := by rw [Config.nparMax]; omega
theorem Config.nparMax_le (c : Config) : c.nparMax ≤ 254 := by
  have := c.nparMaxLessOne.isLt; rw [Config.nparMax]; omega
theorem Config.maxdeg_le (c : Config) : c.maxdeg ≤ 508 := by
  have := c.nparMax_le; rw [Config.maxdeg]; omega
theorem Config.maxdeg_eq (c : Config) : c.maxdeg = 2 * c.nparMax := rfl

namespace Machine

/-! ### The address map -/

/-- From word address 12 on, the map is the arrays' (R64). -/
theorem locate_of_ge {c : Config} {addr : Addr} (h : 12 ≤ addr.toNat / 4) :
    locate c addr = locateArray c (addr.toNat / 4) := by
  unfold locate wordAddr
  split <;> first | omega | rfl

/-- No array location is a register. -/
theorem locateArray_ne (c : Config) (w : Nat) :
    locateArray c w ≠ .status ∧ locateArray c w ≠ .cmd ∧ locateArray c w ≠ .id ∧ locateArray c w ≠ .cap := by
  unfold locateArray
  split_ifs <;> simp

theorem locate_eq_status {c : Config} {addr : Addr} : locate c addr = .status ↔ addr.toNat / 4 = 4 := by
  by_cases h : 12 ≤ addr.toNat / 4
  · rw [locate_of_ge h]
    exact ⟨fun h2 => absurd h2 (locateArray_ne _ _).1, fun h2 => by omega⟩
  · have : addr.toNat / 4 < 12 := by omega
    unfold locate wordAddr
    interval_cases addr.toNat / 4 <;> simp

theorem locate_eq_cmd {c : Config} {addr : Addr} : locate c addr = .cmd ↔ addr.toNat / 4 = 3 := by
  by_cases h : 12 ≤ addr.toNat / 4
  · rw [locate_of_ge h]
    exact ⟨fun h2 => absurd h2 (locateArray_ne _ _).2.1, fun h2 => by omega⟩
  · have : addr.toNat / 4 < 12 := by omega
    unfold locate wordAddr
    interval_cases addr.toNat / 4 <;> simp

theorem locate_eq_id {c : Config} {addr : Addr} : locate c addr = .id ↔ addr.toNat / 4 = 0 := by
  by_cases h : 12 ≤ addr.toNat / 4
  · rw [locate_of_ge h]
    exact ⟨fun h2 => absurd h2 (locateArray_ne _ _).2.2.1, fun h2 => by omega⟩
  · have : addr.toNat / 4 < 12 := by omega
    unfold locate wordAddr
    interval_cases addr.toNat / 4 <;> simp

theorem locate_eq_cap {c : Config} {addr : Addr} : locate c addr = .cap ↔ addr.toNat / 4 = 1 := by
  by_cases h : 12 ≤ addr.toNat / 4
  · rw [locate_of_ge h]
    exact ⟨fun h2 => absurd h2 (locateArray_ne _ _).2.2.2, fun h2 => by omega⟩
  · have : addr.toNat / 4 < 12 := by omega
    unfold locate wordAddr
    interval_cases addr.toNat / 4 <;> simp

/-- The word address of a location (R64, R65), 0 for the reserved ones. -/
def Loc.word : Loc → Nat
  | .id => 0
  | .cap => 1
  | .cfg => 2
  | .cmd => 3
  | .status => 4
  | .errInfo => 5
  | .errCmd => 6
  | .result => 7
  | .len => 8
  | .ecnt => 9
  | .nerr => 10
  | .bmL => 11
  | .errloc k => 0x100 + k
  | .era k => 0x200 + k
  | .cw t => 0x400 + t
  | .poly p i => 0x800 + 512 * p + i
  | .exp i => 0x2800 + i
  | .log a => 0x2A00 + a
  | .reserved => 0

/-- The map read backwards. -/
theorem word_locate {c : Config} {addr : Addr} (h : locate c addr ≠ .reserved) :
    (locate c addr).word = addr.toNat / 4 := by
  by_cases h12 : 12 ≤ addr.toNat / 4
  · rw [locate_of_ge h12] at h ⊢
    generalize addr.toNat / 4 = w at *
    revert h
    unfold locateArray
    split_ifs <;> simp only [Loc.word, ne_eq, not_true_eq_false, false_implies] <;> intro <;> omega
  · have : addr.toNat / 4 < 12 := by omega
    unfold locate wordAddr
    interval_cases addr.toNat / 4 <;> rfl

/-- The array locations of R64, each at its word address. -/
theorem locateArray_errloc {c : Config} {w k : Nat} (hk : k ≤ 254) (h : w = 0x100 + k) :
    locateArray c w = .errloc k := by
  rw [locateArray, if_pos (by omega), h, Nat.add_sub_cancel_left]

theorem locateArray_era {c : Config} {w k : Nat} (hk : k < c.nparMax) (h : w = 0x200 + k) :
    locateArray c w = .era k := by
  rw [locateArray, if_neg (by omega), if_pos (by omega), h, Nat.add_sub_cancel_left]

theorem locateArray_cw {c : Config} {w k : Nat} (hk : k ≤ 254) (h : w = 0x400 + k) : locateArray c w = .cw k := by
  have := c.nparMax_le
  rw [locateArray, if_neg (by omega), if_neg (by omega), if_pos (by omega), h, Nat.add_sub_cancel_left]

theorem locateArray_poly {c : Config} {w p i : Nat} (hp : p ≤ 12) (hi : i < c.maxdeg) (h : w = 0x800 + 512 * p + i) :
    locateArray c w = .poly p i := by
  have := c.nparMax_le
  have := c.maxdeg_le
  have h1 : (w - 0x800) / 512 = p := by omega
  have h2 : (w - 0x800) % 512 = i := by omega
  rw [locateArray, if_neg (by omega), if_neg (by omega), if_neg (by omega), if_pos (by omega), h1, h2,
    if_pos ⟨hp, hi⟩]

theorem locateArray_exp {c : Config} {w k : Nat} (hk : k ≤ 511) (h : w = 0x2800 + k) : locateArray c w = .exp k := by
  have := c.nparMax_le
  rw [locateArray, if_neg (by omega), if_neg (by omega), if_neg (by omega), if_neg (by omega), if_pos (by omega), h,
    Nat.add_sub_cancel_left]

theorem locateArray_log {c : Config} {w k : Nat} (hk : k ≤ 255) (h : w = 0x2A00 + k) : locateArray c w = .log k := by
  have := c.nparMax_le
  rw [locateArray, if_neg (by omega), if_neg (by omega), if_neg (by omega), if_neg (by omega), if_neg (by omega),
    if_pos (by omega), h, Nat.add_sub_cancel_left]

/-- Two addresses name one existing location only when they are of one word. -/
theorem locate_injective {c : Config} {a b : Addr} (h : locate c a = locate c b) (hr : locate c a ≠ .reserved) :
    a.toNat / 4 = b.toNat / 4 := by
  rw [← word_locate hr, ← word_locate (h ▸ hr), h]

end Machine

end Sys2Proof
end

