-- ==== Sys2Proof/Laws/Poly.lean ====
section
/-!
SUPPORT. The coefficients of each polynomial function, and what reading a polynomial register gives before and after a
write of one.
-/

namespace Sys2Proof.Machine

/-- Coefficient i of a list of n computed coefficients. -/
theorem coef_map_range (n : Nat) (f : Nat → Byte) (i : Nat) :
    coef ((List.range n).map f) i = if i < n then f i else 0 := by
  simp only [coef, List.getD_eq_getElem?_getD, List.getElem?_map]
  by_cases h : i < n
  · simp [h]
  · simp [h]

theorem coef_polyZero (n i : Nat) : coef (polyZero n) i = 0 := by
  rw [polyZero, coef_map_range]; split <;> rfl

theorem coef_polyConst (n : Nat) (c : Byte) (i : Nat) :
    coef (polyConst n c) i = if i < n ∧ i = 0 then c else 0 := by
  rw [polyConst, coef_map_range]; split <;> simp_all

theorem coef_polyAdd (n : Nat) (a b : Poly) (i : Nat) :
    coef (polyAdd n a b) i = if i < n then coef a i ^^^ coef b i else 0 := coef_map_range ..

theorem coef_polyScale (t : Tables) (n : Nat) (k : Byte) (a : Poly) (i : Nat) :
    coef (polyScale t n k a) i = if i < n then gfMul t k (coef a i) else 0 := coef_map_range ..

theorem coef_polyMul (t : Tables) (n : Nat) (a b : Poly) (i : Nat) :
    coef (polyMul t n a b) i =
      if i < n then xorSum (i + 1) (fun j => gfMul t (coef a j) (coef b (i - j))) else 0 := coef_map_range ..

theorem coef_polyShift (n : Nat) (a : Poly) (i : Nat) :
    coef (polyShift n a) i = if i < n then (if i = 0 then 0 else coef a (i - 1)) else 0 := coef_map_range ..

@[simp] theorem length_polyZero (n : Nat) : (polyZero n).length = n := by simp [polyZero]
@[simp] theorem length_polyConst (n : Nat) (c : Byte) : (polyConst n c).length = n := by simp [polyConst]
@[simp] theorem length_polyAdd (n : Nat) (a b : Poly) : (polyAdd n a b).length = n := by simp [polyAdd]
@[simp] theorem length_polyScale (t : Tables) (n : Nat) (k : Byte) (a : Poly) : (polyScale t n k a).length = n := by
  simp [polyScale]
@[simp] theorem length_polyMul (t : Tables) (n : Nat) (a b : Poly) : (polyMul t n a b).length = n := by
  simp [polyMul]
@[simp] theorem length_polyShift (n : Nat) (a : Poly) : (polyShift n a).length = n := by simp [polyShift]

@[simp] theorem State.length_poly (s : State) (p : PIdx) : (s.poly p).length = s.maxdeg := by
  simp [State.poly]

/-- A product with 0 is 0, without the tables (R102). -/
@[simp] theorem gfMul_zero_left (t : Tables) (b : Byte) : gfMul t 0 b = 0 := if_pos rfl

@[simp] theorem gfMul_zero_right (t : Tables) (a : Byte) : gfMul t a 0 = 0 := by
  unfold gfMul; split <;> simp

/-- MAXDEG fits the 512 slots of a register (R65). -/
theorem State.maxdeg_le (s : State) : s.maxdeg ≤ 508 := by
  have := s.config.nparMaxLessOne.isLt
  simp only [State.maxdeg, Config.maxdeg, Config.nparMax]; omega

theorem State.maxdeg_pos (s : State) : 2 ≤ s.maxdeg := by
  simp only [State.maxdeg, Config.maxdeg, Config.nparMax]; omega

/-- Coefficient i of a polynomial register. -/
theorem State.coef_poly (s : State) (p : PIdx) (i : Nat) :
    coef (s.poly p) i = if i < s.maxdeg then s.polys.read (polySlot p.toNat i) else 0 := by
  rw [coef, State.poly, Memory.getD_bytes]; rfl

/-- What reading the register file gives after `P[p] <- v`. -/
theorem State.read_setPoly {s : State} (h : s.polys.wf) (p : PIdx) (v : Poly) (k : Nat) :
    (s.setPoly p v).polys.read k =
      if polySlot p.toNat 0 ≤ k ∧ k < polySlot p.toNat 0 + v.length then coef v (k - polySlot p.toNat 0)
      else s.polys.read k := by
  rw [State.setPoly_polys, Memory.read_writeAll h]; rfl

/-- Coefficient i of register q after `P[p] <- v`, for a whole register value v. -/
theorem State.coef_setPoly {s : State} (h : s.polys.wf) (p q : PIdx) {v : Poly} (hv : v.length = s.maxdeg) (i : Nat) :
    coef ((s.setPoly p v).poly q) i = if p = q then coef v i else coef (s.poly q) i := by
  have hm := s.maxdeg_le
  rw [State.coef_poly, State.read_setPoly h, hv]
  change (if i < s.maxdeg then _ else _) = _
  have hvi : ¬ i < s.maxdeg → coef v i = 0 := fun hi => by
    rw [coef, List.getD_eq_default]; omega
  by_cases hpq : p = q
  · subst hpq
    by_cases hi : i < s.maxdeg
    · rw [if_pos hi, if_pos (by simp only [polySlot]; omega), if_pos rfl]
      congr 1; simp only [polySlot]; omega
    · rw [if_neg hi, if_pos rfl, hvi hi]
  · rw [if_neg hpq, State.coef_poly]
    by_cases hi : i < s.maxdeg
    · rw [if_pos hi, if_pos hi, if_neg]
      have : p.toNat ≠ q.toNat := fun e => hpq (BitVec.eq_of_toNat_eq e)
      simp only [polySlot]; omega
    · rw [if_neg hi, if_neg hi]

/-- Two values of one length are equal when all their coefficients are. -/
theorem poly_ext {a b : Poly} (hl : a.length = b.length) (h : ∀ i < a.length, coef a i = coef b i) : a = b := by
  refine List.ext_getElem hl fun i h1 h2 => ?_
  have := h i h1
  simpa [coef, List.getD_eq_getElem?_getD, List.getElem?_eq_getElem h1, List.getElem?_eq_getElem h2] using this

/-- Reading register q after `P[p] <- v`. -/
theorem State.poly_setPoly {s : State} (h : s.polys.wf) (p q : PIdx) {v : Poly} (hv : v.length = s.maxdeg) :
    (s.setPoly p v).poly q = if p = q then v else s.poly q := by
  have hl : ((s.setPoly p v).poly q).length = s.maxdeg := State.length_poly _ _
  refine poly_ext ?_ fun i _ => ?_
  · rw [hl]; split <;> simp [hv]
  · rw [State.coef_setPoly h p q hv]; split <;> rfl

end Sys2Proof.Machine
end

