-- ==== Sys2Proof/Laws/Effects.lean ====
section
/-!
SUPPORT. What the effects of the sixteen commands leave unchanged (10_state.md rule R38), and that they keep the canonical
form and the bounds of every array.
-/

namespace Sys2Proof.Machine

/-! ### FORNEY's corrections -/

/-- What one correction changes: CW, the event record and the scratch (R185). -/
theorem forneyCorrect_eq (v : Word) (s : State) (i : Byte) :
    ∃ b sc, forneyCorrect v s i =
      { (if forneyDen s i = 0 then s.warnZdiv v else s) with
        cw := s.cw.write (s.len.toNat - 1 - i.toNat) b, scratch := sc } := by
  by_cases h : forneyDen s i = 0
  · exact ⟨_, _, by rw [if_pos h, forneyCorrect, if_pos h]; rfl⟩
  · exact ⟨_, _, by rw [if_neg h, forneyCorrect, if_neg h]; rfl⟩

/-- What all the corrections of FORNEY change (R185, R207): CW in the places of the locations, the event record by ZDIV
warnings of the word v, and the scratch. -/
theorem forneyFold_frame (v : Word) (es : List Byte) (s : State) :
    ∃ cw errors errInfo errCmd sc,
      es.foldl (forneyCorrect v) s =
        { s with cw := cw, errors := errors, errInfo := errInfo, errCmd := errCmd, scratch := sc } ∧
      ((errors = s.errors ∧ errInfo = s.errInfo ∧ errCmd = s.errCmd) ∨
       (errors = { s.errors with zdiv := true } ∧ errInfo = .zdiv ∧ errCmd = v)) ∧
      (s.cw.wf → cw.wf ∧ ∀ k, (∀ e ∈ es, k ≠ s.len.toNat - 1 - e.toNat) → cw.read k = s.cw.read k) ∧
      ∀ c ∈ cw.cells, c ∈ s.cw.cells ∨ ∃ e ∈ es, c.1 = s.len.toNat - 1 - e.toNat := by
  induction es generalizing s with
  | nil => exact ⟨_, _, _, _, _, rfl, .inl ⟨rfl, rfl, rfl⟩, fun h => ⟨h, fun _ _ => rfl⟩, fun c h => .inl h⟩
  | cons e es ih =>
    obtain ⟨b, sc, h⟩ := forneyCorrect_eq v s e
    obtain ⟨cw, errors, errInfo, errCmd, sc2, h2, hw, hk, hm⟩ := ih (forneyCorrect v s e)
    have hcw : (forneyCorrect v s e).cw = s.cw.write (s.len.toNat - 1 - e.toNat) b := by rw [h]
    have hlen : (forneyCorrect v s e).len = s.len := by rw [h]; split <;> rfl
    refine ⟨cw, errors, errInfo, errCmd, sc2, ?_, ?_, ?_, ?_⟩
    · rw [List.foldl_cons, h2, h]; split <;> rfl
    · rcases hw with ⟨h3, h4, h5⟩ | ⟨h3, h4, h5⟩
      · rw [h3, h4, h5, h]
        split
        · exact .inr ⟨rfl, rfl, rfl⟩
        · exact .inl ⟨rfl, rfl, rfl⟩
      · refine .inr ⟨?_, h4, h5⟩
        rw [h3, h]; split <;> rfl
    · intro hwf
      rw [hcw, hlen] at hk
      obtain ⟨hwf2, hk⟩ := hk (Memory.write_wf hwf _ _)
      refine ⟨hwf2, fun k hne => ?_⟩
      rw [hk k fun e' he' => hne e' (List.mem_cons_of_mem _ he'),
        Memory.read_write_other hwf (hne e List.mem_cons_self)]
    · intro c hc
      rcases hm c hc with h3 | ⟨e', he', h3⟩
      · rw [hcw] at h3
        rcases Memory.mem_write h3 with rfl | h3
        · exact .inr ⟨e, List.mem_cons_self, rfl⟩
        · exact .inl h3
      · rw [hlen] at h3
        exact .inr ⟨e', List.mem_cons_of_mem _ he', h3⟩

/-- Everything FORNEY's body can do (R185, R186). -/
theorem forneyBody_cases (v : Word) (s : State) :
    ((∃ e ∈ s.locations, s.len.toNat ≤ e.toNat) ∧
      forneyBody v s = { s with outcome := .uncorrectable, failCause := .outOfRangeRoot }) ∨
    ((∀ e ∈ s.locations, e.toNat < s.len.toNat) ∧ (s.nerr = 0 ∨ s.npar < s.nerr.toNat) ∧
      forneyBody v s = { s with outcome := .uncorrectable, failCause := .uncorrCount }) ∨
    ((∀ e ∈ s.locations, e.toNat < s.len.toNat) ∧ s.nerr ≠ 0 ∧ s.nerr.toNat ≤ s.npar ∧
      forneyBody v s = { s.locations.foldl (forneyCorrect v) s with outcome := .corrected, failCause := .none }) := by
  unfold forneyBody
  split
  · next h => exact .inl ⟨by simpa using h, rfl⟩
  · next h =>
    have hb : ∀ e ∈ s.locations, e.toNat < s.len.toNat := by simpa using h
    split
    · next h2 => exact .inr (.inl ⟨hb, h2, rfl⟩)
    · next h2 => exact .inr (.inr ⟨hb, fun h3 => h2 (.inl h3), by omega, rfl⟩)

/-! ### The scratch does not matter (R37), and the phases of CORRECT -/

/-- s with other scratch. -/
def State.withScratch (s : State) (sc : Scratch) : State := { s with scratch := sc }

theorem State.setPhase_withScratch (s : State) (a : Scratch) (p : Phase) :
    (s.withScratch a).setPhase p = s.withScratch { a with phase := p } := rfl

theorem State.withScratch_withScratch (s : State) (a b : Scratch) : (s.withScratch a).withScratch b = s.withScratch b := rfl

theorem effectSynd_scratch (s : State) (sc : Scratch) : effectSynd (s.withScratch sc) = (effectSynd s).withScratch sc := rfl

theorem effectGamma_scratch (s : State) (sc : Scratch) : effectGamma (s.withScratch sc) = (effectGamma s).withScratch sc :=
  rfl

theorem effectBmsolve_scratch (s : State) (sc : Scratch) :
    ∃ sc', effectBmsolve (s.withScratch sc) = (effectBmsolve s).withScratch sc' := ⟨_, rfl⟩

theorem effectChien_scratch (s : State) (sc : Scratch) :
    ∃ sc', effectChien (s.withScratch sc) = (effectChien s).withScratch sc' := ⟨_, rfl⟩

theorem forneyCorrect_scratch (v : Word) (s : State) (sc : Scratch) (e : Byte) :
    ∃ sc', forneyCorrect v (s.withScratch sc) e = (forneyCorrect v s e).withScratch sc' := by
  have hd : forneyDen (s.withScratch sc) e = forneyDen s e := rfl
  by_cases h : forneyDen s e = 0
  · exact ⟨_, by rw [forneyCorrect, forneyCorrect, if_pos (hd.trans h), if_pos h]; rfl⟩
  · exact ⟨_, by rw [forneyCorrect, forneyCorrect, if_neg (by rwa [hd]), if_neg h]; rfl⟩

theorem forneyFold_scratch (v : Word) (es : List Byte) (s : State) (sc : Scratch) :
    ∃ sc', es.foldl (forneyCorrect v) (s.withScratch sc) = (es.foldl (forneyCorrect v) s).withScratch sc' := by
  induction es generalizing s sc with
  | nil => exact ⟨sc, rfl⟩
  | cons e es ih =>
    obtain ⟨sc', h⟩ := forneyCorrect_scratch v s sc e
    rw [List.foldl_cons, h, List.foldl_cons]
    exact ih _ _

theorem forneyBody_scratch (v : Word) (s : State) (sc : Scratch) :
    ∃ sc', forneyBody v (s.withScratch sc) = (forneyBody v s).withScratch sc' := by
  unfold forneyBody
  rw [show (s.withScratch sc).locations = s.locations from rfl, show (s.withScratch sc).len = s.len from rfl,
    show (s.withScratch sc).nerr = s.nerr from rfl, show (s.withScratch sc).npar = s.npar from rfl]
  split
  · exact ⟨sc, rfl⟩
  · split
    · exact ⟨sc, rfl⟩
    · obtain ⟨sc', h⟩ := forneyFold_scratch v s.locations s sc
      exact ⟨sc', by rw [h]; rfl⟩

/-- CORRECT after a clean SYND phase (R190). -/
theorem effectCorrect_clean {s : State} (h : (effectSynd s).clean = true) :
    ∃ sc, effectCorrect s =
      { effectSynd s with outcome := .doneClean, failCause := .none }.withScratch sc := by
  have e : ∃ sc, effectCorrect s = correctAfterSynd ((effectSynd s).withScratch sc) := ⟨_, rfl⟩
  obtain ⟨sc, e⟩ := e
  rw [e, correctAfterSynd, if_pos (c := ((effectSynd s).withScratch sc).clean = true) h]
  exact ⟨_, rfl⟩

/-- CORRECT after a SYND phase that is not clean (R190): the four stages on the state each leaves, up to the scratch. -/
theorem effectCorrect_dirty {s : State} (h : (effectSynd s).clean = false) :
    ∃ sc, effectCorrect s =
      (forneyBody (encode .correct) (effectChien (effectBmsolve (effectGamma (effectSynd s))))).withScratch sc := by
  have e : ∃ sc, effectCorrect s = correctAfterSynd ((effectSynd s).withScratch sc) := ⟨_, rfl⟩
  obtain ⟨sc, e⟩ := e
  rw [e, correctAfterSynd, 
    if_neg (c := ((effectSynd s).withScratch sc).clean = true) (fun hn => absurd (h.symm.trans hn) (by simp)), correctDirty, effectGamma_scratch]
  obtain ⟨a, ha⟩ := effectBmsolve_scratch (effectGamma (effectSynd s)) sc
  rw [ha, State.setPhase_withScratch]
  obtain ⟨b, hb⟩ := effectChien_scratch (effectBmsolve (effectGamma (effectSynd s))) { a with phase := .locatorSolved }
  rw [hb, State.setPhase_withScratch]
  obtain ⟨c, hc⟩ := forneyBody_scratch (encode .correct) (effectChien (effectBmsolve (effectGamma (effectSynd s))))
    { b with phase := .rootsFound }
  rw [hc, correctEnd, State.setPhase_withScratch]
  exact ⟨_, rfl⟩

/-! ### What each stage changes, as one equation (R38) -/

theorem effectEncode_eq (s : State) : effectEncode s =
    { s with cw := (effectEncode s).cw, scratch := { s.scratch with lfsr := (effectEncode s).scratch.lfsr } } := by
  simp only [effectEncode, State.setCw]

theorem effectSynd_eq (s : State) : effectSynd s =
    { s with polys := (effectSynd s).polys, clean := (effectSynd s).clean } := by
  simp only [effectSynd, State.setPoly]

theorem effectGamma_eq (s : State) : effectGamma s = { s with polys := (effectGamma s).polys } := by
  simp only [effectGamma, State.setPoly]

theorem effectBmsolve_eq (s : State) : effectBmsolve s =
    { s with polys := (effectBmsolve s).polys, bmL := (effectBmsolve s).bmL,
             scratch := { s.scratch with bm := (effectBmsolve s).scratch.bm } } := by
  simp only [effectBmsolve, State.setPoly]

theorem effectChien_eq (s : State) : effectChien s =
    { s with errloc := (effectChien s).errloc, nerr := (effectChien s).nerr,
             scratch := { s.scratch with chien := (effectChien s).scratch.chien } } := by
  simp only [effectChien, State.setErrloc]

/-- What CHIEN leaves in NERR and ERRLOC (R180). -/
theorem effectChien_located (s : State) :
    (effectChien s).nerr = BitVec.ofNat 9 (rootLocations s.tables s.maxdeg (s.poly LAMBDA)).length ∧
    (effectChien s).errloc = Memory.ofBytes 0 (rootLocations s.tables s.maxdeg (s.poly LAMBDA)) := ⟨rfl, rfl⟩

/-! ### What no command changes (R38) -/

/-- The fields of State that no command's effect changes. -/
structure SameOutside (s t : State) : Prop where
  config : t.config = s.config
  nparReq : t.nparReq = s.nparReq
  len : t.len = s.len
  ecnt : t.ecnt = s.ecnt
  era : t.era = s.era
  pending : t.pending = s.pending
  resetAsserted : t.resetAsserted = s.resetAsserted
  inputs : t.inputs = s.inputs
  reads : t.reads = s.reads
  engineWait : t.engineWait = s.engineWait
  delays : t.delays = s.delays
  draws : t.draws = s.draws

theorem SameOutside.refl (s : State) : SameOutside s s := ⟨rfl, rfl, rfl, rfl, rfl, rfl, rfl, rfl, rfl, rfl, rfl, rfl⟩

theorem SameOutside.trans {s t u : State} (h : SameOutside s t) (h2 : SameOutside t u) : SameOutside s u where
  config := h2.config.trans h.config
  nparReq := h2.nparReq.trans h.nparReq
  len := h2.len.trans h.len
  ecnt := h2.ecnt.trans h.ecnt
  era := h2.era.trans h.era
  pending := h2.pending.trans h.pending
  resetAsserted := h2.resetAsserted.trans h.resetAsserted
  inputs := h2.inputs.trans h.inputs
  reads := h2.reads.trans h.reads
  engineWait := h2.engineWait.trans h.engineWait
  delays := h2.delays.trans h.delays
  draws := h2.draws.trans h.draws

theorem withScratch_same (s : State) (sc : Scratch) : SameOutside s (s.withScratch sc) :=
  ⟨rfl, rfl, rfl, rfl, rfl, rfl, rfl, rfl, rfl, rfl, rfl, rfl⟩

theorem effectSynd_same (s : State) : SameOutside s (effectSynd s) := by
  constructor <;> simp [effectSynd]

theorem effectGamma_same (s : State) : SameOutside s (effectGamma s) := by
  constructor <;> simp [effectGamma]

theorem effectBmsolve_same (s : State) : SameOutside s (effectBmsolve s) := by
  constructor <;> simp [effectBmsolve]

theorem effectChien_same (s : State) : SameOutside s (effectChien s) := by
  constructor <;> simp [effectChien]

theorem forneyBody_same (v : Word) (s : State) : SameOutside s (forneyBody v s) := by
  rcases forneyBody_cases v s with ⟨-, h⟩ | ⟨-, -, h⟩ | ⟨-, -, -, h⟩
  · rw [h]; exact ⟨rfl, rfl, rfl, rfl, rfl, rfl, rfl, rfl, rfl, rfl, rfl, rfl⟩
  · rw [h]; exact ⟨rfl, rfl, rfl, rfl, rfl, rfl, rfl, rfl, rfl, rfl, rfl, rfl⟩
  · obtain ⟨cw, errors, errInfo, errCmd, sc, h2, -⟩ := forneyFold_frame v s.locations s
    rw [h, h2]; exact ⟨rfl, rfl, rfl, rfl, rfl, rfl, rfl, rfl, rfl, rfl, rfl, rfl⟩

/-- No command's effect changes what the Host alone writes, the reset input, the pending word or the schedule. -/
theorem effectOf_same (i : Instr) (s : State) : SameOutside s (effectOf i s) := by
  cases i with
  | ginv a =>
    show SameOutside s (effectGinv a s)
    unfold effectGinv
    simp only
    split <;> exact ⟨rfl, rfl, rfl, rfl, rfl, rfl, rfl, rfl, rfl, rfl, rfl, rfl⟩
  | forney => exact forneyBody_same _ s
  | correct =>
    show SameOutside s (effectCorrect s)
    cases h : (effectSynd s).clean with
    | true =>
      obtain ⟨sc, h⟩ := effectCorrect_clean h
      rw [h]
      exact (effectSynd_same s).trans ⟨rfl, rfl, rfl, rfl, rfl, rfl, rfl, rfl, rfl, rfl, rfl, rfl⟩
    | false =>
      obtain ⟨sc, h⟩ := effectCorrect_dirty h
      rw [h]
      exact (((((effectSynd_same s).trans (effectGamma_same _)).trans (effectBmsolve_same _)).trans
        (effectChien_same _)).trans (forneyBody_same _ _)).trans (withScratch_same _ _)
  | init => constructor <;> simp [effectOf, effectInit]
  | gmul a b => constructor <;> simp [effectOf, effectGmul]
  | pzero pd => constructor <;> simp [effectOf]
  | pcopy pd pa => constructor <;> simp [effectOf]
  | padd pd pa pb => constructor <;> simp [effectOf]
  | pscale pd pa k => constructor <;> simp [effectOf]
  | pmul pd pa pb => constructor <;> simp [effectOf]
  | pshz pd pa => constructor <;> simp [effectOf]
  | encode => constructor <;> simp [effectOf, effectEncode]
  | synd => exact effectSynd_same s
  | gamma => exact effectGamma_same s
  | bmsolve => exact effectBmsolve_same s
  | chien => exact effectChien_same s

end Sys2Proof.Machine
end

