-- ==== Sys2Proof/Laws/Encoding.lean ====
section
/-!
SUPPORT. The fields of a word in each of the three formats (30_encoding.md rules R81 to R83), and the round trip of each
format through the row test of the decoder.
-/

namespace Sys2Proof

/-- Two words are equal when their 32 bits are. -/
theorem word_ext {v w : Word} (h : ∀ i < 32, v.getLsbD i = w.getLsbD i) : v = w :=
  BitVec.eq_of_getLsbD_eq h

/-- The bits of a format C word (R81). -/
theorem getLsbD_formatC (op : Byte) (i : Nat) : (formatC op).getLsbD i = (decide (i < 8) && op.getLsbD i) := by
  have h : (formatC op).getLsbD i = if i < 8 then op.getLsbD i else (0#24).getLsbD (i - 8) := BitVec.getLsbD_append
  rw [h]; split <;> simp_all

/-- The bits of a format S word (R82). -/
theorem getLsbD_formatS (op a b : Byte) (i : Nat) : (formatS op a b).getLsbD i =
    if i < 8 then op.getLsbD i else if i < 16 then false else if i < 24 then a.getLsbD (i - 16)
    else b.getLsbD (i - 24) := by
  have h : (formatS op a b).getLsbD i = if i < 8 then op.getLsbD i else (b ++ a ++ 0#8).getLsbD (i - 8) :=
    BitVec.getLsbD_append
  rw [h, BitVec.getLsbD_append, BitVec.getLsbD_append]
  split
  · rfl
  · by_cases h1 : i < 16
    · rw [if_pos (by omega), if_pos h1]; simp
    · rw [if_neg (by omega), if_neg h1]
      by_cases h2 : i < 24
      · rw [if_pos (by omega), if_pos h2]; congr 1
      · rw [if_neg (by omega), if_neg h2]; congr 1

/-- The bits of a format P word (R83). -/
theorem getLsbD_formatP (op : Byte) (pd pa pb : PIdx) (k : Byte) (i : Nat) : (formatP op pd pa pb k).getLsbD i =
    if i < 8 then op.getLsbD i else if i < 12 then pd.getLsbD (i - 8) else if i < 16 then pa.getLsbD (i - 12)
    else if i < 20 then pb.getLsbD (i - 16) else if i < 24 then false else k.getLsbD (i - 24) := by
  have h : (formatP op pd pa pb k).getLsbD i =
      if i < 8 then op.getLsbD i else (k ++ 0#4 ++ pb ++ pa ++ pd).getLsbD (i - 8) := BitVec.getLsbD_append
  rw [h, BitVec.getLsbD_append, BitVec.getLsbD_append, BitVec.getLsbD_append, BitVec.getLsbD_append]
  split
  · rfl
  · by_cases h1 : i < 12
    · rw [if_pos (by omega), if_pos h1]
    · rw [if_neg (by omega), if_neg h1]
      by_cases h2 : i < 16
      · rw [if_pos (by omega), if_pos h2]; congr 1
      · rw [if_neg (by omega), if_neg h2]
        by_cases h3 : i < 20
        · rw [if_pos (by omega), if_pos h3]; congr 1
        · rw [if_neg (by omega), if_neg h3]
          by_cases h4 : i < 24
          · rw [if_pos (by omega), if_pos h4]; simp
          · rw [if_neg (by omega), if_neg h4]; congr 1

@[simp] theorem fieldOp_formatC (op : Byte) :
    fieldOp (formatC op) = op := by
  apply BitVec.eq_of_getLsbD_eq
  intro i hi
  rw [fieldOp, BitVec.getLsbD_extractLsb', getLsbD_formatC]
  interval_cases i <;> simp

@[simp] theorem fieldOp_formatS (op a b : Byte) :
    fieldOp (formatS op a b) = op := by
  apply BitVec.eq_of_getLsbD_eq
  intro i hi
  rw [fieldOp, BitVec.getLsbD_extractLsb', getLsbD_formatS]
  interval_cases i <;> simp

@[simp] theorem fieldA_formatS (op a b : Byte) :
    fieldA (formatS op a b) = a := by
  apply BitVec.eq_of_getLsbD_eq
  intro i hi
  rw [fieldA, BitVec.getLsbD_extractLsb', getLsbD_formatS]
  interval_cases i <;> simp

@[simp] theorem fieldB_formatS (op a b : Byte) :
    fieldB (formatS op a b) = b := by
  apply BitVec.eq_of_getLsbD_eq
  intro i hi
  rw [fieldB, BitVec.getLsbD_extractLsb', getLsbD_formatS]
  interval_cases i <;> simp

@[simp] theorem fieldOp_formatP (op : Byte) (pd pa pb : PIdx) (k : Byte) :
    fieldOp (formatP op pd pa pb k) = op := by
  apply BitVec.eq_of_getLsbD_eq
  intro i hi
  rw [fieldOp, BitVec.getLsbD_extractLsb', getLsbD_formatP]
  interval_cases i <;> simp

@[simp] theorem fieldPD_formatP (op : Byte) (pd pa pb : PIdx) (k : Byte) :
    fieldPD (formatP op pd pa pb k) = pd := by
  apply BitVec.eq_of_getLsbD_eq
  intro i hi
  rw [fieldPD, BitVec.getLsbD_extractLsb', getLsbD_formatP]
  interval_cases i <;> simp

@[simp] theorem fieldPA_formatP (op : Byte) (pd pa pb : PIdx) (k : Byte) :
    fieldPA (formatP op pd pa pb k) = pa := by
  apply BitVec.eq_of_getLsbD_eq
  intro i hi
  rw [fieldPA, BitVec.getLsbD_extractLsb', getLsbD_formatP]
  interval_cases i <;> simp

@[simp] theorem fieldPB_formatP (op : Byte) (pd pa pb : PIdx) (k : Byte) :
    fieldPB (formatP op pd pa pb k) = pb := by
  apply BitVec.eq_of_getLsbD_eq
  intro i hi
  rw [fieldPB, BitVec.getLsbD_extractLsb', getLsbD_formatP]
  interval_cases i <;> simp

@[simp] theorem fieldK_formatP (op : Byte) (pd pa pb : PIdx) (k : Byte) :
    fieldK (formatP op pd pa pb k) = k := by
  apply BitVec.eq_of_getLsbD_eq
  intro i hi
  rw [fieldK, BitVec.getLsbD_extractLsb', getLsbD_formatP]
  interval_cases i <;> simp

/-- A row test answers a command only when it is well formed (R89). -/
theorem decodeRow_legal {v mask mtch : Word} {i j : Instr} (h : decodeRow v mask mtch i = .legal j) :
    v &&& mask = mtch ∧ j = i ∧ WellFormed i := by
  unfold decodeRow at h
  split at h
  · split at h
    · injection h with h; exact ⟨‹_›, h.symm, ‹_›⟩
    · cases h
  · cases h

/-- A test of the decoder that answers a command: the row matched, or a later one did. -/
theorem legal_of_ite {p : Prop} [Decidable p] {a b : Decoded} {i : Instr} (h : (if p then a else b) = .legal i) :
    (p ∧ a = .legal i) ∨ b = .legal i := by
  split at h
  · exact .inl ⟨‹_›, h⟩
  · exact .inr h

/-- The opcodes of R87 and what their rows test: the decoder's answer by opcode. -/
theorem decode_eq_of_legal {v : Word} {i : Instr} (h : decode v = .legal i) :
    (fieldOp v = 0x01 ∧ decodeRow v 0xFFFFFFFF 0x00000001 .init = .legal i) ∨
    (fieldOp v = 0x10 ∧ decodeRow v 0x0000FFFF 0x00000010 (.gmul (fieldA v) (fieldB v)) = .legal i) ∨
    (fieldOp v = 0x11 ∧ decodeRow v 0xFF00FFFF 0x00000011 (.ginv (fieldA v)) = .legal i) ∨
    (fieldOp v = 0x20 ∧ decodeRow v 0xFFFFF0FF 0x00000020 (.pzero (fieldPD v)) = .legal i) ∨
    (fieldOp v = 0x21 ∧ decodeRow v 0xFFFF00FF 0x00000021 (.pcopy (fieldPD v) (fieldPA v)) = .legal i) ∨
    (fieldOp v = 0x22 ∧ decodeRow v 0xFFF000FF 0x00000022 (.padd (fieldPD v) (fieldPA v) (fieldPB v)) = .legal i) ∨
    (fieldOp v = 0x23 ∧ decodeRow v 0x00FF00FF 0x00000023 (.pscale (fieldPD v) (fieldPA v) (fieldK v)) = .legal i) ∨
    (fieldOp v = 0x24 ∧ decodeRow v 0xFFF000FF 0x00000024 (.pmul (fieldPD v) (fieldPA v) (fieldPB v)) = .legal i) ∨
    (fieldOp v = 0x25 ∧ decodeRow v 0xFFFF00FF 0x00000025 (.pshz (fieldPD v) (fieldPA v)) = .legal i) ∨
    (fieldOp v = 0x30 ∧ decodeRow v 0xFFFFFFFF 0x00000030 .encode = .legal i) ∨
    (fieldOp v = 0x31 ∧ decodeRow v 0xFFFFFFFF 0x00000031 .synd = .legal i) ∨
    (fieldOp v = 0x32 ∧ decodeRow v 0xFFFFFFFF 0x00000032 .gamma = .legal i) ∨
    (fieldOp v = 0x33 ∧ decodeRow v 0xFFFFFFFF 0x00000033 .bmsolve = .legal i) ∨
    (fieldOp v = 0x34 ∧ decodeRow v 0xFFFFFFFF 0x00000034 .chien = .legal i) ∨
    (fieldOp v = 0x35 ∧ decodeRow v 0xFFFFFFFF 0x00000035 .forney = .legal i) ∨
    (fieldOp v = 0x36 ∧ decodeRow v 0xFFFFFFFF 0x00000036 .correct = .legal i) := by
  rw [decode] at h
  iterate 15 refine (legal_of_ite h).imp_right fun h => ?_
  exact (legal_of_ite h).resolve_right (by simp)

/-- A decoded command is well formed (R85, R89). -/
theorem wellFormed_of_legal {v : Word} {i : Instr} (h : decode v = .legal i) : WellFormed i := by
  rcases decode_eq_of_legal h with ⟨-, h⟩ | ⟨-, h⟩ | ⟨-, h⟩ | ⟨-, h⟩ | ⟨-, h⟩ | ⟨-, h⟩ | ⟨-, h⟩ | ⟨-, h⟩ | ⟨-, h⟩ |
    ⟨-, h⟩ | ⟨-, h⟩ | ⟨-, h⟩ | ⟨-, h⟩ | ⟨-, h⟩ | ⟨-, h⟩ | ⟨-, h⟩ <;>
  · obtain ⟨-, rfl, hwf⟩ := decodeRow_legal h
    exact hwf

end Sys2Proof
end

