-- ==== Sys2Proof/Laws/Galois.lean ====
section
/-!
SUPPORT. The tables INIT builds, element by element, and the field functions over them as polynomial arithmetic modulo
x^8 + x^4 + x^3 + x^2 + 1.
-/

set_option Elab.async false

namespace Sys2Proof.Machine

/-! ### Multiplication by x -/

/-- Multiplication by x on numbers, which the kernel evaluates fast. -/
def timesXNat (n : Nat) : Nat := bif Nat.blt n 128 then 2 * n else Nat.xor (2 * n - 256) 29

/-- n numbers, each the one before it times x. -/
def timesXNats : Nat → Nat → List Nat
  | 0, _ => []
  | n + 1, a => a :: timesXNats n (timesXNat a)

theorem toNat_timesX (a : Byte) : (timesX a).toNat = timesXNat a.toNat := by
  have h1D : (0x1D : Byte).toNat = 29 := rfl
  have hbit : a.getLsbD 7 = decide (128 ≤ a.toNat) := by
    rw [← BitVec.msb_eq_getLsbD_last a, BitVec.msb_eq_decide]
  have hlt := a.isLt
  unfold timesX timesXNat
  rw [hbit]
  by_cases h : 128 ≤ a.toNat
  · have hb : Nat.blt a.toNat 128 = false := Bool.eq_false_iff.2 fun e => by
      have : a.toNat < 128 := Nat.blt_eq ▸ e; omega
    rw [decide_eq_true h, if_pos rfl, hb, cond_false, BitVec.toNat_xor, BitVec.toNat_shiftLeft, h1D, Nat.shiftLeft_eq,
      show a.toNat * 2 ^ 1 % 2 ^ 8 = 2 * a.toNat - 256 by omega]
    rfl
  · have hb : Nat.blt a.toNat 128 = true := by rw [Nat.blt_eq]; omega
    rw [decide_eq_false h, if_neg (by simp), hb, cond_true, BitVec.toNat_shiftLeft, Nat.shiftLeft_eq]
    omega

/-- One step of R106's loop multiplies by x. -/
theorem mulAlpha_eq_timesX (a : Byte) : mulAlpha a = timesX a := by
  have hb : (a.setWidth 9 <<< 1).getLsbD 8 = a.getLsbD 7 := by simp
  unfold mulAlpha timesX
  simp only [hb]
  split <;>
  · ext i hi
    interval_cases i <;> simp

theorem timesX_xor (a b : Byte) : timesX (a ^^^ b) = timesX a ^^^ timesX b := by
  have comm (x y : Byte) : x ^^^ y = y ^^^ x := BitVec.xor_comm x y
  unfold timesX
  rw [BitVec.getLsbD_xor, BitVec.shiftLeft_xor_distrib]
  cases a.getLsbD 7 <;> cases b.getLsbD 7 <;> simp only [Bool.xor_false, Bool.xor_true, Bool.not_true, Bool.not_false,
    Bool.false_eq_true, if_true, if_false]
  · rw [BitVec.xor_assoc]
  · rw [BitVec.xor_assoc, BitVec.xor_assoc, comm (b <<< 1)]
  · rw [BitVec.xor_assoc, comm 0x1D, BitVec.xor_assoc, BitVec.xor_self, BitVec.xor_zero]

theorem timesX_zero : timesX 0 = 0 := by decide

theorem timesXPow_xor (k : Nat) (a b : Byte) : timesXPow k (a ^^^ b) = timesXPow k a ^^^ timesXPow k b := by
  induction k with
  | zero => rfl
  | succ k ih => rw [timesXPow, ih, timesX_xor]; rfl

theorem timesXPow_zero (k : Nat) : timesXPow k 0 = 0 := by
  induction k with
  | zero => rfl
  | succ k ih => rw [timesXPow, ih, timesX_zero]

theorem timesXPow_add (j k : Nat) (a : Byte) : timesXPow (j + k) a = timesXPow j (timesXPow k a) := by
  induction j with
  | zero => rw [Nat.zero_add]; rfl
  | succ j ih => rw [Nat.succ_add, timesXPow, ih]; rfl

theorem timesXNats_length (n a : Nat) : (timesXNats n a).length = n := by
  induction n generalizing a with
  | zero => rfl
  | succ n ih => simp [timesXNats, ih]

theorem timesXNats_getElem? (n : Nat) (a : Byte) (i : Nat) (h : i < n) :
    (timesXNats n a.toNat)[i]? = some (timesXPow i a).toNat := by
  induction n generalizing a i with
  | zero => omega
  | succ n ih =>
    cases i with
    | zero => rfl
    | succ i =>
      rw [timesXNats, List.getElem?_cons_succ, ← toNat_timesX, ih _ _ (by omega)]
      exact congrArg (fun x => some (BitVec.toNat x)) (timesXPow_add i 1 a).symm

/-- x^255 = 1, and no smaller positive power is 1: α is primitive (R101). -/
theorem fieldPow_eq_one {i : Nat} (h : i ≤ 255) : fieldPow i = 1 ↔ i = 0 ∨ i = 255 := by
  have all : ∀ p ∈ (timesXNats 256 1).zipIdx, (Nat.beq p.1 1 = true ↔ Nat.beq p.2 0 = true ∨ Nat.beq p.2 255 = true) := by
    decide +kernel
  have hi := timesXNats_getElem? 256 1 i (by omega)
  have := all ((fieldPow i).toNat, i) (by
    rw [List.mem_iff_getElem?]
    exact ⟨i, by rw [List.getElem?_zipIdx, show (1 : Nat) = (1 : Byte).toNat from rfl, hi]; simp [fieldPow]⟩)
  rw [Nat.beq_eq, Nat.beq_eq, Nat.beq_eq] at this
  rw [← this]
  exact ⟨fun e => by rw [e]; rfl, fun e => BitVec.eq_of_toNat_eq e⟩

/-- Every nonzero element is a power of α with exponent below 255. -/
theorem exists_fieldPow {a : Byte} (h : a ≠ 0) : ∃ i < 255, fieldPow i = a := by
  have all : ∀ n ∈ List.range 256, (Nat.beq n 0 || (timesXNats 255 1).any (fun m => Nat.beq m n)) = true := by
    decide +kernel
  have := all a.toNat (List.mem_range.2 a.isLt)
  rw [Bool.or_eq_true, List.any_eq_true] at this
  rcases this with h0 | ⟨m, hm, hmn⟩
  · rw [Nat.beq_eq] at h0
    exact absurd (BitVec.eq_of_toNat_eq h0 : a = 0) h
  · obtain ⟨i, hi⟩ := List.mem_iff_getElem?.1 hm
    have hlt : i < 255 := by
      have := (List.getElem?_eq_some_iff.1 hi).1
      rwa [timesXNats_length] at this
    have hp := timesXNats_getElem? 255 1 i hlt
    rw [show (1 : Byte).toNat = 1 from rfl, hi, Option.some.injEq] at hp
    exact ⟨i, hlt, BitVec.eq_of_toNat_eq (by rw [Nat.beq_eq] at hmn; rw [fieldPow, ← hp, hmn])⟩

/-- x has order 255 on every element. -/
theorem timesXPow_255 (a : Byte) : timesXPow 255 a = a := by
  by_cases h : a = 0
  · rw [h, timesXPow_zero]
  · obtain ⟨i, -, rfl⟩ := exists_fieldPow h
    have h1 : timesXPow 255 1 = 1 := (fieldPow_eq_one (Nat.le_refl 255)).2 (.inr rfl)
    rw [fieldPow, ← timesXPow_add, Nat.add_comm, timesXPow_add, h1]

theorem timesXPow_mod (k : Nat) (a : Byte) : timesXPow (k % 255) a = timesXPow k a := by
  have step : ∀ q r : Nat, timesXPow (255 * q + r) a = timesXPow r a := by
    intro q r
    induction q with
    | zero => rw [Nat.mul_zero, Nat.zero_add]
    | succ q ih =>
      rw [show 255 * (q + 1) + r = 255 + (255 * q + r) by omega, timesXPow_add, timesXPow_255, ih]
  conv_rhs => rw [← Nat.div_add_mod k 255, step]

theorem fieldPow_mod (k : Nat) : fieldPow (k % 255) = fieldPow k := timesXPow_mod k 1

/-- The powers α^0 to α^254 are distinct. -/
theorem fieldPow_injective {i j : Nat} (hi : i < 255) (hj : j < 255) (h : fieldPow i = fieldPow j) : i = j := by
  have key : ∀ {i j : Nat}, i < j → j < 255 → fieldPow i = fieldPow j → False := by
    intro i j hij hj h
    have h2 : fieldPow (255 - i + i) = fieldPow (255 - i + j) := by
      rw [fieldPow, fieldPow, timesXPow_add, timesXPow_add]
      exact congrArg _ h
    rw [show 255 - i + i = 255 by omega, show 255 - i + j = 255 + (j - i) by omega] at h2
    rw [fieldPow, timesXPow_255, fieldPow, timesXPow_add, timesXPow_255] at h2
    have := (fieldPow_eq_one (i := j - i) (by omega)).1 h2.symm
    omega
  rcases Nat.lt_trichotomy i j with hlt | heq | hgt
  · exact (key hlt hj h).elim
  · exact heq
  · exact (key hgt hi h.symm).elim

/-! ### The tables -/

theorem alphaPowers_length (n : Nat) (a : Byte) : (alphaPowers n a).length = n := by
  induction n generalizing a with
  | zero => rfl
  | succ n ih => simp [alphaPowers, ih]

theorem alphaPowers_getD (n : Nat) (a : Byte) (i : Nat) (h : i < n) :
    (alphaPowers n a).getD i 0 = timesXPow i a := by
  induction n generalizing a i with
  | zero => omega
  | succ n ih =>
    cases i with
    | zero => rfl
    | succ i =>
      rw [alphaPowers, List.getD_cons_succ, ih _ _ (by omega), mulAlpha_eq_timesX]
      exact (timesXPow_add i 1 a).symm

theorem expBytes_length : expBytes.length = 512 := by
  simp [expBytes, alphaPowers_length]

/-- EXP[i] = α^(i mod 255) for i in 0..511 (R105, R106). -/
theorem builtTables_expAt {i : Nat} (h : i < 512) : builtTables.expAt i = fieldPow i := by
  have hb : builtTables.expAt i = expBytes.getD i 0 := by
    show (Memory.ofBytes 0 expBytes).read i = _
    rw [Memory.read_ofBytes, expBytes_length, if_pos (by omega), Nat.sub_zero]
  have h1 : fieldPow 255 = 1 := timesXPow_255 1
  have hlen := alphaPowers_length 255 1
  rw [hb, expBytes]
  simp only [List.getD_eq_getElem?_getD]
  rcases Nat.lt_or_ge i 255 with hi | hi
  · rw [List.append_assoc, List.append_assoc, List.getElem?_append_left (by rw [hlen]; exact hi),
      ← List.getD_eq_getElem?_getD]
    exact alphaPowers_getD 255 1 i hi
  · have hmod : fieldPow i = fieldPow (i - 255) := by
      conv_lhs => rw [fieldPow, show i = (i - 255) + 255 by omega, timesXPow_add, timesXPow_255]
      rfl
    rw [hmod, List.append_assoc, List.append_assoc, List.getElem?_append_right (by rw [hlen]; exact hi), hlen]
    obtain ⟨d, rfl⟩ : ∃ d, i = 255 + d := ⟨i - 255, by omega⟩
    rw [show 255 + d - 255 = d by omega]
    rcases Nat.eq_zero_or_pos d with rfl | hd
    · rfl
    · rw [List.getElem?_append_right (by rw [List.length_singleton]; omega),
        List.length_singleton]
      rcases Nat.lt_or_ge d 255 with hd2 | hd2
      · rw [List.append_assoc, List.getElem?_append_left (by rw [List.length_drop, hlen]; omega), List.getElem?_drop,
          show 1 + (d - 1) = d by omega, ← List.getD_eq_getElem?_getD]
        exact alphaPowers_getD 255 1 d hd2
      · rw [List.append_assoc, List.getElem?_append_right (by rw [List.length_drop, hlen]; omega), List.length_drop,
          hlen, show d - 1 - (255 - 1) = d - 255 by omega]
        rcases (by omega : d = 255 ∨ d = 256) with rfl | rfl
        · exact h1.symm
        · decide +kernel

/-- What R107's loop leaves to read, for the elements in the order of their exponents. -/
theorem read_logLoop (L : List Byte) (n : Nat) (m : Memory) (hm : m.wf) (hL : L.Nodup) (i : Nat) (h : i < L.length) :
    ((L.zipIdx n).foldl (fun m p => m.write p.1.toNat (BitVec.ofNat 8 p.2)) m).read (L[i]).toNat
      = BitVec.ofNat 8 (n + i) := by
  have keep : ∀ (L : List Byte) (n : Nat) (m : Memory), m.wf → ∀ a : Byte, a ∉ L →
      ((L.zipIdx n).foldl (fun m p => m.write p.1.toNat (BitVec.ofNat 8 p.2)) m).read a.toNat = m.read a.toNat := by
    intro L
    induction L with
    | nil => intros; rfl
    | cons b L ih =>
      intro n m hm a ha
      rw [List.zipIdx_cons, List.foldl_cons, ih _ _ (Memory.write_wf hm _ _) a (fun h => ha (List.mem_cons_of_mem _ h)),
        Memory.read_write_other hm]
      intro e
      exact ha (by rw [BitVec.eq_of_toNat_eq e]; exact List.mem_cons_self)
  induction L generalizing n m i with
  | nil => simp at h
  | cons b L ih =>
    rw [List.zipIdx_cons, List.foldl_cons]
    have hnd := List.nodup_cons.1 hL
    cases i with
    | zero =>
      rw [List.getElem_cons_zero, keep L _ _ (Memory.write_wf hm _ _) b hnd.1, Memory.read_write_same hm, Nat.add_zero]
    | succ i =>
      rw [List.getElem_cons_succ, ih (n + 1) _ (Memory.write_wf hm _ _) hnd.2 i (by simpa using h)]
      congr 1; omega

theorem alphaPowers_getElem {n : Nat} {a : Byte} {i : Nat} (h : i < (alphaPowers n a).length) :
    (alphaPowers n a)[i] = timesXPow i a := by
  have hn : i < n := by rwa [alphaPowers_length] at h
  rw [← alphaPowers_getD n a i hn, List.getD_eq_getElem?_getD, List.getElem?_eq_getElem h, Option.getD_some]

theorem alphaPowers_nodup : (alphaPowers 255 1).Nodup := by
  rw [List.nodup_iff_injective_get]
  rintro ⟨i, hi⟩ ⟨j, hj⟩ h
  rw [List.get_eq_getElem, List.get_eq_getElem, alphaPowers_getElem, alphaPowers_getElem] at h
  rw [alphaPowers_length] at hi hj
  exact Fin.ext (fieldPow_injective hi hj h)

/-- LOG[α^i] = i for i in 0..254 (R107). -/
theorem builtTables_logAt_pow {i : Nat} (h : i < 255) : builtTables.logAt (fieldPow i) = BitVec.ofNat 8 i := by
  have hi : i < (alphaPowers 255 1).length := by rw [alphaPowers_length]; exact h
  have := read_logLoop (alphaPowers 255 1) 0 (Memory.zeros.write 0 0) (Memory.write_wf Memory.wf_zeros _ _)
    alphaPowers_nodup i hi
  rw [alphaPowers_getElem, Nat.zero_add] at this
  have hlog : builtTables.log = logMemory := by simp only [builtTables]
  rw [Tables.logAt, hlog, logMemory, fieldPow]
  exact this

/-- LOG[0] = 0 (R107). -/
theorem builtTables_logAt_zero : builtTables.logAt 0 = 0 := by
  decide +kernel

/-- LOG[a] <= 254, for a = 0 too. -/
theorem builtTables_logAt_le (a : Byte) : (builtTables.logAt a).toNat ≤ 254 := by
  by_cases h : a = 0
  · rw [h, builtTables_logAt_zero]; decide
  · obtain ⟨i, hi, rfl⟩ := exists_fieldPow h
    rw [builtTables_logAt_pow hi, BitVec.toNat_ofNat]
    omega

/-- α^LOG[a] = a for a != 0 (R107). -/
theorem fieldPow_logAt {a : Byte} (h : a ≠ 0) : fieldPow (builtTables.logAt a).toNat = a := by
  obtain ⟨i, hi, rfl⟩ := exists_fieldPow h
  rw [builtTables_logAt_pow hi, BitVec.toNat_ofNat, Nat.mod_eq_of_lt (by omega)]

theorem fieldPow_ne_zero (i : Nat) : fieldPow i ≠ 0 := by
  intro h
  have h2 : timesXPow (255 - i % 255) (fieldPow i) = 0 := by rw [h, timesXPow_zero]
  rw [← fieldPow_mod, fieldPow, ← timesXPow_add, Nat.sub_add_cancel (by omega), timesXPow_255] at h2
  exact absurd h2 (by decide)

end Sys2Proof.Machine
end

