-- ==== Sys2Proof/Laws/FieldAlgebra.lean ====
section
/-!
SUPPORT. GF(256) as polynomials modulo x^8 + x^4 + x^3 + x^2 + 1 (`fieldMul`): its ring laws, and that gf_mul over the
tables INIT builds is that multiplication. The decoder's algebra rests on these.
-/

namespace Sys2Proof.Machine

/-! ### XOR sums -/

theorem byte_xor_comm (a b : Byte) : a ^^^ b = b ^^^ a := BitVec.xor_comm a b

theorem xor_xor_xor_comm (a b c d : Byte) : (a ^^^ b) ^^^ (c ^^^ d) = (a ^^^ c) ^^^ (b ^^^ d) := by
  rw [BitVec.xor_assoc, BitVec.xor_assoc, ← BitVec.xor_assoc b, byte_xor_comm b c, BitVec.xor_assoc]

/-- XOR sums add term by term. -/
theorem xorSum_xor (n : Nat) (f g : Nat → Byte) : xorSum n (fun i => f i ^^^ g i) = xorSum n f ^^^ xorSum n g := by
  induction n with
  | zero => simp
  | succ n ih => rw [xorSum_succ, xorSum_succ, xorSum_succ, ih, xor_xor_xor_comm]

/-- A XOR sum of zeros. -/
theorem xorSum_eq_zero {n : Nat} {f : Nat → Byte} (h : ∀ i < n, f i = 0) : xorSum n f = 0 := by
  induction n with
  | zero => rfl
  | succ n ih => rw [xorSum_succ, ih fun i hi => h i (by omega), h n (by omega)]; rfl

/-- A map that respects XOR and 0 goes under a XOR sum. -/
theorem map_xorSum {φ : Byte → Byte} (h0 : φ 0 = 0) (hx : ∀ a b, φ (a ^^^ b) = φ a ^^^ φ b) (n : Nat) (f : Nat → Byte) :
    φ (xorSum n f) = xorSum n (fun i => φ (f i)) := by
  induction n with
  | zero => exact h0
  | succ n ih => rw [xorSum_succ, xorSum_succ, hx, ih]

/-- The first term of a XOR sum. -/
theorem xorSum_succ' (n : Nat) (f : Nat → Byte) : xorSum (n + 1) f = f 0 ^^^ xorSum n (fun i => f (i + 1)) := by
  induction n with
  | zero => simp [xorSum_succ]
  | succ n ih => rw [xorSum_succ, ih, xorSum_succ, BitVec.xor_assoc]

/-- A XOR sum with one term that can differ from 0. -/
theorem xorSum_single {n k : Nat} {f : Nat → Byte} (hk : k < n) (h : ∀ i < n, i ≠ k → f i = 0) : xorSum n f = f k := by
  induction n with
  | zero => omega
  | succ n ih =>
    rw [xorSum_succ]
    by_cases hkn : k = n
    · subst hkn
      rw [xorSum_eq_zero fun i hi => h i (by omega) (by omega)]
      simp
    · simp [ih (by omega) fun i hi => h i (by omega), h n (by omega) (Ne.symm hkn)]

/-- Terms past a point that are 0 can be left out. -/
theorem xorSum_of_le {m n : Nat} {f : Nat → Byte} (hmn : m ≤ n) (h : ∀ i, m ≤ i → i < n → f i = 0) :
    xorSum n f = xorSum m f := by
  induction n with
  | zero => rw [Nat.le_zero.1 hmn]
  | succ n ih =>
    rcases Nat.lt_or_ge n m with hlt | hge
    · rw [show m = n + 1 by omega]
    · simp [xorSum_succ, ih hge fun i h1 h2 => h i h1 (by omega), h n hge (by omega)]

/-! ### Field multiplication -/

theorem timesXPow_comm (j k : Nat) (a : Byte) : timesXPow j (timesXPow k a) = timesXPow k (timesXPow j a) := by
  rw [← timesXPow_add, Nat.add_comm, timesXPow_add]

theorem fieldMul_xor_left (a b c : Byte) : fieldMul (a ^^^ b) c = fieldMul a c ^^^ fieldMul b c := by
  rw [fieldMul, fieldMul, fieldMul, ← xorSum_xor]
  refine xorSum_congr fun i _ => ?_
  split
  · rw [timesXPow_xor]
  · rfl

theorem fieldMul_xor_right (a b c : Byte) : fieldMul a (b ^^^ c) = fieldMul a b ^^^ fieldMul a c := by
  rw [fieldMul, fieldMul, fieldMul, ← xorSum_xor]
  refine xorSum_congr fun i _ => ?_
  rw [BitVec.getLsbD_xor]
  cases b.getLsbD i <;> cases c.getLsbD i <;> simp

theorem fieldMul_zero_left (b : Byte) : fieldMul 0 b = 0 :=
  xorSum_eq_zero fun i _ => by rw [timesXPow_zero]; split <;> rfl

theorem fieldMul_zero_right (a : Byte) : fieldMul a 0 = 0 :=
  xorSum_eq_zero fun i _ => by simp

/-- The two above as simp writes a zero byte. -/
@[simp] theorem fieldMul_zero_left' (b : Byte) : fieldMul 0#8 b = 0#8 := fieldMul_zero_left b
@[simp] theorem fieldMul_zero_right' (a : Byte) : fieldMul a 0#8 = 0#8 := fieldMul_zero_right a

theorem fieldMul_timesX_left (a b : Byte) : fieldMul (timesX a) b = timesX (fieldMul a b) := by
  rw [fieldMul, fieldMul, map_xorSum timesX_zero timesX_xor]
  refine xorSum_congr fun i _ => ?_
  split
  · exact timesXPow_comm i 1 a
  · exact timesX_zero.symm

theorem fieldMul_one_left (b : Byte) : fieldMul 1 b = b := by
  have h : ∀ k < 8, timesXPow k 1 = (1 : Byte) <<< k := by decide
  rw [fieldMul, xorSum_congr (g := fun k => if b.getLsbD k then (1 : Byte) <<< k else 0) fun k hk => by rw [h k hk]]
  have bit : ∀ (c : Bool) (k i : Nat), (if c then (1 : Byte) <<< k else 0).getLsbD i = (c && ((1 : Byte) <<< k).getLsbD i) := by
    intro c k i; cases c <;> simp
  apply BitVec.eq_of_getLsbD_eq
  intro i hi
  simp only [xorSum_succ, xorSum_zero, BitVec.getLsbD_xor, bit]
  interval_cases i <;> simp

/-- Multiplying by α^i. -/
theorem fieldMul_fieldPow_left (i : Nat) (b : Byte) : fieldMul (fieldPow i) b = timesXPow i b := by
  induction i with
  | zero => exact fieldMul_one_left b
  | succ i ih => rw [fieldPow, timesXPow, fieldMul_timesX_left]; exact congrArg timesX ih

/-- Powers of α multiply by adding exponents. -/
theorem fieldMul_fieldPow (i j : Nat) : fieldMul (fieldPow i) (fieldPow j) = fieldPow (i + j) := by
  rw [fieldMul_fieldPow_left, fieldPow, fieldPow, timesXPow_add]

theorem fieldMul_comm (a b : Byte) : fieldMul a b = fieldMul b a := by
  by_cases ha : a = 0
  · subst ha; simp
  by_cases hb : b = 0
  · subst hb; simp
  obtain ⟨i, -, rfl⟩ := exists_fieldPow ha
  obtain ⟨j, -, rfl⟩ := exists_fieldPow hb
  rw [fieldMul_fieldPow, fieldMul_fieldPow, Nat.add_comm]

theorem fieldMul_assoc (a b c : Byte) : fieldMul (fieldMul a b) c = fieldMul a (fieldMul b c) := by
  by_cases ha : a = 0
  · subst ha; simp
  by_cases hb : b = 0
  · subst hb; simp
  obtain ⟨i, -, rfl⟩ := exists_fieldPow ha
  obtain ⟨j, -, rfl⟩ := exists_fieldPow hb
  rw [fieldMul_fieldPow, fieldMul_fieldPow_left, fieldMul_fieldPow_left, fieldMul_fieldPow_left, timesXPow_add]

theorem fieldMul_one_right (a : Byte) : fieldMul a 1 = a := by rw [fieldMul_comm, fieldMul_one_left]

@[simp] theorem fieldMul_one_left' (b : Byte) : fieldMul 1#8 b = b := fieldMul_one_left b
@[simp] theorem fieldMul_one_right' (a : Byte) : fieldMul a 1#8 = a := fieldMul_one_right a

/-- A product is 0 only when a factor is. -/
theorem fieldMul_eq_zero {a b : Byte} : fieldMul a b = 0 ↔ a = 0 ∨ b = 0 := by
  constructor
  · intro h
    by_cases ha : a = 0
    · exact .inl ha
    by_cases hb : b = 0
    · exact .inr hb
    obtain ⟨i, -, rfl⟩ := exists_fieldPow ha
    obtain ⟨j, -, rfl⟩ := exists_fieldPow hb
    rw [fieldMul_fieldPow] at h
    exact absurd h (fieldPow_ne_zero _)
  · rintro (rfl | rfl) <;> simp

/-- Multiplication by a fixed element goes under a XOR sum. -/
theorem fieldMul_xorSum (a : Byte) (n : Nat) (f : Nat → Byte) :
    fieldMul a (xorSum n f) = xorSum n (fun i => fieldMul a (f i)) :=
  map_xorSum (fieldMul_zero_right a) (fieldMul_xor_right a) n f

/-! ### The table functions of a booted block -/

/-- gf_mul over the built tables is field multiplication (R100 to R102). -/
theorem gfMul_built (a b : Byte) : gfMul builtTables a b = fieldMul a b := by
  unfold gfMul
  split
  · next h => subst h; simp
  split
  · next h => subst h; simp
  next ha hb =>
  have := builtTables_logAt_le a
  have := builtTables_logAt_le b
  rw [builtTables_expAt (by omega), ← fieldMul_fieldPow, fieldPow_logAt ha, fieldPow_logAt hb]

/-- gf_inv over the built tables is α^(255 - LOG[a]) (R103). -/
theorem gfInv_built (a : Byte) : gfInv builtTables a = fieldPow (255 - (builtTables.logAt a).toNat) :=
  builtTables_expAt (by omega)

/-- α^e over the built tables. -/
theorem alphaPow_built (e : Nat) : alphaPow builtTables e = fieldPow e := by
  rw [alphaPow, builtTables_expAt (by omega), fieldPow_mod]

/-- poly_eval over the built tables (R163). -/
theorem polyEval_built (n : Nat) (p : Poly) (e : Nat) :
    polyEval builtTables n p e = xorSum n (fun k => fieldMul (coef p k) (fieldPow (k * e))) := by
  rw [polyEval]
  exact xorSum_congr fun k _ => by rw [gfMul_built, alphaPow_built]

end Sys2Proof.Machine
end

