-- ==== Sys2Proof/Laws/Flags.lean ====
section
/-!
SUPPORT. The register views of Machine/Flags.lean as numbers and bit by bit (10_state.md rules R22 to R32).
-/

namespace Sys2Proof.Machine

/-- A word of two fields, as a number. -/
theorem toNat_append_eq {m n : Nat} (x : BitVec m) (y : BitVec n) : (x ++ y).toNat = x.toNat * 2 ^ n + y.toNat := by
  rw [BitVec.toNat_append, Nat.shiftLeft_eq, Nat.mul_comm, ← Nat.two_pow_add_eq_or_of_lt y.isLt]

@[simp] theorem elementWord_toNat (b : Byte) : (elementWord b).toNat = b.toNat :=
  (toNat_append_eq 0#24 b).trans (by simp)

@[simp] theorem State.nerrWord_toNat (s : State) : s.nerrWord.toNat = s.nerr.toNat :=
  (toNat_append_eq 0#23 s.nerr).trans (by simp)

@[simp] theorem State.errInfoWord_toNat (s : State) : s.errInfoWord.toNat = s.errInfo.bits.toNat :=
  (toNat_append_eq 0#28 s.errInfo.bits).trans (by simp)

/-- CFG as a number (R23). -/
theorem State.cfg_toNat (s : State) : s.cfg.toNat = s.nparReq.toNat + 2 ^ 16 * s.nparAct.toNat := by
  have h : s.cfg.toNat = (0#8 ++ s.nparAct ++ 0#8).toNat * 2 ^ 8 + s.nparReq.toNat := toNat_append_eq _ _
  rw [h, toNat_append_eq, toNat_append_eq]
  simp
  omega

/-- CAP as a number (R22). -/
theorem State.cap_toNat (s : State) : s.cap.toNat = s.config.nparMax + 2 ^ 16 * s.config.maxdeg := by
  have h : s.cap.toNat = (0#7 ++ BitVec.ofNat 9 s.config.maxdeg ++ 0#8).toNat * 2 ^ 8
      + (BitVec.ofNat 8 s.config.nparMax).toNat := toNat_append_eq _ _
  have := s.config.nparMaxLessOne.isLt
  have h1 : s.config.nparMax % 2 ^ 8 = s.config.nparMax := Nat.mod_eq_of_lt (by rw [Config.nparMax]; omega)
  have h2 : s.config.maxdeg % 2 ^ 9 = s.config.maxdeg :=
    Nat.mod_eq_of_lt (by rw [Config.maxdeg, Config.nparMax]; omega)
  rw [h, toNat_append_eq, toNat_append_eq]
  simp only [BitVec.toNat_ofNat, h1, h2]
  omega

/-- The bits of the two low fields of a word. -/
theorem getLsbD_append_eq {m n : Nat} (x : BitVec m) (y : BitVec n) (i : Nat) :
    (x ++ y).getLsbD i = if i < n then y.getLsbD i else x.getLsbD (i - n) := BitVec.getLsbD_append

/-- STATUS bit by bit (R25). -/
theorem State.status_getLsbD (s : State) (b : Nat) : s.status.getLsbD b =
    if b < 1 then s.busy else if b < 2 then s.initDone else if b < 3 then s.resultOk else if b < 4 then s.clean
    else if b < 6 then s.outcome.bits.getLsbD (b - 4) else if b < 8 then s.failCause.bits.getLsbD (b - 6)
    else s.errors.bits.getLsbD (b - 8) := by
  have h : s.status.getLsbD b = (0#18 ++ s.errors.bits ++ s.failCause.bits ++ s.outcome.bits ++
      BitVec.ofBool s.clean ++ BitVec.ofBool s.resultOk ++ BitVec.ofBool s.initDone ++
      BitVec.ofBool s.busy).getLsbD b := rfl
  rw [h]
  simp only [getLsbD_append_eq]
  by_cases h0 : b < 14
  · interval_cases b <;> simp
  · simp only [show ¬ b < 1 by omega, show ¬ b < 2 by omega, show ¬ b < 3 by omega, show ¬ b < 4 by omega,
      show ¬ b < 6 by omega, show ¬ b < 8 by omega, show ¬ b - 1 < 1 by omega, show ¬ b - 1 - 1 < 1 by omega,
      show ¬ b - 1 - 1 - 1 < 1 by omega, show ¬ b - 1 - 1 - 1 - 1 < 2 by omega,
      show ¬ b - 1 - 1 - 1 - 1 - 2 < 2 by omega, show ¬ b - 1 - 1 - 1 - 1 - 2 - 2 < 6 by omega, if_false]
    rw [BitVec.getLsbD_of_ge s.errors.bits _ (by omega)]
    simp

/-- The sticky bits one by one (R25). -/
theorem ErrorBits.bits_getLsbD (e : ErrorBits) (b : Nat) : e.bits.getLsbD b =
    if b = 0 then e.busy else if b = 1 then e.illegal else if b = 2 then e.notInit else if b = 3 then e.ro
    else if b = 4 then e.param else if b = 5 then e.zdiv else false := by
  by_cases h : b < 6
  · have h2 : e.bits.getLsbD b = (BitVec.ofBool e.zdiv ++ BitVec.ofBool e.param ++ BitVec.ofBool e.ro ++
        BitVec.ofBool e.notInit ++ BitVec.ofBool e.illegal ++ BitVec.ofBool e.busy).getLsbD b := rfl
    rw [h2]
    simp only [getLsbD_append_eq]
    interval_cases b <;> simp
  · rw [BitVec.getLsbD_of_ge _ _ (by omega)]
    repeat rw [if_neg (by omega)]

end Sys2Proof.Machine
end

