-- ==== Sys2Proof/Laws/Invariant.lean ====
section
/-!
SUPPORT. The effects of the commands keep every array in canonical form and in bounds (Safety.lean, `Canonical` and
`InRange`), and the tables INIT builds are both.
-/

namespace Sys2Proof.Machine

/-! ### The tables INIT builds -/

/-- A property of arrays that every write of R107's loop keeps holds of LOG. -/
theorem logMemory_induct {P : Memory → Prop} (h0 : P .zeros) (hw : ∀ m (a b : Byte), P m → P (m.write a.toNat b)) :
    P logMemory := by
  have key : ∀ (L : List (Byte × Nat)) (m : Memory), P m →
      P (L.foldl (fun m p => m.write p.1.toNat (BitVec.ofNat 8 p.2)) m) := by
    intro L
    induction L with
    | nil => exact fun m h => h
    | cons p L ih => exact fun m h => ih _ (hw m p.1 _ h)
  exact key _ _ (hw .zeros 0 0 h0)

theorem builtTables_exp : builtTables.exp = Memory.ofBytes 0 expBytes := by simp only [builtTables]
theorem builtTables_log : builtTables.log = logMemory := by simp only [builtTables]

theorem builtTables_exp_wf : builtTables.exp.wf := by rw [builtTables_exp]; exact Memory.ofBytes_wf _ _

theorem builtTables_log_wf : builtTables.log.wf := by
  rw [builtTables_log]
  exact logMemory_induct (P := Memory.wf) Memory.wf_zeros fun m a b h => Memory.write_wf h _ _

theorem builtTables_exp_inRange : ∀ c ∈ builtTables.exp.cells, c.1 < 512 := by
  rw [builtTables_exp]
  intro c hc
  have h := Memory.mem_ofBytes hc
  have hl : expBytes.length = 512 := by
    simp only [expBytes, List.length_append, List.length_drop, alphaPowers_length, List.length_singleton]
  omega

theorem builtTables_log_inRange : ∀ c ∈ builtTables.log.cells, c.1 < 256 := by
  rw [builtTables_log]
  refine logMemory_induct (P := fun m => ∀ c ∈ m.cells, c.1 < 256) (by simp [Memory.zeros]) fun m a b h c hc => ?_
  rcases Memory.mem_write hc with rfl | hc
  · exact a.isLt
  · exact h c hc

/-! ### Canonical form -/

theorem Canonical.setPoly {s : State} (h : Canonical s) (p : PIdx) (v : Poly) : Canonical (s.setPoly p v) :=
  { h with polys := Memory.writeAll_wf h.polys _ _ }

theorem Canonical.effectSynd {s : State} (h : Canonical s) : Canonical (effectSynd s) :=
  { h.setPoly SYN _ with }

theorem Canonical.effectGamma {s : State} (h : Canonical s) : Canonical (effectGamma s) := h.setPoly GAMMA _

theorem Canonical.effectBmsolve {s : State} (h : Canonical s) : Canonical (effectBmsolve s) :=
  { (h.setPoly LAMBDA _).setPoly OMEGA _ with }

theorem Canonical.effectChien {s : State} (h : Canonical s) : Canonical (effectChien s) :=
  { h with errloc := Memory.ofBytes_wf _ _ }

theorem Canonical.forneyBody {s : State} (h : Canonical s) (v : Word) : Canonical (forneyBody v s) := by
  rcases forneyBody_cases v s with ⟨-, e⟩ | ⟨-, -, e⟩ | ⟨-, -, -, e⟩
  · rw [e]; exact { h with }
  · rw [e]; exact { h with }
  · obtain ⟨cw, errors, errInfo, errCmd, sc, e2, -, hw, -⟩ := forneyFold_frame v s.locations s
    rw [e, e2]
    exact { h with cw := (hw h.cw).1 }

theorem Canonical.withScratch {s : State} (h : Canonical s) (sc : Scratch) : Canonical (s.withScratch sc) := { h with }

/-- Every command's effect keeps the canonical form of every array. -/
theorem Canonical.effectOf {s : State} (h : Canonical s) (i : Instr) : Canonical (effectOf i s) := by
  cases i with
  | init =>
    exact { h with polys := Memory.ofBytes_wf _ _, errloc := Memory.wf_zeros, exp := builtTables_exp_wf,
                   log := builtTables_log_wf }
  | gmul a b => exact { h with }
  | ginv a =>
    show Canonical (effectGinv a s)
    unfold effectGinv
    simp only
    split <;> exact { h with }
  | pzero pd => exact h.setPoly pd _
  | pcopy pd pa => exact h.setPoly pd _
  | padd pd pa pb => exact h.setPoly pd _
  | pscale pd pa k => exact h.setPoly pd _
  | pmul pd pa pb => exact h.setPoly pd _
  | pshz pd pa => exact h.setPoly pd _
  | encode => exact { h with cw := Memory.writeAll_wf h.cw _ _ }
  | synd => exact h.effectSynd
  | gamma => exact h.effectGamma
  | bmsolve => exact h.effectBmsolve
  | chien => exact h.effectChien
  | forney => exact h.forneyBody _
  | correct =>
    show Canonical (effectCorrect s)
    cases hc : (Machine.effectSynd s).clean with
    | true =>
      obtain ⟨sc, e⟩ := effectCorrect_clean hc
      rw [e]
      exact { h.effectSynd with }
    | false =>
      obtain ⟨sc, e⟩ := effectCorrect_dirty hc
      rw [e]
      exact (h.effectSynd.effectGamma.effectBmsolve.effectChien.forneyBody _).withScratch sc

/-- The arrays a reset leaves, no element written, are in canonical form (R41). -/
theorem Canonical.resetFrom (c : Config) (d : Nat) : Canonical (State.resetFrom c d) :=
  ⟨Memory.wf_unwritten _, Memory.wf_unwritten _, Memory.wf_unwritten _, Memory.wf_unwritten _, Memory.wf_unwritten _,
    Memory.wf_unwritten _⟩

/-! ### Bounds -/

/-- The arrays a reset leaves list nothing. -/
theorem InRange.resetFrom (c : Config) (d : Nat) : InRange (State.resetFrom c d) := by
  constructor <;> exact fun _ h => nomatch h


/-- A register that exists, written with MAXDEG coefficients at most, leaves the register file in bounds. -/
theorem InRange.setPoly {s : State} (h : InRange s) {p : PIdx} (hp : p.toNat ≤ 12) {v : Poly} (hv : v.length ≤ s.maxdeg) :
    InRange (s.setPoly p v) := by
  refine { h with polys := fun c hc => ?_ }
  rcases Memory.mem_writeAll hc with hc | hc
  · have := s.maxdeg_le
    rw [polySlot] at hc
    show c.1 / 512 ≤ 12 ∧ c.1 % 512 < s.maxdeg
    omega
  · exact h.polys c hc

theorem length_erasureLocator (t : Tables) (n : Nat) (es : List Byte) : (erasureLocator t n es).length = n := by
  have key : ∀ (es : List Byte) (g : Poly), g.length = n →
      (es.foldl (fun g e => polyAdd n g (polyShift n (polyScale t n (t.expAt e.toNat) g))) g).length = n := by
    intro es
    induction es with
    | nil => exact fun g h => h
    | cons e es ih => exact fun g h => ih _ (by simp [polyAdd])
  exact key es _ (by simp [polyConst])

/-- The locator BMSOLVE finds has as many coefficients as Γ. -/
theorem length_bmRun_psi (t : Tables) (n : Nat) (syn gamma : Poly) (ecnt npar : Nat) (h : gamma.length = n) :
    (bmRun t n syn gamma ecnt npar).psi.length = n := by
  have step : ∀ (b : BmScratch) (m : Nat), b.psi.length = n → (bmStep t n syn b m).psi.length = n := by
    intro b m hb
    unfold bmStep
    simp only
    split
    · exact hb
    · split <;> simp [polyAdd]
  have key : ∀ (ms : List Nat) (b : BmScratch), b.psi.length = n → (ms.foldl (bmStep t n syn) b).psi.length = n := by
    intro ms
    induction ms with
    | nil => exact fun b h => h
    | cons m ms ih => exact fun b h => ih _ (step b m h)
  exact key _ _ h

/-- The generator INIT computes has MAXDEG coefficients (R108, R120). -/
theorem length_generator (t : Tables) (n npar : Nat) : (generator t n npar).length = n := by
  unfold generator
  generalize List.range npar = L
  rw [← List.reverse_reverse L, List.foldl_reverse]
  cases L.reverse with
  | nil => simp
  | cons a L => simp

theorem InRange.effectSynd {s : State} (h : InRange s) : InRange (effectSynd s) :=
  { h.setPoly (p := SYN) (by decide) (v := (List.range s.maxdeg).map _) (by simp) with }

theorem InRange.effectGamma {s : State} (h : InRange s) : InRange (effectGamma s) :=
  h.setPoly (by decide) (by rw [length_erasureLocator])

theorem InRange.effectBmsolve {s : State} (h : InRange s) : InRange (effectBmsolve s) := by
  have h1 := h.setPoly (p := LAMBDA) (by decide)
    (v := (bmRun s.tables s.maxdeg (s.poly SYN) (s.poly GAMMA) s.ecnt.toNat s.npar).psi)
    (by rw [length_bmRun_psi _ _ _ _ _ _ (by simp [State.poly])])
  exact { h1.setPoly (p := OMEGA) (by decide) (v := evaluator _ s.maxdeg _ _ _)
    (by simp [evaluator, State.maxdeg]) with }

theorem length_rootLocations (t : Tables) (n : Nat) (p : Poly) : (rootLocations t n p).length ≤ 255 := by
  rw [rootLocations, List.length_map]
  exact (List.length_filter_le _ _).trans (by simp)

theorem InRange.effectChien {s : State} (h : InRange s) : InRange (effectChien s) := by
  refine { h with errloc := fun c hc => ?_ }
  have := Memory.mem_ofBytes hc
  have := length_rootLocations s.tables s.maxdeg (s.poly LAMBDA)
  omega

theorem InRange.forneyBody {s : State} (h : InRange s) (v : Word) : InRange (forneyBody v s) := by
  rcases forneyBody_cases v s with ⟨-, e⟩ | ⟨-, -, e⟩ | ⟨hb, -, -, e⟩
  · rw [e]; exact { h with }
  · rw [e]; exact { h with }
  · obtain ⟨cw, errors, errInfo, errCmd, sc, e2, -, -, hm⟩ := forneyFold_frame v s.locations s
    rw [e, e2]
    refine { h with cw := fun c hc => ?_ }
    rcases hm c hc with hc | ⟨d, hd, hc⟩
    · exact h.cw c hc
    · have := hb d hd
      have := s.len.isLt
      omega

theorem InRange.withScratch {s : State} (h : InRange s) (sc : Scratch) : InRange (s.withScratch sc) := { h with }

/-- Every command's effect keeps every array in bounds, when the command is well formed and passes its issue checks. -/
theorem InRange.effectOf {s : State} (h : InRange s) {i : Instr} (hw : WellFormed i) (hp : Passes i s) :
    InRange (effectOf i s) := by
  have reg : ∀ p ∈ i.indices, p.toNat ≤ 12 := fun p hm => by
    have := List.all_eq_true.1 hw p hm
    simpa [PIdx.named] using this
  cases i with
  | init =>
    refine { h with polys := fun c hc => ?_, errloc := by simp [Machine.effectOf, effectInit, Memory.zeros],
                    exp := builtTables_exp_inRange, log := builtTables_log_inRange }
    have hc := Memory.mem_ofBytes hc
    have := s.maxdeg_le
    rw [length_generator, polySlot, show GEN.toNat = 8 from rfl] at hc
    show c.1 / 512 ≤ 12 ∧ c.1 % 512 < s.maxdeg
    omega
  | gmul a b => exact { h with }
  | ginv a =>
    show InRange (effectGinv a s)
    unfold effectGinv
    simp only
    split <;> exact { h with }
  | pzero pd => exact h.setPoly (reg pd (by simp [Instr.indices])) (by simp [polyZero])
  | pcopy pd pa => exact h.setPoly (reg pd (by simp [Instr.indices])) (by simp [State.poly])
  | padd pd pa pb => exact h.setPoly (reg pd (by simp [Instr.indices])) (by simp [polyAdd])
  | pscale pd pa k => exact h.setPoly (reg pd (by simp [Instr.indices])) (by simp [polyScale])
  | pmul pd pa pb => exact h.setPoly (reg pd (by simp [Instr.indices])) (by simp [polyMul])
  | pshz pd pa => exact h.setPoly (reg pd (by simp [Instr.indices])) (by simp [polyShift])
  | encode =>
    refine { h with cw := fun c hc => ?_ }
    have hp2 : ¬255 < s.len.toNat + s.npar := hp.2.2
    rcases Memory.mem_writeAll hc with hc | hc
    · simp only [List.length_map, List.length_range] at hc
      omega
    · exact h.cw c hc
  | synd => exact h.effectSynd
  | gamma => exact h.effectGamma
  | bmsolve => exact h.effectBmsolve
  | chien => exact h.effectChien
  | forney => exact h.forneyBody _
  | correct =>
    show InRange (effectCorrect s)
    cases hc : (Machine.effectSynd s).clean with
    | true =>
      obtain ⟨sc, e⟩ := effectCorrect_clean hc
      rw [e]
      exact { h.effectSynd with }
    | false =>
      obtain ⟨sc, e⟩ := effectCorrect_dirty hc
      rw [e]
      exact (h.effectSynd.effectGamma.effectBmsolve.effectChien.forneyBody _).withScratch sc

/-! ### INIT -/

/-- The register file INIT leaves: GEN holds G(x), and every other register 0 (R109). -/
theorem poly_effectInit_gen (s : State) :
    (effectInit s).poly GEN = generator builtTables s.maxdeg s.nparReq.toNat := by
  refine poly_ext (by rw [length_generator]; exact State.length_poly _ _) fun i hi => ?_
  have hm : i < s.maxdeg := by rwa [State.length_poly] at hi
  rw [State.coef_poly, if_pos (c := i < (effectInit s).maxdeg) hm]
  have hpolys : (effectInit s).polys =
      Memory.ofBytes (polySlot GEN.toNat 0) (generator builtTables s.maxdeg s.nparReq.toNat) := by
    simp only [effectInit]
  have e : polySlot GEN.toNat i - polySlot GEN.toNat 0 = i := by rw [polySlot, polySlot]; omega
  rw [hpolys, Memory.read_ofBytes, length_generator, if_pos (by rw [polySlot, polySlot]; omega), coef, e]

/-- INIT boots the block (R109, R233). -/
theorem Booted.effectInit {s : State} (h : paramInit s = false) : Booted (effectInit s) := by
  have hp : s.nparReq.toNat ≠ 0 ∧ s.nparReq.toNat ≤ s.config.nparMax := by
    have h2 : ¬(s.nparReq = 0 ∨ s.config.nparMax < s.nparReq.toNat) := by simpa [paramInit] using h
    refine ⟨fun h3 => h2 (.inl (BitVec.eq_of_toNat_eq h3)), by omega⟩
  have hn : (Machine.effectInit s).npar = s.nparReq.toNat := by simp only [Machine.effectInit, State.npar]
  refine ⟨by simp only [Machine.effectInit], by omega, ?_, ?_⟩
  · rw [hn]; exact hp.2
  · rw [hn]; exact poly_effectInit_gen s

end Sys2Proof.Machine
end

