-- ==== Sys2Proof/Laws/PerInstr.lean ====
section
/-!
SUPPORT. Facts about every command as syntax, one lemma per command: the opcode byte its word carries (30_encoding.md
rule R87).
-/

namespace Sys2Proof.Laws.OpcodeByte

/-- The opcode column of R87. -/
def opcodeOf : Instr → Byte
  | .init => 0x01
  | .gmul _ _ => 0x10
  | .ginv _ => 0x11
  | .pzero _ => 0x20
  | .pcopy _ _ => 0x21
  | .padd _ _ _ => 0x22
  | .pscale _ _ _ => 0x23
  | .pmul _ _ _ => 0x24
  | .pshz _ _ => 0x25
  | .encode => 0x30
  | .synd => 0x31
  | .gamma => 0x32
  | .bmsolve => 0x33
  | .chien => 0x34
  | .forney => 0x35
  | .correct => 0x36

/-- The word of a command carries its opcode in bits [7:0]. -/
def Statement (i : Instr) : Prop := fieldOp (Sys2Proof.encode i) = opcodeOf i

theorem init : Statement .init := fieldOp_formatC ..
theorem gmul (a b : Byte) : Statement (.gmul a b) := fieldOp_formatS ..
theorem ginv (a : Byte) : Statement (.ginv a) := fieldOp_formatS ..
theorem pzero (pd : PIdx) : Statement (.pzero pd) := fieldOp_formatP ..
theorem pcopy (pd pa : PIdx) : Statement (.pcopy pd pa) := fieldOp_formatP ..
theorem padd (pd pa pb : PIdx) : Statement (.padd pd pa pb) := fieldOp_formatP ..
theorem pscale (pd pa : PIdx) (k : Byte) : Statement (.pscale pd pa k) := fieldOp_formatP ..
theorem pmul (pd pa pb : PIdx) : Statement (.pmul pd pa pb) := fieldOp_formatP ..
theorem pshz (pd pa : PIdx) : Statement (.pshz pd pa) := fieldOp_formatP ..
theorem encode : Statement .encode := fieldOp_formatC ..
theorem synd : Statement .synd := fieldOp_formatC ..
theorem gamma : Statement .gamma := fieldOp_formatC ..
theorem bmsolve : Statement .bmsolve := fieldOp_formatC ..
theorem chien : Statement .chien := fieldOp_formatC ..
theorem forney : Statement .forney := fieldOp_formatC ..
theorem correct : Statement .correct := fieldOp_formatC ..

end Sys2Proof.Laws.OpcodeByte
end

