-- ==== Sys2Proof/Tests/Slice0.lean ====
section
/-!
SUPPORT. The model's own tests: the well-formedness checks, words written out from the spec's encodings, one-step tests of
every command with the expected values of 95_test_vectors.md, and a named witness for every statement that has
hypotheses.
-/

set_option Elab.async false

namespace Sys2Proof.Tests

open Sys2Proof.Machine

/-! ### Well-formedness: each index check refuses 13, 14 and 15, and admits 12 (R85) -/

theorem test_wf_pzero : wellFormed (.pzero 13) = false ∧ wellFormed (.pzero 12) = true := by decide
theorem test_wf_pcopy : wellFormed (.pcopy 14 0) = false ∧ wellFormed (.pcopy 0 15) = false ∧ wellFormed (.pcopy 12 12) = true := by decide
theorem test_wf_padd : wellFormed (.padd 13 0 0) = false ∧ wellFormed (.padd 0 13 0) = false ∧ wellFormed (.padd 0 0 13) = false ∧
    wellFormed (.padd 12 12 12) = true := by decide
theorem test_wf_pscale : wellFormed (.pscale 15 0 1) = false ∧ wellFormed (.pscale 0 14 1) = false ∧ wellFormed (.pscale 12 12 255) = true := by
  decide
theorem test_wf_pmul : wellFormed (.pmul 15 0 0) = false ∧ wellFormed (.pmul 0 14 0) = false ∧ wellFormed (.pmul 0 0 13) = false ∧
    wellFormed (.pmul 12 12 12) = true := by decide
theorem test_wf_pshz : wellFormed (.pshz 13 0) = false ∧ wellFormed (.pshz 0 13) = false ∧ wellFormed (.pshz 12 12) = true := by decide

/-! ### Decoding: one word of every command, written bit by bit from R81 to R83 and R87 -/

-- Format C: reserved[31:8], OP[7:0].
theorem test_decode_init : decode 0b000000000000000000000000_00000001 = .legal .init := by decide
theorem test_decode_encode : decode 0b000000000000000000000000_00110000 = .legal .encode := by decide
theorem test_decode_synd : decode 0b000000000000000000000000_00110001 = .legal .synd := by decide
theorem test_decode_gamma : decode 0b000000000000000000000000_00110010 = .legal .gamma := by decide
theorem test_decode_bmsolve : decode 0b000000000000000000000000_00110011 = .legal .bmsolve := by decide
theorem test_decode_chien : decode 0b000000000000000000000000_00110100 = .legal .chien := by decide
theorem test_decode_forney : decode 0b000000000000000000000000_00110101 = .legal .forney := by decide
theorem test_decode_correct : decode 0b000000000000000000000000_00110110 = .legal .correct := by decide
-- Format S: B[31:24], A[23:16], reserved[15:8], OP[7:0].
theorem test_decode_gmul : decode 0b10000000_00000010_00000000_00010000 = .legal (.gmul 0x02 0x80) := by decide
theorem test_decode_ginv : decode 0b00000000_01010011_00000000_00010001 = .legal (.ginv 0x53) := by decide
-- Format P: K[31:24], reserved[23:20], PB[19:16], PA[15:12], PD[11:8], OP[7:0].
theorem test_decode_pzero : decode 0b00000000_0000_0000_0000_0001_00100000 = .legal (.pzero 1) := by decide
theorem test_decode_pcopy : decode 0b00000000_0000_0000_1000_0111_00100001 = .legal (.pcopy 7 8) := by decide
theorem test_decode_padd : decode 0b00000000_0000_0010_0001_0101_00100010 = .legal (.padd 5 1 2) := by decide
theorem test_decode_pscale : decode 0b00000010_0000_0000_0001_0100_00100011 = .legal (.pscale 4 1 2) := by decide
theorem test_decode_pmul : decode 0b00000000_0000_0010_0001_0011_00100100 = .legal (.pmul 3 1 2) := by decide
theorem test_decode_pshz : decode 0b00000000_0000_0000_0001_0110_00100101 = .legal (.pshz 6 1) := by decide

-- The refusals of 95_test_vectors.md sections 2.2, 2.3 and 2.8.
theorem test_decode_reserved : decode 0x00000000 = .illegal .reservedOpcode ∧ decode 0x00000037 = .illegal .reservedOpcode ∧
    decode 0x00000002 = .illegal .reservedOpcode ∧ decode 0x00000026 = .illegal .reservedOpcode := by decide
theorem test_decode_mustBeZero : decode 0x01020011 = .illegal .mustBeZeroBit ∧ decode 0x00E01421 = .illegal .mustBeZeroBit ∧
    decode 0x00121522 = .illegal .mustBeZeroBit ∧ decode 0x00000101 = .illegal .mustBeZeroBit := by decide
theorem test_decode_badIndex : decode 0x00000D20 = .illegal .badIndex ∧ decode 0x0000F121 = .illegal .badIndex := by decide

theorem test_encode : encode (.pscale 4 1 2) = 0x02001423 ∧ encode (.gmul 0x53 0xCA) = 0xCA530010 ∧
    encode (.pmul 3 1 2) = 0x00021324 ∧ encode .correct = 0x00000036 := by decide

theorem test_tableWord : decodeTableWord 32 0x00000033 = some .bmsolve ∧ decodeTableWord 32 0x00000D20 = none := by decide

/-! ### One step of each command -/

/-- What holds of the next state, if there is one. -/
def after (r : Result) (p : State → Bool) : Bool :=
  match r with
  | .next t => p t
  | .fault _ => false
  | .refused _ => false

/-- The array that holds the given elements, and 0 elsewhere. -/
def listed (cs : List Host.Cell) : Memory := ⟨.zero, cs⟩

/-- The entries of the tables of 95_test_vectors.md section 2.1 that the one-step tests look up. -/
def someTables : Tables where
  exp := listed <| [(0x0, 0x01), (0x1, 0x02), (0x2, 0x04), (0x3, 0x08), (0x4, 0x10), (0x7, 0x80), (0xA, 0x74), (0x19, 0x03)] ++
      [(0x1A, 0x06), (0x24, 0x25), (0x31, 0x8C), (0x32, 0x05), (0x33, 0x0A), (0x3E, 0xDE), (0x43, 0xC2), (0x48, 0x65)] ++
      [(0x4B, 0x0F), (0x4C, 0x1E), (0x51, 0xE7), (0x53, 0xBB), (0x5A, 0xDF), (0x6C, 0xD0), (0x74, 0xF8), (0x77, 0x93)] ++
      [(0x96, 0x55), (0x98, 0x49), (0xAC, 0x7B), (0xB3, 0x4B), (0xD8, 0xC3), (0xD9, 0x9B), (0xDD, 0x45), (0xED, 0x8B)] ++
      [(0xF5, 0xE9), (0xFA, 0x6C), (0xFB, 0xD8), (0xFC, 0xAD), (0xFD, 0x47), (0xFF, 0x01), (0x102, 0x08), (0x11A, 0x0C)] ++
      [(0x11F, 0x9D), (0x121, 0x4E), (0x129, 0xB5), (0x134, 0x28), (0x138, 0xBA), (0x13F, 0x5F), (0x155, 0xB1), (0x15E, 0xE2)] ++
      [(0x16E, 0xCE), (0x171, 0x3E), (0x18A, 0x42), (0x18D, 0x2A), (0x190, 0x4D), (0x1CE, 0xA6), (0x1D4, 0xF2)]
  log := listed <| [(0x2, 0x01), (0x3, 0x19), (0x4, 0x02), (0x5, 0x32), (0x6, 0x1A), (0x8, 0x03), (0x10, 0x04), (0x14, 0x34)] ++
      [(0x1E, 0x4C), (0x24, 0xE1), (0x25, 0x24), (0x2A, 0x8E), (0x2D, 0x12), (0x47, 0xFD), (0x49, 0x98), (0x4B, 0xB3)] ++
      [(0x53, 0xCE), (0x65, 0x48), (0x6C, 0xFA), (0x74, 0x0A), (0x7B, 0xAC), (0x80, 0x07), (0x84, 0x8C), (0x88, 0x67)] ++
      [(0x8B, 0xED), (0x93, 0x77), (0x9B, 0xD9), (0x9F, 0x2E), (0xA4, 0x95), (0xA5, 0xBC), (0xA8, 0x90), (0xB0, 0xF2)] ++
      [(0xBB, 0x53), (0xC2, 0x43), (0xD8, 0xFB), (0xDF, 0x5A), (0xE7, 0x51), (0xE9, 0xF5), (0xF8, 0x74), (0xFF, 0xAF)]

/-- A block of the instance NPAR_MAX = 4 after INIT with NPAR = 4, but for GEN, with a command pending, the Host having
written 0 to CW and ERA. -/
def busyBlock : State :=
  { State.reset with
    nparAct := 4
    initDone := true
    tables := someTables
    polys := .zeros
    errloc := .zeros
    cw := .zeros
    era := .zeros
    pending := some 0 }

/-- The same with no command pending. -/
def idleBlock : State := { busyBlock with pending := none }

/-- P[p] holds the given coefficients from index 0 on, and 0 above them. -/
def holds (t : State) (p : PIdx) (v : Poly) : Bool := (List.range 8).all (fun i => t.coefAt p i == coef v i)

/-- The start state of 95_test_vectors.md section 2.3: P1 = 01 02 03 and P2 = 05 00 01. -/
def polyBlock : State := (busyBlock.setPoly 1 [1, 2, 3]).setPoly 2 [5, 0, 1]

-- 2.8: PARAM at INIT when NPAR_REQ = 5 > NPAR_MAX = 4.
theorem test_init_param :
    after (exec .init { State.reset with nparReq := 5 }) (fun t => t.status == 0x1000 && t.errInfoWord == 5 && !t.initDone) = true := by
  decide +kernel
-- 2.1 and 2.4: spot checks of the tables, and GEN = 02 01 at NPAR = 1.
theorem test_init : after (exec .init { State.reset with nparReq := 1, pending := some 1 }) (fun t =>
    t.tables.exp.read 8 == 0x1D && t.tables.exp.read 25 == 0x03 && t.tables.exp.read 254 == 0x8E && t.tables.exp.read 511 == 0x02 &&
    t.tables.log.read 2 == 0x01 && t.tables.log.read 255 == 0xAF && holds t GEN [2, 1] && t.cfg == 0x00010001 && t.initDone) = true := by
  decide +kernel
-- 2.2.
theorem test_gmul : after (exec (.gmul 0xFF 0xFF) busyBlock) (fun t => t.result == 0xE2) = true := by decide +kernel
theorem test_gmul_zero : after (exec (.gmul 0x00 0x53) busyBlock) (fun t => t.result == 0x00) = true := by decide +kernel
theorem test_ginv : after (exec (.ginv 0x53) busyBlock) (fun t => t.result == 0x8C && t.errInfoWord == 0) = true := by decide +kernel
theorem test_ginv_zero : after (exec (.ginv 0) busyBlock) (fun t =>
    t.result == 0x01 && t.errors.zdiv && t.errInfoWord == 6 && t.errCmd == 0x00000011) = true := by decide +kernel
-- 2.3.
theorem test_pzero : after (exec (.pzero 1) polyBlock) (fun t => holds t 1 [] && holds t 2 [5, 0, 1]) = true := by decide +kernel
theorem test_pzero_gen : after (exec (.pzero GEN) idleBlock) (fun t =>
    t.errors.ro && t.errInfoWord == 4 && t.errCmd == 0x00000820 && t.pending == none) = true := by decide +kernel
theorem test_pcopy : after (exec (.pcopy 7 8) (polyBlock.setPoly 8 [0x74, 0xE7, 0xD8, 0x1E, 1])) (fun t =>
    holds t 7 [0x74, 0xE7, 0xD8, 0x1E, 1]) = true := by decide +kernel
theorem test_padd : after (exec (.padd 5 1 2) polyBlock) (fun t => holds t 5 [4, 2, 2]) = true := by decide +kernel
theorem test_padd_same : after (exec (.padd 1 1 1) polyBlock) (fun t => holds t 1 []) = true := by decide +kernel
theorem test_pscale : after (exec (.pscale 4 1 2) polyBlock) (fun t => holds t 4 [2, 4, 6] && holds t 1 [1, 2, 3]) = true := by
  decide +kernel
theorem test_pscale_gen : after (exec (.pscale 8 0 1) idleBlock) (fun t =>
    t.errors.ro && t.errInfoWord == 4 && t.errCmd == 0x01000823) = true := by decide +kernel
theorem test_pmul : after (exec (.pmul 3 1 2) polyBlock) (fun t => holds t 3 [0x05, 0x0A, 0x0E, 0x02, 0x03]) = true := by
  decide +kernel
theorem test_pmul_same : after (exec (.pmul 1 1 1) polyBlock) (fun t => holds t 1 [1, 0, 4, 0, 5]) = true := by decide +kernel
theorem test_pshz : after (exec (.pshz 6 1) polyBlock) (fun t => holds t 6 [0, 1, 2, 3]) = true := by decide +kernel
theorem test_pshz_truncates : after (exec (.pshz 6 1) (busyBlock.setPoly 1 [9, 0, 0, 0, 0, 0, 0, 0x77])) (fun t =>
    holds t 6 [0, 9]) = true := by decide +kernel
-- 2.4: LEN = 1 and CW = 01; and LEN = 252 at NPAR = 4 is PARAM.
theorem test_encode_one : after (exec .encode ({ busyBlock with cw := listed [(0, 1)], len := 1 }.setPoly 8 [0x74, 0xE7, 0xD8, 0x1E, 1]))
    (fun t => t.cw.bytes 0 6 == [0x01, 0x1E, 0xD8, 0xE7, 0x74, 0x00] && t.len == 1) = true := by decide +kernel
theorem test_encode_param : after (exec .encode { idleBlock with len := 252 }) (fun t => t.errors.param && t.errInfoWord == 5) = true ∧
    after (exec .encode { idleBlock with len := 251 }) (fun t => t.pending == some 0x30 && t.errInfoWord == 0) = true := by decide +kernel
-- 2.5: LEN = 2 and CW = 01 00.
theorem test_synd : after (exec .synd { busyBlock with cw := listed [(0, 1)], len := 2 }) (fun t =>
    holds t SYN [2, 4, 8, 16] && !t.clean) = true := by decide +kernel
theorem test_synd_empty : after (exec .synd busyBlock) (fun t => holds t SYN [] && t.clean) = true := by decide +kernel
-- 2.6: ERA = 1, 2; and 2.8: location 7 is not < LEN = 7.
theorem test_gamma : after (exec .gamma { busyBlock with era := listed [(0, 1), (1, 2)], ecnt := 2 }) (fun t =>
    holds t GAMMA [1, 6, 8]) = true := by decide +kernel
theorem test_gamma_param : after (exec .gamma { idleBlock with era := listed [(0, 5), (1, 7)], ecnt := 2, len := 7 }) (fun t =>
    t.errors.param && t.errInfoWord == 5 && t.errCmd == 0x00000032) = true := by decide +kernel
-- Program P3: one error and two erasures.
theorem test_bmsolve : after (exec .bmsolve
    (({ busyBlock with ecnt := 2 }.setPoly SYN [0xD8, 0x65, 0x06, 0x93]).setPoly GAMMA [0x01, 0x24, 0x80])) (fun t =>
    holds t LAMBDA [0x01, 0x25, 0xA4, 0x80] && holds t OMEGA [0xD8, 0xF8, 0x9B] && t.bmL == 3) = true := by decide +kernel
theorem test_bmsolve_param : after (exec .bmsolve { idleBlock with nparAct := 2, ecnt := 3 }) (fun t => t.errInfoWord == 5) = true := by
  decide +kernel
-- 2.6: the zero polynomial, and a constant.
theorem test_chien_zero : after (exec .chien busyBlock) (fun t =>
    t.nerr == 255 && t.errloc.read 0 == 254 && t.errloc.read 253 == 1 && t.errloc.read 254 == 0) = true := by decide +kernel
theorem test_chien_constant : after (exec .chien ({ busyBlock with errloc := listed [(0, 9)] }.setPoly LAMBDA [1])) (fun t =>
    t.nerr == 0 && t.errloc == .zeros) = true := by decide +kernel
-- Program P3 again; and 2.8: bounds are checked before capacity.
def forneyBlock : State :=
  { busyBlock with
    nerr := 3
    errloc := listed [(0, 5), (1, 2)]
    len := 7
    cw := listed [(0, 0x41), (2, 0x43), (3, 0x23), (5, 0xB3), (6, 0x6F)] }

theorem test_forney :
    after (exec .forney ((forneyBlock.setPoly LAMBDA [0x01, 0x25, 0xA4, 0x80]).setPoly OMEGA [0xD8, 0xF8, 0x9B])) (fun t =>
      t.cw.bytes 0 8 == [0x41, 0x42, 0x43, 0x23, 0x4E, 0xB3, 0x3A, 0x00] && t.status == 0x26) = true := by decide +kernel
theorem test_forney_bounds : after (exec .forney { busyBlock with nerr := 255, errloc := listed [(0, 254)], len := 7, cw := listed [(0, 1)] })
    (fun t => t.status == 0xB2 && t.cw == listed [(0, 1)]) = true := by decide +kernel
-- The property T7 of 1.2 on the empty codeword; and 2.8: ECNT = 5 > NPAR = 4.
theorem test_correct_clean : after (exec .correct { busyBlock with ecnt := 1, era := listed [(0, 3)], cw := listed [(0, 7)] }) (fun t =>
    t.status == 0x1E && t.cw == listed [(0, 7)] && t.nerr == 0) = true := by decide +kernel
theorem test_correct_param : after (exec .correct { idleBlock with ecnt := 5 }) (fun t =>
    t.errInfoWord == 5 && t.errCmd == 0x00000036 && t.pending == none) = true := by decide +kernel

/-! ### The bus, one step (95_test_vectors.md section 2.8 and program P6) -/

theorem test_step_notInit : after (step (State.reset.withFetchWord 32 0x00000010)) (fun t =>
    t.status == 0x400 && t.errInfoWord == 3 && t.inputs == []) = true := by decide +kernel
theorem test_step_illegal : after (step (State.reset.withFetchWord 32 0x00000000)) (fun t =>
    t.status == 0x200 && t.errInfoWord == 2) = true := by decide +kernel
theorem test_step_priority : after (step (State.reset.withFetchWord 32 0x00000820)) (fun t => t.status == 0x400) = true := by
  decide +kernel
theorem test_step_init_param : after (step (State.reset.withFetchWord 32 0x00000001)) (fun t =>
    t.status == 0x1000 && t.errInfoWord == 5 && t.errCmd == 1) = true := by decide +kernel
theorem test_step_read_cap : after (step { State.reset with inputs := [.read 0x0004] }) (fun t =>
    t.reads == [(0x0004, 0x00080004)]) = true := by decide +kernel

-- R41: a CW byte the Host has not written since reset is a free value, one it has written is that byte.
theorem test_step_unwritten : step { State.reset with inputs := [.read 0x1004] } =
    .next { State.reset with reads := [(0x1004, elementWord (Config.freeByte 0x401))] } := rfl
theorem test_step_written : after (step { State.reset with inputs := [.write 0x1004 0x5A] }) (fun t =>
    t.cw.read 1 == 0x5A && t.value (locate t.config 0x1004) == 0x5A) = true := by decide +kernel

/-! ### Witnesses: for every statement with hypotheses, states and operands that meet them all -/

/-- s with one act of the outside world to come, which moves next although a command may be pending. -/
def acting (s : State) (a : Input) : State := { s with inputs := [a], engineWait := 1 }

/-- The outside world acts in `acting s a`. -/
theorem acts (s : State) (a : Input) : OutsideActs (acting s a) a [] :=
  ⟨State.engineTurn_eq_none.2 (.inr ⟨by simp [acting], by simp [acting]⟩), rfl⟩

/-- The block of reset with NPAR_REQ = 4, after INIT's effect. -/
def bootedBlock : State := effectInit { State.reset with nparReq := 4 }

theorem booted_bootedBlock : Booted bootedBlock := Booted.effectInit (by decide)

theorem canonical_reset : Canonical State.reset := Canonical.resetFrom _ 0

theorem canonical_bootedBlock : Canonical bootedBlock :=
  Canonical.effectOf (i := .init) (s := { State.reset with nparReq := 4 }) { canonical_reset with }

/-- A booted block with the word of i pending. -/
def pendingBlock (i : Instr) : State := { bootedBlock with pending := some (encode i) }

/-- What the witnesses change of a good block keeps it good. -/
theorem booted_with {s : State} (h : Booted s) (p : Option Word) (l e : Byte) (c m : Memory) :
    Booted { s with pending := p, len := l, ecnt := e, cw := c, era := m } := ⟨h.tables, h.nparPos, h.nparLe, h.gen⟩
theorem canonical_with {s : State} (h : Canonical s) (p : Option Word) (l e : Byte) (w : Nat) (is : List Input) :
    Canonical { s with pending := p, len := l, ecnt := e, engineWait := w, inputs := is } :=
  ⟨h.polys, h.cw, h.era, h.errloc, h.exp, h.log⟩
theorem canonical_withCw {s : State} (h : Canonical s) (l : Byte) {c : Memory} (hc : c.wf) :
    Canonical { s with len := l, cw := c } := ⟨h.polys, hc, h.era, h.errloc, h.exp, h.log⟩

theorem booted_pendingBlock (i : Instr) : Booted (pendingBlock i) := booted_with booted_bootedBlock (some (encode i)) _ _ _ _
theorem canonical_pendingBlock (i : Instr) : Canonical (pendingBlock i) :=
  canonical_with canonical_bootedBlock (some (encode i)) _ _ _ _
theorem busy_pendingBlock (i : Instr) : (pendingBlock i).busy = true := rfl
theorem tables_pendingBlock (i : Instr) : (pendingBlock i).tables = builtTables := (booted_pendingBlock i).tables
theorem npar_pendingBlock (i : Instr) : (pendingBlock i).npar = 4 := rfl
theorem nparMax_pendingBlock (i : Instr) : (pendingBlock i).config.nparMax = 4 := rfl

-- Encoding.
theorem witness_DecodeOfEncodeIsTheCommand : WellFormed (.gmul 0xFF 0xFF) ∧ WellFormed (.pscale 12 12 0xFF) ∧
    WellFormed (.pmul 12 12 12) ∧ WellFormed .correct := by decide
theorem witness_LegalWordIsTheEncodingOfItsCommand : decode 0xFFFF0010 = .legal (.gmul 0xFF 0xFF) ∧
    decode 0x000CCC24 = .legal (.pmul 12 12 12) := by decide
theorem witness_IllegalWordsAreExactlyThoseOfTheMap :
    OutsideActs (acting State.reset (.write 0x000C 0x37)) (.write 0x000C 0x37) [] ∧ (0x000C : Addr).toNat / 4 = 3 ∧
    (acting State.reset (.write 0x000C 0x37)).resetAsserted = false ∧ (acting State.reset (.write 0x000C 0x37)).pending = none ∧
    ¬∃ r ∈ opcodeMap, r.Encodes 0x37 := by
  refine ⟨acts _ _, by decide, rfl, rfl, ?_⟩
  simp only [OpcodeRow.Encodes]
  decide

-- The step.
theorem witness_StepIssuesTheCommandWritten :
    OutsideActs (acting State.reset (.write 0x000F 0x30)) (.write 0x000F 0x30) [] ∧ (0x000F : Addr).toNat / 4 = 3 ∧
    (acting State.reset (.write 0x000F 0x30)).resetAsserted = false ∧ (acting State.reset (.write 0x000F 0x30)).pending = none ∧
    decode 0x30 = .legal .encode := ⟨acts _ _, by decide, rfl, rfl, by decide⟩
theorem witness_StepCompletesThePendingCommand : (pendingBlock .synd).pending = some 0x31 ∧ (pendingBlock .synd).engineWait = 0 ∧
    decode 0x31 = .legal .synd := ⟨by decide, rfl, by decide⟩
theorem witness_IssueFollowsTheCheckOrder_busy :
    OutsideActs (acting (pendingBlock .synd) (.write 0x000C 0x30)) (.write 0x000C 0x30) [] ∧ (0x000C : Addr).toNat / 4 = 3 ∧
    (acting (pendingBlock .synd) (.write 0x000C 0x30)).resetAsserted = false ∧
    (acting (pendingBlock .synd) (.write 0x000C 0x30)).busy = true := ⟨acts _ _, by decide, rfl, rfl⟩
theorem witness_IssueFollowsTheCheckOrder_illegal :
    (acting State.reset (.write 0x000C 0)).busy = false ∧ decode 0 = .illegal .reservedOpcode := by decide
theorem witness_IssueFollowsTheCheckOrder_notInit : (acting State.reset (.write 0x000C 0x10)).busy = false ∧
    decode 0x10 = .legal (.gmul 0 0) ∧ (.gmul 0 0 : Instr) ≠ .init ∧ State.reset.initDone = false := by decide
theorem witness_IssueFollowsTheCheckOrder_ro : bootedBlock.initDone = true ∧ decode 0x00000820 = .legal (.pzero 8) ∧
    destination (.pzero 8) = some GEN := by decide
theorem witness_IssueFollowsTheCheckOrder_paramInit :
    ParamViolation .init State.reset ∧ ParamViolation .init { State.reset with nparReq := 5 } ∧
    ¬ParamViolation .init { State.reset with nparReq := 4 } := by
  simp only [ParamViolation]; decide
theorem witness_IssueFollowsTheCheckOrder_paramEncode :
    ParamViolation .encode { bootedBlock with len := 252 } ∧ ¬ParamViolation .encode { bootedBlock with len := 251 } := by
  simp only [ParamViolation]; decide
theorem witness_IssueFollowsTheCheckOrder_paramBmsolve :
    ParamViolation .bmsolve { bootedBlock with ecnt := 5 } ∧ ¬ParamViolation .bmsolve { bootedBlock with ecnt := 4 } := by
  simp only [ParamViolation]; decide
theorem witness_IssueFollowsTheCheckOrder_paramErasures :
    ParamViolation .gamma { bootedBlock with ecnt := 5 } ∧
    ParamViolation .correct { bootedBlock with ecnt := 1, len := 7, era := listed [(0, 7)] } ∧
    ¬ParamViolation .gamma { bootedBlock with ecnt := 1, len := 7, era := listed [(0, 6)] } := by
  simp only [ParamViolation, BadErasures]; decide
theorem witness_IssueFollowsTheCheckOrder_passes : Passes .init { State.reset with nparReq := 1 } ∧ Passes .synd bootedBlock ∧
    Passes (.pcopy 1 8) bootedBlock := by
  simp only [Passes, ParamViolation]; decide
theorem witness_RejectionWritesThreeThings : ∀ p ∈ [(EventCode.illegal, 2), (.notInit, 3), (.ro, 4), (.param, 5)],
    p.1 = .illegal ∧ p.2 = 2 ∨ p.1 = .notInit ∧ p.2 = 3 ∨ p.1 = .ro ∧ p.2 = 4 ∨ p.1 = .param ∧ p.2 = 5 := by decide

-- The bus. One act at a boundary address for each clause.
theorem witness_AccessesWhileBusy (a : Input) : OutsideActs (acting (pendingBlock .synd) a) a [] ∧
    (acting (pendingBlock .synd) a).busy = true ∧ (acting (pendingBlock .synd) a).resetAsserted = false := ⟨acts _ _, rfl, rfl⟩
theorem witness_AccessesWhileBusy_clauses : (0x0010 : Addr).toNat / 4 = 4 ∧ (0x0013 : Addr).toNat / 4 = 4 ∧
    (0x000C : Addr).toNat / 4 ≠ 4 ∧ (0x0014 : Addr).toNat / 4 ≠ 4 ∧ (0x0003 : Addr).toNat / 4 = 0 ∧ (0x0007 : Addr).toNat / 4 = 1 ∧
    (0x0008 : Addr).toNat / 4 ≠ 0 ∧ (0x0008 : Addr).toNat / 4 ≠ 1 ∧ (0x0008 : Addr).toNat / 4 ≠ 4 := by decide
theorem witness_idle (a : Input) : OutsideActs (acting bootedBlock a) a [] ∧ (acting bootedBlock a).busy = false ∧
    (acting bootedBlock a).resetAsserted = false := ⟨acts _ _, rfl, rfl⟩
theorem witness_IdAndCapAreConstant : (0x0000 : Addr).toNat / 4 = 0 ∧ (0x0004 : Addr).toNat / 4 = 1 ∧ (0x0007 : Addr).toNat / 4 < 2 := by
  decide
theorem witness_RegisterReadsReturnTheValue : (0x0008 : Addr).toNat / 4 = 2 ∧ (0x000C : Addr).toNat / 4 = 3 ∧
    (0x0010 : Addr).toNat / 4 = 4 ∧ (0x0014 : Addr).toNat / 4 = 5 ∧ (0x0018 : Addr).toNat / 4 = 6 ∧ (0x001C : Addr).toNat / 4 = 7 ∧
    (0x0020 : Addr).toNat / 4 = 8 ∧ (0x0024 : Addr).toNat / 4 = 9 ∧ (0x0028 : Addr).toNat / 4 = 10 ∧ (0x002F : Addr).toNat / 4 = 11 := by
  decide
theorem witness_ArrayReadsReturnTheElement : (0x07F8 : Addr).toNat / 4 * 4 = 0x0400 + 4 * 254 ∧
    (0x080F : Addr).toNat / 4 * 4 = 0x0800 + 4 * 3 ∧ 3 < bootedBlock.config.nparMax ∧ (0x13F8 : Addr).toNat / 4 * 4 = 0x1000 + 4 * 254 ∧
    (0x801C : Addr).toNat / 4 * 4 = 0x2000 + 0x800 * (12 : PIdx).toNat + 4 * 7 ∧ 7 < bootedBlock.config.maxdeg ∧
    (0xA7FC : Addr).toNat / 4 * 4 = 0xA000 + 4 * 511 ∧ (0xABFC : Addr).toNat / 4 * 4 = 0xA800 + 4 * 255 := by decide
theorem witness_ReservedAndReadOnlyLocations_reserved (c : Config) : ReservedWord c 0xC ∧ ReservedWord c 0xFF ∧
    ReservedWord c 0x1FF ∧ ReservedWord c 0x3FF ∧ ReservedWord c 0x4FF ∧ ReservedWord c 0x7FF ∧ ReservedWord c 0x2B00 ∧
    ReservedWord c 0x3FFF ∧ ReservedWord bootedBlock.config 0x204 := by
  have := c.nparMaxLessOne.isLt
  have : c.nparMax ≤ 254 := by rw [Config.nparMax]; omega
  have : bootedBlock.config.nparMax = 4 := rfl
  unfold ReservedWord
  omega
theorem witness_ReservedAndReadOnlyLocations_poly : ReservedWord bootedBlock.config 0x808 ∧ ReservedWord bootedBlock.config 0x9FF ∧
    ReservedWord bootedBlock.config 0x2200 ∧ ReservedWord bootedBlock.config 0x27FF :=
  ⟨.inr (.inr (.inr (.inr (.inl ⟨0, 8, by decide⟩)))), .inr (.inr (.inr (.inr (.inl ⟨0, 511, by decide⟩)))),
   .inr (.inr (.inr (.inr (.inl ⟨13, 0, by decide⟩)))), .inr (.inr (.inr (.inr (.inl ⟨15, 511, by decide⟩))))⟩
theorem witness_ReservedAndReadOnlyLocations_readOnly : ∀ w ∈ [0, 1, 5, 6, 7, 10, 11, 0x100, 0x1FE, 0x1800, 0x1807, 0x2800, 0x29FF,
    0x2A00, 0x2AFF], ReadOnlyWord bootedBlock.config w := by
  simp only [ReadOnlyWord]
  decide
theorem witness_WriteChangesOnlyTheAddressedLocation (a : Input) : Canonical (acting bootedBlock a) :=
  canonical_with canonical_bootedBlock _ _ _ _ _
theorem witness_WriteChangesOnlyTheAddressedLocation_clauses : (0x0008 : Addr).toNat / 4 ≠ 3 ∧ (0x0008 : Addr).toNat / 4 = 2 ∧
    (0x0020 : Addr).toNat / 4 = 8 ∧ (0x0024 : Addr).toNat / 4 = 9 ∧ (0x080C : Addr).toNat / 4 = 0x200 + 3 ∧
    (0x13F8 : Addr).toNat / 4 = 0x400 + 254 ∧ (12 : PIdx).toNat ≤ 12 ∧ (12 : PIdx) ≠ GEN ∧
    (0x801C : Addr).toNat / 4 = 0x800 + 512 * (12 : PIdx).toNat + 7 := by decide
/-- Bit b of STATUS goes from x to y in the step of s. -/
def flips (s : State) (b : Nat) (x y : Bool) : Bool :=
  s.status.getLsbD b == x && after (step s) (fun t => t.status.getLsbD b == y)

/-- A block with ERR_RO set, idle or with SYND pending. -/
def roBlock (p : Option Word) : State := { idleBlock with pending := p, errors := { ErrorBits.clear with ro := true } }

theorem witness_ErrorBitsAreSticky_cleared : flips (acting (roBlock none) (.write 0x0010 0x00000800)) 11 true false = true ∧
    flips (acting (roBlock (some 0x31)) (.write 0x0013 0xFFFFFFFF)) 11 true false = true ∧
    flips (acting (roBlock (some 0x31)) .assertReset) 11 true false = true := by decide +kernel
theorem witness_ErrorBitsAreSticky_busy : flips (acting (roBlock (some 0x31)) (.write 0x000C 0x31)) 8 false true = true := by
  decide +kernel
theorem witness_ErrorBitsAreSticky_rejections : flips (acting State.reset (.write 0x000C 0)) 9 false true = true ∧
    flips (acting State.reset (.write 0x000C 0x10)) 10 false true = true ∧
    flips (acting idleBlock (.write 0x000C 0x00000820)) 11 false true = true ∧
    flips (acting { idleBlock with len := 252 } (.write 0x000C 0x30)) 12 false true = true := by decide +kernel
theorem witness_ErrorBitsAreSticky_zdiv : flips { busyBlock with pending := some 0x11 } 13 false true = true ∧
    flips { busyBlock with pending := some 0x35, nerr := 1, len := 1 } 13 false true = true := by decide +kernel

-- Progress and reset.
theorem witness_PollEndsWithTheCommandComplete : (acting (pendingBlock .synd) .poll).inputs = [.poll] ∧
    (acting (pendingBlock .synd) .poll).resetAsserted = false ∧ (acting (pendingBlock .synd) .poll).pending = some 0x31 ∧
    decode 0x31 = .legal .synd := ⟨rfl, rfl, by decide, by decide⟩
theorem witness_BusyActsDoNotReachTheCommand : OutsideActs (acting (pendingBlock .synd) (.write 0x0020 3)) (.write 0x0020 3) [] ∧
    (acting (pendingBlock .synd) (.write 0x0020 3)).busy = true ∧ (Input.write 0x0020 3 ≠ .assertReset) ∧
    ∃ t, step (acting (pendingBlock .synd) (.write 0x0020 3)) = .next t := by
  refine ⟨acts _ _, rfl, by decide, ?_⟩
  rw [step_outside (acts _ _).1 (acts _ _).2]
  exact outsideAct_next _ _
theorem witness_ResetDiscardsThePendingCommand : OutsideActs (acting (pendingBlock .synd) .assertReset) .assertReset [] ∧
    OutsideActs (acting { State.reset with resetAsserted := true } (.write 0x0020 3)) (.write 0x0020 3) [] ∧
    (acting { State.reset with resetAsserted := true } (.write 0x0020 3)).resetAsserted = true := ⟨acts _ _, acts _ _, rfl⟩

-- Whole-machine rules.
theorem witness_InitDoneIsClearedOnlyByReset : (∃ t, step bootedBlock = .next t) ∧ bootedBlock.initDone = true ∧
    State.reset.initDone = false ∧ State.reset.busy = false ∧ (.synd : Instr) ≠ .init :=
  ⟨⟨_, step_idle rfl rfl⟩, rfl, rfl, rfl, by decide⟩
theorem witness_InitDoneIsClearedOnlyByReset_set :
    ∃ t, step { State.reset with nparReq := 4, pending := some 1 } = .next t ∧ t.initDone = true :=
  ⟨_, step_completes (v := 1) (i := .init) rfl (by decide), rfl⟩
theorem witness_CommandsWriteOnlyTheListedState (i : Instr) : Canonical (pendingBlock i) ∧ (pendingBlock i).busy = true ∧
    (∃ t, exec i (pendingBlock i) = .next t) ∧ bootedBlock.busy = false ∧ ∃ t, exec i bootedBlock = .next t := by
  refine ⟨canonical_pendingBlock i, rfl, ⟨_, exec_busy rfl⟩, rfl, ?_⟩
  rw [exec_eq_command]
  rcases command_cases i (issueCheck i) (effectOf i) bootedBlock with ⟨-, h⟩ | ⟨-, _, -, h⟩ | ⟨-, -, h⟩ <;> exact ⟨_, h⟩
theorem witness_OnlyInitChangesTablesAndGenerator : PendingPasses (pendingBlock .synd) ∧ (pendingBlock .synd).polys.wf ∧
    (∃ t, step (pendingBlock .synd) = .next t) ∧ (pendingBlock .synd).engineTurn ≠ some 1 ∧
    ¬∃ rest, OutsideActs (pendingBlock .synd) .assertReset rest := by
  refine ⟨?_, (canonical_pendingBlock _).polys, ⟨_, step_completes (v := 0x31) (i := .synd) ?_ (by decide)⟩, ?_, ?_⟩
  · intro v hv
    obtain rfl : (0x31 : Word) = v := by injection hv
    exact ⟨.synd, by decide, .inr rfl, by decide, by simp [ParamViolation]⟩
  · decide
  · decide
  · rintro ⟨rest, h, -⟩
    exact absurd h (by decide)

-- Results. A pending block of NPAR = 4 meets every hypothesis on the state that the result statements share.
theorem witness_results (i : Instr) : (pendingBlock i).busy = true ∧ (pendingBlock i).tables = builtTables ∧
    (pendingBlock i).polys.wf ∧ (pendingBlock i).cw.wf ∧ (pendingBlock i).npar ≤ (pendingBlock i).config.nparMax ∧
    (pendingBlock i).ecnt.toNat ≤ (pendingBlock i).npar ∧ (pendingBlock i).ecnt.toNat < (pendingBlock i).maxdeg ∧
    ∃ t, exec i (pendingBlock i) = .next t :=
  ⟨rfl, tables_pendingBlock i, (canonical_pendingBlock i).polys, (canonical_pendingBlock i).cw, (booted_pendingBlock i).nparLe,
    by rw [npar_pendingBlock]; exact Nat.zero_le 4, by rw [show (pendingBlock i).maxdeg = 8 from rfl]; exact Nat.zero_lt_succ 7, _, exec_busy rfl⟩
theorem witness_GeneratorIsMonicWithItsRoots : 4 < 8 ∧ 4 ≤ 254 ∧ 254 < 508 ∧ 254 ≤ 254 := by decide
theorem witness_GinvIsTheFieldInverse : (0xFF : Byte) ≠ 0 ∧ (0 : Byte) = 0 := by decide
theorem witness_EncodeThenDecodeIsClean : (pendingBlock .encode).busy = true ∧ Booted (pendingBlock .encode) ∧
    Canonical (pendingBlock .encode) ∧ (pendingBlock .encode).len.toNat + (pendingBlock .encode).npar ≤ 255 ∧
    ∃ t, exec .encode (pendingBlock .encode) = .next t :=
  ⟨rfl, booted_pendingBlock _, canonical_pendingBlock _, by rw [npar_pendingBlock]; decide, _, exec_busy rfl⟩

/-- A block about to run GAMMA, BMSOLVE or CORRECT with four erasures, the last of them location 254. -/
def erasureBlock (i : Instr) : State :=
  { pendingBlock i with len := 255, cw := .zeros, ecnt := 4, era := listed [(0, 1), (1, 2), (2, 3), (3, 254)] }

theorem witness_GammaHasTheErasuresAsRoots : (erasureBlock .gamma).busy = true ∧ (erasureBlock .gamma).polys.wf ∧
    (erasureBlock .gamma).tables = builtTables ∧ (erasureBlock .gamma).ecnt.toNat < (erasureBlock .gamma).maxdeg ∧
    (∃ t, exec .gamma (erasureBlock .gamma) = .next t) ∧ 3 < (erasureBlock .gamma).ecnt.toNat ∧
    ((erasureBlock .gamma).era.read 3).toNat ≤ 254 := by
  refine ⟨rfl, ?_, ?_, by decide, ⟨_, exec_busy rfl⟩, by decide, by decide⟩
  · simp only [erasureBlock]; exact (canonical_pendingBlock .gamma).polys
  · simp only [erasureBlock]; exact tables_pendingBlock .gamma
theorem witness_BmsolveIndicesStayInRange : (2 : Nat) ≤ 4 ∧ (erasureBlock .bmsolve).busy = true ∧
    (erasureBlock .bmsolve).ecnt.toNat ≤ (erasureBlock .bmsolve).npar ∧ ∃ t, exec .bmsolve (erasureBlock .bmsolve) = .next t :=
  ⟨by decide, rfl, by decide, _, exec_busy rfl⟩

theorem witness_ForneyFailsBeforeAnyWrite_bounds : let s := { pendingBlock .forney with len := 7, nerr := 1, errloc := listed [(0, 7)] }
    s.busy = true ∧ ∃ k < s.nerr.toNat, s.len.toNat ≤ (s.errloc.read k).toNat := ⟨rfl, 0, by decide, by decide⟩
theorem witness_ForneyFailsBeforeAnyWrite_capacity :
    let s := { pendingBlock .forney with len := 7, nerr := 5 }
    let u := { pendingBlock .forney with len := 7, nerr := 0 }
    (∀ k < s.nerr.toNat, (s.errloc.read k).toNat < s.len.toNat) ∧ s.npar < s.nerr.toNat ∧
    (∀ k < u.nerr.toNat, (u.errloc.read k).toNat < u.len.toNat) ∧ u.nerr.toNat = 0 := by decide

/-- A block about to run FORNEY on one location, the highest of LEN = 7; LAMBDA is its x coefficient, and OMEGA is 9. -/
def locatedBlock (lambda1 : Byte) : State :=
  { pendingBlock .forney with
    len := 7
    nerr := 1
    errloc := listed [(0, 6)]
    polys := (Memory.zeros.write (512 * 11 + 1) lambda1).write (512 * 12) 9 }

theorem witness_ForneyCorrectsEachLocation (b : Byte) : (locatedBlock b).busy = true ∧ (locatedBlock b).tables = builtTables ∧
    (locatedBlock b).cw.wf ∧ (∀ k < (locatedBlock b).nerr.toNat, ((locatedBlock b).errloc.read k).toNat < (locatedBlock b).len.toNat) ∧
    1 ≤ (locatedBlock b).nerr.toNat ∧ (locatedBlock b).nerr.toNat ≤ (locatedBlock b).npar ∧ (locatedBlock b).locations.Nodup :=
  ⟨rfl, tables_pendingBlock .forney, (canonical_pendingBlock .forney).cw, by
    show ∀ k < 1, ((listed [(0, 6)]).read k).toNat < 7
    decide, by show 1 ≤ 1; decide, by show 1 ≤ 4; decide, by show ((listed [(0, 6)]).bytes 0 1).Nodup; decide⟩
theorem witness_ForneyCorrectsEachLocation_den : (locatedBlock 0).derivAt LAMBDA 249 = 0 ∧ (locatedBlock 1).derivAt LAMBDA 249 ≠ 0 := by
  decide +kernel

theorem witness_CorrectLeavesACleanCodeword : (erasureBlock .correct).busy = true ∧ (erasureBlock .correct).polys.wf ∧
    (erasureBlock .correct).tables = builtTables ∧ (erasureBlock .correct).npar ≤ (erasureBlock .correct).config.nparMax ∧
    ∀ j < (erasureBlock .correct).npar, codewordAt (erasureBlock .correct).cw.read (erasureBlock .correct).len.toNat j = 0 := by
  have hb : Booted (erasureBlock .correct) := booted_with (booted_pendingBlock .correct) _ _ _ _ _
  refine ⟨rfl, ?_, hb.tables, hb.nparLe, fun j _ => ?_⟩
  · simp only [erasureBlock]; exact (canonical_pendingBlock .correct).polys
  exact xorSum_eq_zero fun τ _ => fieldMul_zero_left _

/-- A block about to run CORRECT on one byte that is not 0: with NPAR = 4, no codeword. -/
def dirtyBlock : State := { pendingBlock .correct with len := 1, cw := listed [(0, 1)] }

theorem witness_CorrectIsItsStagesInSequence : dirtyBlock.busy = true ∧ ∃ u, exec .synd dirtyBlock = .next u ∧ u.clean = false :=
  ⟨rfl, _, exec_busy rfl, by decide +kernel⟩
theorem witness_CorrectRepairsOneError : dirtyBlock.busy = true ∧ Booted dirtyBlock ∧ Canonical dirtyBlock ∧ 2 ≤ dirtyBlock.npar ∧
    dirtyBlock.ecnt.toNat = 0 ∧ 0 < dirtyBlock.len.toNat ∧
    (∀ j < dirtyBlock.npar, codewordAt (fun _ => 0) dirtyBlock.len.toNat j = 0) ∧
    ∀ τ < dirtyBlock.len.toNat, (dirtyBlock.cw.read τ = (fun _ => 0 : Nat → Byte) τ ↔ τ ≠ dirtyBlock.len.toNat - 1 - 0) := by
  refine ⟨rfl, booted_with (booted_pendingBlock .correct) _ _ _ _ _, canonical_withCw (canonical_pendingBlock .correct) _ (by decide),
    by decide, by decide,
    by decide, fun j _ => xorSum_eq_zero fun τ _ => fieldMul_zero_left _, ?_⟩
  show ∀ τ < 1, ((listed [(0, 1)]).read τ = 0 ↔ τ ≠ 0)
  decide

-- The ZDIV warning (R207) in GINV, FORNEY and CORRECT.
theorem witness_ZdivIsRecorded_ginv : (pendingBlock (.ginv 0)).busy = true ∧ (pendingBlock (.ginv 0)).tables = builtTables :=
  ⟨rfl, tables_pendingBlock _⟩
theorem witness_ZdivIsRecorded_forney : (locatedBlock 0).cw.wf ∧ ZeroDenominator (locatedBlock 0) ∧ (locatedBlock 0).locations.Nodup := by
  obtain ⟨-, -, hw, hb, h1, h2, hn⟩ := witness_ForneyCorrectsEachLocation 0
  exact ⟨hw, ⟨hb, h1, h2, 0, by show 0 < 1; decide, witness_ForneyCorrectsEachLocation_den.1⟩, hn⟩

/-- A block of the instance NPAR_MAX = 2 about to run CORRECT on one byte, with the location 0 listed twice as an erasure:
LAMBDA is then 1 ^ x^2, whose one root is α^255, and the denominator there is 0. -/
def doubledBlock : State :=
  { effectInit { State.resetOf ⟨1⟩ with nparReq := 2 } with
    pending := some 0x36
    len := 1
    cw := listed [(0, 1)]
    ecnt := 2
    era := .zeros }

/-- The state its SYND phase leaves. -/
def doubled1 : State := (effectSynd doubledBlock).complete
/-- The state its GAMMA phase leaves. -/
def doubled2 : State := (effectGamma { doubled1 with pending := some 0x36 }).complete
/-- The state its BMSOLVE phase leaves. -/
def doubled3 : State := (effectBmsolve { doubled2 with pending := some 0x36 }).complete

/-- By hand: Γ = (1 ^ x)^2 = 1 ^ x^2, and no step of the recurrence runs. -/
theorem doubled3_lambda : doubled3.poly LAMBDA = [1, 0, 1, 0] := by decide +kernel

/-- 1 ^ x^2 is 0 at α^r only for 2r ≡ 0 mod 255. -/
theorem doubled_roots : rootLocations builtTables 4 [1, 0, 1, 0] = [0] := by
  have hf : ∀ r ∈ (List.range 255).map (fun i => i + 1),
      decide (polyEval builtTables 4 [1, 0, 1, 0] r = 0) = decide (r = 255) := by
    intro r hr
    obtain ⟨i, hi, rfl⟩ := List.mem_map.1 hr
    have hi := List.mem_range.1 hi
    have he : polyEval builtTables 4 [1, 0, 1, 0] (i + 1) = 1 ^^^ fieldPow (2 * (i + 1) % 255) := by
      rw [polyEval_built, fieldPow_mod]
      simp [xorSum, List.range_succ, coef, fieldPow, timesXPow]
    have h1 : (1 : Byte) ^^^ fieldPow (2 * (i + 1) % 255) = 0 ↔ fieldPow (2 * (i + 1) % 255) = 1 :=
      BitVec.xor_eq_zero_iff.trans eq_comm
    rw [he, decide_eq_decide, h1, fieldPow_eq_one (by omega)]
    omega
  rw [rootLocations, List.filter_congr hf]
  decide +kernel

/-- The state its CHIEN phase leaves. -/
def doubled4 : State := (effectChien { doubled3 with pending := some 0x36 }).complete

/-- One located error, at 0, and LAMBDA = 1 ^ x^2: the denominator is 0. -/
theorem zeroDenominator_of {u : State} (h1 : u.nerr = 1) (h2 : u.errloc = .zeros) (hlen : u.len = 1) (hn : u.nparAct = 2)
    (hg : u.config = ⟨1⟩) (hc : ∀ j < 4, u.coefAt LAMBDA j = coef [1, 0, 1, 0] j) : ZeroDenominator u := by
  have hd : u.derivAt LAMBDA 255 = 0 := by
    refine xorSum_eq_zero fun j hj => ?_
    rw [State.maxdeg, hg] at hj
    have hj : j < 4 := hj
    rw [hc j hj]
    interval_cases j <;> simp [coef]
  rw [ZeroDenominator, h1, h2, hlen, State.npar, hn]
  exact ⟨by decide, by decide, by decide, 0, by decide, hd⟩

/-- CHIEN on LAMBDA = 1 ^ x^2 finds the one root α^255, where the denominator is 0. -/
theorem effectChien_zeroDenominator {s : State} (ht : s.tables = builtTables) (hc : s.config = ⟨1⟩)
    (hp : s.poly LAMBDA = [1, 0, 1, 0]) (hlen : s.len = 1) (hn : s.nparAct = 2) : ZeroDenominator (effectChien s) := by
  have hl : rootLocations s.tables s.maxdeg (s.poly LAMBDA) = [0] := by
    rw [ht, State.maxdeg, hc, hp, show Config.maxdeg ⟨1⟩ = 4 from rfl, doubled_roots]
  obtain ⟨h1, h2⟩ := effectChien_located s
  rw [hl] at h1 h2
  rw [effectChien_eq, h1, h2]
  refine zeroDenominator_of rfl rfl hlen hn hc fun j hj => ?_
  have h := State.coef_poly s LAMBDA j
  rw [hp, if_pos (by rw [State.maxdeg, hc]; exact hj)] at h
  exact h.symm

/-- The same at the end of the CHIEN phase, in the form of the statement. -/
theorem chien_zeroDenominator {s : State} (ht : s.tables = builtTables) (hc : s.config = ⟨1⟩) (hp : s.poly LAMBDA = [1, 0, 1, 0])
    (hlen : s.len = 1) (hn : s.nparAct = 2) : ZeroDenominator (effectChien { s with pending := some 0x36 }).complete :=
  have h := effectChien_zeroDenominator (s := { s with pending := some 0x36 }) ht hc hp hlen hn
  (fun {u : State} (hu : ZeroDenominator u) => (hu : ZeroDenominator u.complete)) h

theorem witness_ZdivIsRecorded_correct : doubledBlock.busy = true ∧ doubledBlock.tables = builtTables ∧ doubledBlock.cw.wf ∧
    exec .synd doubledBlock = .next doubled1 ∧ doubled1.clean = false ∧
    exec .gamma { doubled1 with pending := some 0x36 } = .next doubled2 ∧
    exec .bmsolve { doubled2 with pending := some 0x36 } = .next doubled3 ∧
    exec .chien { doubled3 with pending := some 0x36 } = .next doubled4 ∧ ZeroDenominator doubled4 :=
  ⟨rfl, rfl, by decide, exec_busy rfl, by decide +kernel, exec_busy rfl, exec_busy rfl, exec_busy rfl,
    chien_zeroDenominator rfl rfl doubled3_lambda rfl rfl⟩

-- Unspecified elements: the first and last word of each array holds an element.
theorem witness_ResetLeavesEveryElementUnspecified : ∀ w ∈ [0x100, 0x1FE, 0x200, 0x203, 0x400, 0x4FE, 0x800, 0x807, 0x2000, 0x2007,
    0x2800, 0x29FF, 0x2A00, 0x2AFF], 0x100 ≤ w ∧ w < 2 ^ 14 ∧ ¬ReservedWord Config.ofReset w := by
  have h4 : Config.ofReset.nparMax = 4 := rfl
  have h8 : Config.ofReset.maxdeg = 8 := rfl
  intro w hw
  have hw : w ≤ 0x2AFF ∧ 0x100 ≤ w ∧ w ≠ 0x1FF ∧ ¬(0x204 ≤ w ∧ w ≤ 0x3FF) ∧ ¬(0x4FF ≤ w ∧ w ≤ 0x7FF) ∧
      (0x800 ≤ w → w < 0x2800 → (w - 0x800) / 512 ≤ 12 ∧ (w - 0x800) % 512 < 8) := by
    revert w; decide
  refine ⟨hw.2.1, by omega, ?_⟩
  rintro (h | h | h | h | ⟨p, i, hp, hi, h, h2⟩ | h)
  · omega
  · omega
  · rw [h4] at h; omega
  · omega
  · rw [h8] at h2
    have := hw.2.2.2.2.2 (by omega) (by omega)
    omega
  · omega
theorem witness_ResetLeavesEveryElementUnspecified_reset (s : State) : OutsideActs (acting s .assertReset) .assertReset [] ∧
    OutsideActs (acting bootedBlock (.read 0x13F8)) (.read 0x13F8) [] := ⟨acts _ _, acts _ _⟩

-- Invariants: the reset state meets the invariant (a statement of its own), and steps.
theorem witness_RunsNeverStop : Inv State.reset where
  canonical := canonical_reset
  inRange := InRange.resetFrom _ 0
  booted h := absurd h (by decide)
  notBooted _ := rfl
  pending v h := absurd h (by simp [State.reset, State.resetOf, State.resetFrom])
  locations := ⟨by decide, by decide, by decide⟩
  bmL := by decide
  outcome := by decide
  errInfo := by decide
  inReset h := absurd h (by decide)

theorem witness_StepKeepsTheInvariant : Inv State.reset ∧ ∃ t, step State.reset = .next t :=
  ⟨witness_RunsNeverStop, _, step_idle rfl rfl⟩

end Sys2Proof.Tests
end

/-!
PROOFS. One Host access as one step of the machine, where it has a specified outcome (20_memory.md rules R61, R63 and
R70), and the constants ID and CAP (10_state.md rules R21 and R22).
-/

namespace Sys2Proof.Machine

/-! ### One Host access as a step -/

/-- A Host read that returns a specified value (R63, R68). -/
theorem hostRead_specified {s : State} {addr : Addr} (hu : s.unspecifiedRead (locate s.config addr) = false) :
    hostRead addr s = { s with reads := (addr, s.value (locate s.config addr)) :: s.reads } := by
  simp [hostRead, State.readValue, hu]

/-- Taking an act from the list changes no location's value. -/
@[simp] theorem State.turn_value (s : State) (rest : List Input) (l : Loc) : (s.turn rest).value l = s.value l := rfl

/-- The step of a Host read that returns a specified value (R63): the Host records it, and nothing else changes. -/
theorem step_read_specified {s : State} {addr : Addr} {rest : List Input} (h : OutsideActs s (.read addr) rest)
    (hu : s.unspecifiedRead (locate s.config addr) = false) :
    step s = .next { s.turn rest with reads := (addr, s.value (locate s.config addr)) :: s.reads } := by
  have hturn : (s.turn rest).unspecifiedRead (locate (s.turn rest).config addr) = false := hu
  rw [step_outside h.1 h.2, outsideAct, hostRead_specified hturn, State.turn_value]
  rfl

/-- Outside reset, STATUS, ID and CAP are specified, busy or not (R70). -/
theorem State.unspecifiedRead_of_readableWhileBusy {s : State} {l : Loc} (hr : s.resetAsserted = false)
    (hl : l.readableWhileBusy = true) : s.unspecifiedRead l = false := by
  simp [State.unspecifiedRead, hr, hl]

/-- The step of a Host write that is neither dropped nor to CMD or STATUS: a store (R63, R67). -/
theorem step_write_store {s : State} {addr : Addr} {v : Word} {rest : List Input}
    (h : OutsideActs s (.write addr v) rest) (hr : s.resetAsserted = false) (hb : s.busy = false)
    (hcmd : locate s.config addr ≠ .cmd) (hstatus : locate s.config addr ≠ .status) :
    step s = .next ((s.turn rest).store (locate s.config addr) v) := by
  rw [step_outside h.1 h.2]
  rcases hostWrite_cases addr v (s.turn rest) with ⟨h1, -⟩ | ⟨-, h1, -⟩ | ⟨-, -, h1, -⟩ | ⟨-, -, h1, -⟩ | ⟨-, -, -, -, h1⟩
  · exact absurd (hr.symm.trans h1) (by decide)
  · exact absurd h1 hstatus
  · exact absurd (hb.symm.trans h1) (by decide)
  · exact absurd h1 hcmd
  · exact h1

/-! ### ID and CAP -/

/-- A write to ID or CAP, with BUSY = 0, is ignored (R21, R22). -/
theorem step_write_idOrCap {s : State} {addr : Addr} {v : Word} {rest : List Input}
    (h : OutsideActs s (.write addr v) rest) (hr : s.resetAsserted = false) (hb : s.busy = false)
    (hl : locate s.config addr = .id ∨ locate s.config addr = .cap) : step s = .next (s.turn rest) := by
  rcases hl with hl | hl <;>
    rw [step_write_store h hr hb (by simp [hl]) (by simp [hl]), hl, State.store]

/-- Settles O12: both registers are readable while busy, their values are `idWord` and `State.cap`, and a store to
either location is the identity. -/
theorem idAndCapAreConstant : Obligations.IdAndCapAreConstant := by
  unfold Obligations.IdAndCapAreConstant
  intro s a rest h hr
  refine ⟨?_, ?_, ?_⟩
  · rintro addr rfl hw
    have hl := locate_eq_id (c := s.config).2 hw
    rw [step_read_specified h (by rw [hl]; exact State.unspecifiedRead_of_readableWhileBusy hr rfl), hl]
    rfl
  · rintro addr rfl hw
    have hl := locate_eq_cap (c := s.config).2 hw
    refine ⟨s.cap, ?_, s.cap_toNat, s.config.nparMax_pos, s.config.nparMax_le, s.config.maxdeg_eq⟩
    rw [step_read_specified h (by rw [hl]; exact State.unspecifiedRead_of_readableWhileBusy hr rfl), hl]
    rfl
  · rintro addr v rfl hw hb
    refine step_write_idOrCap h hr hb ?_
    obtain hw | hw : addr.toNat / 4 = 0 ∨ addr.toNat / 4 = 1 := by omega
    · exact .inl (locate_eq_id.2 hw)
    · exact .inr (locate_eq_cap.2 hw)

end Sys2Proof.Machine

/-!
PROOFS. STATUS.INIT_DONE through every effect, every act of the outside world and every step (10_state.md rule R27).
-/

namespace Sys2Proof.Machine

/-! ### The effects of the commands -/

@[simp] theorem effectSynd_initDone (s : State) : (effectSynd s).initDone = s.initDone := rfl
@[simp] theorem effectGamma_initDone (s : State) : (effectGamma s).initDone = s.initDone := rfl
@[simp] theorem effectBmsolve_initDone (s : State) : (effectBmsolve s).initDone = s.initDone := rfl
@[simp] theorem effectChien_initDone (s : State) : (effectChien s).initDone = s.initDone := rfl
@[simp] theorem State.withScratch_initDone (s : State) (sc : Scratch) : (s.withScratch sc).initDone = s.initDone := rfl

@[simp] theorem forneyBody_initDone (v : Word) (s : State) : (forneyBody v s).initDone = s.initDone := by
  rcases forneyBody_cases v s with ⟨-, h⟩ | ⟨-, -, h⟩ | ⟨-, -, -, h⟩
  · rw [h]
  · rw [h]
  · obtain ⟨cw, errors, errInfo, errCmd, sc, hfold, -⟩ := forneyFold_frame v s.locations s
    rw [h, hfold]

@[simp] theorem effectCorrect_initDone (s : State) : (effectCorrect s).initDone = s.initDone := by
  cases hc : (effectSynd s).clean with
  | true =>
    obtain ⟨sc, h⟩ := effectCorrect_clean hc
    simp [h]
  | false =>
    obtain ⟨sc, h⟩ := effectCorrect_dirty hc
    simp [h]

@[simp] theorem effectGinv_initDone (a : Byte) (s : State) : (effectGinv a s).initDone = s.initDone := by
  unfold effectGinv
  by_cases ha : a = 0
  · rw [if_pos ha]; rfl
  · rw [if_neg ha]

/-- INIT's effect sets INIT_DONE (R109). -/
theorem effectOf_init_initDone (s : State) : (effectOf .init s).initDone = true := rfl

/-- No other command's effect changes INIT_DONE (R27, R38). -/
theorem effectOf_initDone_of_ne_init {i : Instr} (hi : i ≠ .init) (s : State) :
    (effectOf i s).initDone = s.initDone := by
  cases i with
  | init => exact absurd rfl hi
  | ginv a => exact effectGinv_initDone a s
  | forney => exact forneyBody_initDone _ s
  | correct => exact effectCorrect_initDone s
  | gmul a b => rfl
  | pzero pd => rfl
  | pcopy pd pa => rfl
  | padd pd pa pb => rfl
  | pscale pd pa k => rfl
  | pmul pd pa pb => rfl
  | pshz pd pa => rfl
  | encode => rfl
  | synd => rfl
  | gamma => rfl
  | bmsolve => rfl
  | chien => rfl

/-! ### The acts of the outside world -/

@[simp] theorem State.store_initDone (s : State) (l : Loc) (v : Word) : (s.store l v).initDone = s.initDone := by
  cases l with
  | poly p i => by_cases hp : p = GEN.toNat <;> simp [State.store, hp]
  | _ => rfl

/-- Issuing a word to CMD leaves INIT_DONE alone: it rejects or accepts (R202). -/
theorem issueWord_initDone {s t : State} {v : Word} (hb : s.busy = false) (h : issueWord exec v s = .next t) :
    t.initDone = s.initDone := by
  rcases issueWord_cases hb v with ⟨_, -, h1⟩ | ⟨_, _, -, -, h1⟩ | ⟨_, -, -, h1⟩
  all_goals
    cases h1.symm.trans h
    rfl

theorem hostWrite_initDone {s t : State} {addr : Addr} {v : Word} (h : hostWrite exec addr v s = .next t) :
    t.initDone = s.initDone := by
  rcases hostWrite_cases addr v s with
    ⟨-, h1⟩ | ⟨-, -, h1⟩ | ⟨-, -, -, h1⟩ | ⟨-, hb, -, h1⟩ | ⟨-, -, -, -, h1⟩
  · cases h1.symm.trans h; rfl
  · cases h1.symm.trans h; rfl
  · cases h1.symm.trans h; rfl
  · exact issueWord_initDone hb (h1.symm.trans h)
  · cases h1.symm.trans h; exact State.store_initDone ..

/-- Of the outside world's acts only a reset touches INIT_DONE (R27, R230). -/
theorem outsideAct_initDone {a : Input} {s t : State} (ha : a ≠ .assertReset) (h : outsideAct exec a s = .next t) :
    t.initDone = s.initDone := by
  cases a with
  | assertReset => exact absurd rfl ha
  | write addr v => exact hostWrite_initDone h
  | read addr => cases h; rfl
  | releaseReset => cases h; rfl
  | poll =>
    cases h
    split <;> rfl

/-! ### The step -/

/-- The one word of INIT (R81, R87). -/
theorem eq_one_of_decode_init {v : Word} (h : decode v = .legal .init) : v = 0x00000001 := by
  have hmask : v &&& 0xFFFFFFFF = 0x00000001 := by
    rcases decode_eq_of_legal h with ⟨-, hrow⟩ | hrest
    · exact (decodeRow_legal hrow).1
    · rcases hrest with ⟨-, h⟩ | ⟨-, h⟩ | ⟨-, h⟩ | ⟨-, h⟩ | ⟨-, h⟩ | ⟨-, h⟩ | ⟨-, h⟩ | ⟨-, h⟩ | ⟨-, h⟩ | ⟨-, h⟩ |
        ⟨-, h⟩ | ⟨-, h⟩ | ⟨-, h⟩ | ⟨-, h⟩ | ⟨-, h⟩ <;>
      · obtain ⟨-, hinit, -⟩ := decodeRow_legal h
        exact nomatch hinit
  exact (BitVec.and_allOnes (x := v)).symm.trans hmask

/-- Everything a step can do to INIT_DONE: leave it, set it by completing INIT, or clear it by a reset. -/
theorem step_initDone_cases {s t : State} (h : step s = .next t) :
    t.initDone = s.initDone ∨
    (s.engineTurn = some 0x00000001 ∧ t.initDone = true) ∨
    ((∃ rest, OutsideActs s .assertReset rest) ∧ t.initDone = false) := by
  rcases step_cases s with ⟨v, i, he, -, hd, h1⟩ | ⟨_, _, -, -, -, h1⟩ | ⟨-, -, h1⟩ | ⟨a, rest, he, hin, h1⟩
  · cases h1.symm.trans h
    by_cases hi : i = .init
    · subst hi
      exact .inr (.inl ⟨eq_one_of_decode_init hd ▸ he, effectOf_init_initDone s⟩)
    · exact .inl (effectOf_initDone_of_ne_init hi s)
  · exact nomatch h1.symm.trans h
  · cases h1.symm.trans h
    exact .inl rfl
  · have hact := h1.symm.trans h
    by_cases ha : a = .assertReset
    · subst ha
      cases hact
      exact .inr (.inr ⟨⟨rest, he, hin⟩, rfl⟩)
    · have hsame := outsideAct_initDone ha hact
      exact .inl hsame

/-! ### The issue before INIT -/

theorem checkNotInit_of_not_initDone {s : State} (h : s.initDone = false) : checkNotInit s = some .notInit := by
  simp [checkNotInit, h]

/-- While INIT_DONE = 0, NOTINIT is the first check of every command but INIT to fail (R27, R202, R209). -/
theorem issueCheck_of_not_initDone {s : State} {i : Instr} (h : s.initDone = false) (hi : i ≠ .init) :
    issueCheck i s = some .notInit := by
  have hplain : checkPlain s = some .notInit := checkNotInit_of_not_initDone h
  have hpoly (pd : PIdx) : checkPoly pd s = some .notInit := by
    rw [checkPoly, checkNotInit_of_not_initDone h, Option.some_or]
  have hparam (bad : State → Bool) : checkParam bad s = some .notInit := by
    rw [checkParam, checkNotInit_of_not_initDone h, Option.some_or]
  cases i with
  | init => exact absurd rfl hi
  | gmul a b => exact hplain
  | ginv a => exact hplain
  | pzero pd => exact hpoly pd
  | pcopy pd pa => exact hpoly pd
  | padd pd pa pb => exact hpoly pd
  | pscale pd pa k => exact hpoly pd
  | pmul pd pa pb => exact hpoly pd
  | pshz pd pa => exact hpoly pd
  | encode => exact hparam _
  | synd => exact hplain
  | gamma => exact hparam _
  | bmsolve => exact hparam _
  | chien => exact hplain
  | forney => exact hplain
  | correct => exact hparam _

/-- Settles O22: the step clauses are the three cases of `step_initDone_cases`, and the last is the NOTINIT check. -/
theorem initDoneIsClearedOnlyByReset : Obligations.InitDoneIsClearedOnlyByReset := by
  unfold Obligations.InitDoneIsClearedOnlyByReset
  refine ⟨fun c => rfl, fun s hb => ⟨_, exec_busy hb, effectOf_init_initDone s⟩, ?_, ?_, ?_⟩
  · intro s t h hs
    rcases step_initDone_cases h with hsame | ⟨-, hset⟩ | ⟨hreset, -⟩
    · exact .inl (hsame.trans hs)
    · exact .inl hset
    · exact .inr hreset
  · intro s t h hs ht
    rcases step_initDone_cases h with hsame | ⟨hinit, -⟩ | ⟨-, hclear⟩
    · exact absurd (ht.symm.trans (hsame.trans hs)) (by decide)
    · exact hinit
    · exact absurd (ht.symm.trans hclear) (by decide)
  · intro s i hs hb hi
    rw [exec_eq_command, command_rejects hb (issueCheck_of_not_initDone hs hi)]

end Sys2Proof.Machine

/-!
PROOFS. The Host's accesses while BUSY = 1, the W1C write of STATUS, and the reserved and the read-only addresses
(20_memory.md rules R66, R67 and R70, 10_state.md rule R25).
-/

namespace Sys2Proof.Machine

/-! ### The write of STATUS -/

/-- From bit 8 on STATUS shows the sticky bits (R25). -/
theorem State.status_getLsbD_of_ge {b : Nat} (hb : 8 ≤ b) (s : State) :
    s.status.getLsbD b = s.errors.bits.getLsbD (b - 8) := by
  rw [State.status_getLsbD]
  iterate 6 rw [if_neg (by omega)]

/-- STATUS after a write of w to it (R25): a bit in 8..13 that w names reads 0, and every other bit as before. -/
theorem State.acknowledge_status_getLsbD (s : State) (w : Word) (b : Nat) :
    (s.acknowledge w).status.getLsbD b = (s.status.getLsbD b && !(decide (8 ≤ b ∧ b ≤ 13) && w.getLsbD b)) := by
  by_cases hlow : b < 8
  · have hbusy : (s.acknowledge w).busy = s.busy := rfl
    have hok : (s.acknowledge w).resultOk = s.resultOk := rfl
    simp [State.status_getLsbD, hbusy, hok, hlow, show ¬ 8 ≤ b by omega]
  · rw [State.status_getLsbD_of_ge (by omega), State.status_getLsbD_of_ge (by omega)]
    by_cases hhigh : b < 14
    · have : 8 ≤ b := by omega
      rw [ErrorBits.bits_getLsbD, ErrorBits.bits_getLsbD]
      interval_cases b <;> rfl
    · rw [BitVec.getLsbD_of_ge _ _ (by omega), BitVec.getLsbD_of_ge _ _ (by omega), Bool.false_and]

/-- The step of a Host write to STATUS, busy or not (R25, R70). -/
theorem step_write_status {s : State} {addr : Addr} {v : Word} {rest : List Input}
    (h : OutsideActs s (.write addr v) rest) (hr : s.resetAsserted = false) (hw : addr.toNat / 4 = 4) :
    step s = .next ((s.turn rest).acknowledge v) := by
  have hl : locate (s.turn rest).config addr = .status := locate_eq_status.2 hw
  rw [step_outside h.1 h.2]
  rcases hostWrite_cases addr v (s.turn rest) with ⟨h1, -⟩ | ⟨-, -, h1⟩ | ⟨-, h1, -⟩ | ⟨-, -, h1, -⟩ | ⟨-, -, -, h1, -⟩
  · exact absurd (hr.symm.trans h1) (by decide)
  · exact h1
  · exact absurd hl h1
  · exact absurd (hl.symm.trans h1) (by decide)
  · exact absurd hl h1

/-- A Host write to STATUS changes the sticky bits only, and of those exactly the named ones (R25, R67). -/
theorem step_write_status_clears {s : State} {addr : Addr} {v : Word} {rest : List Input}
    (h : OutsideActs s (.write addr v) rest) (hr : s.resetAsserted = false) (hw : addr.toNat / 4 = 4) :
    ∃ t, step s = .next t ∧ t = { s.turn rest with errors := t.errors } ∧
      ∀ b, t.status.getLsbD b = (s.status.getLsbD b && !(decide (8 ≤ b ∧ b ≤ 13) && v.getLsbD b)) :=
  ⟨_, step_write_status h hr hw, rfl, fun b => State.acknowledge_status_getLsbD (s.turn rest) v b⟩

/-! ### The other accesses while BUSY = 1 -/

/-- The step of a dropped Host write (R70, R208): ERR_BUSY alone. -/
theorem step_write_dropped {s : State} {addr : Addr} {v : Word} {rest : List Input}
    (h : OutsideActs s (.write addr v) rest) (hr : s.resetAsserted = false) (hb : s.busy = true)
    (hw : addr.toNat / 4 ≠ 4) : step s = .next (s.turn rest).dropWrite := by
  have hl : locate (s.turn rest).config addr ≠ .status := fun hl => hw (locate_eq_status.1 hl)
  rw [step_outside h.1 h.2]
  rcases hostWrite_cases addr v (s.turn rest) with ⟨h1, -⟩ | ⟨-, h1, -⟩ | ⟨-, -, -, h1⟩ | ⟨-, h1, -⟩ | ⟨-, h1, -⟩
  · exact absurd (hr.symm.trans h1) (by decide)
  · exact absurd h1 hl
  · exact h1
  · exact absurd (hb.symm.trans h1) (by decide)
  · exact absurd (hb.symm.trans h1) (by decide)

/-- Only STATUS, ID and CAP are readable while busy (R70). -/
theorem Loc.readableWhileBusy_eq_false {l : Loc} (hid : l ≠ .id) (hcap : l ≠ .cap) (hstatus : l ≠ .status) :
    l.readableWhileBusy = false := by
  cases l with
  | id => exact absurd rfl hid
  | cap => exact absurd rfl hcap
  | status => exact absurd rfl hstatus
  | _ => rfl

/-- While BUSY = 1 every location but STATUS, ID and CAP reads unspecified (R70). -/
theorem State.unspecifiedRead_of_busy {s : State} {l : Loc} (hb : s.busy = true) (hl : l.readableWhileBusy = false) :
    s.unspecifiedRead l = true := by
  simp [State.unspecifiedRead, hb, hl]

/-- A Host read that returns an unspecified value: the next free one (R70). -/
theorem hostRead_unspecified {s : State} {addr : Addr} (hu : s.unspecifiedRead (locate s.config addr) = true) :
    hostRead addr s = { s with reads := (addr, Config.freeWord s.draws) :: s.reads, draws := s.draws + 1 } := by
  simp [hostRead, State.readValue, hu]

/-- The step of a Host read that returns an unspecified value (R70). -/
theorem step_read_unspecified {s : State} {addr : Addr} {rest : List Input} (h : OutsideActs s (.read addr) rest)
    (hu : s.unspecifiedRead (locate s.config addr) = true) :
    step s = .next { s.turn rest with
      reads := (addr, Config.freeWord s.draws) :: s.reads, draws := s.draws + 1 } := by
  have hturn : (s.turn rest).unspecifiedRead (locate (s.turn rest).config addr) = true := hu
  rw [step_outside h.1 h.2, outsideAct, hostRead_unspecified hturn]
  rfl

/-- The step of a read of STATUS, ID or CAP, busy or not (R70). -/
theorem step_read_readableWhileBusy {s : State} {addr : Addr} {rest : List Input} {l : Loc}
    (h : OutsideActs s (.read addr) rest) (hr : s.resetAsserted = false) (hl : locate s.config addr = l)
    (hreadable : l.readableWhileBusy = true) :
    step s = .next { s.turn rest with reads := (addr, s.value l) :: s.reads } := by
  subst hl
  exact step_read_specified h (State.unspecifiedRead_of_readableWhileBusy hr hreadable)

/-- Settles O10: one clause for each kind of access, by the step of that access. -/
theorem accessesWhileBusy : Obligations.AccessesWhileBusy := by
  unfold Obligations.AccessesWhileBusy
  intro s a rest h hb hr
  refine ⟨?_, ?_, ?_, ?_, ?_, ?_⟩
  · rintro addr v rfl hw
    exact step_write_status_clears h hr hw
  · rintro addr v rfl hw
    exact step_write_dropped h hr hb hw
  · rintro addr rfl hw
    exact step_read_readableWhileBusy h hr (locate_eq_id.2 hw) rfl
  · rintro addr rfl hw
    exact step_read_readableWhileBusy h hr (locate_eq_cap.2 hw) rfl
  · rintro addr rfl hw
    exact step_read_readableWhileBusy h hr (locate_eq_status.2 hw) rfl
  · rintro addr rfl hid hcap hstatus
    have hl : (locate s.config addr).readableWhileBusy = false :=
      Loc.readableWhileBusy_eq_false (mt locate_eq_id.1 hid) (mt locate_eq_cap.1 hcap) (mt locate_eq_status.1 hstatus)
    exact step_read_unspecified h (State.unspecifiedRead_of_busy hb hl)

/-! ### Reserved and read-only addresses -/

/-- The reserved words by ranges, the slots of the register file by quotient and remainder (R64, R65). -/
theorem reservedWord_ranges {c : Config} {w : Nat} (h : ReservedWord c w) :
    (0xC ≤ w ∧ w ≤ 0xFF) ∨ w = 0x1FF ∨ (0x200 + c.nparMax ≤ w ∧ w ≤ 0x3FF) ∨ (0x4FF ≤ w ∧ w ≤ 0x7FF) ∨
      (0x800 ≤ w ∧ w ≤ 0x27FF ∧ (13 ≤ (w - 0x800) / 512 ∨ c.maxdeg ≤ (w - 0x800) % 512)) ∨
      (0x2B00 ≤ w ∧ w ≤ 0x3FFF) := by
  rcases h with h | h | h | h | ⟨p, i, hp, hi, hw, h⟩ | h
  · exact .inl h
  · exact .inr (.inl h)
  · exact .inr (.inr (.inl h))
  · exact .inr (.inr (.inr (.inl h)))
  · have hquot : (w - 0x800) / 512 = p := by omega
    have hrem : (w - 0x800) % 512 = i := by omega
    rw [hquot, hrem]
    exact .inr (.inr (.inr (.inr (.inl ⟨by omega, by omega, h⟩))))
  · exact .inr (.inr (.inr (.inr (.inr h))))

/-- The map names no location at a reserved word (R64). -/
theorem locate_reserved {c : Config} {addr : Addr} (h : ReservedWord c (addr.toNat / 4)) :
    locate c addr = .reserved := by
  have hranges := reservedWord_ranges h
  have hpos := c.nparMax_pos
  have hle := c.nparMax_le
  rw [locate_of_ge (by omega), locateArray, if_neg (by omega), if_neg (by omega), if_neg (by omega)]
  split_ifs
  · omega
  · rfl
  · omega
  · omega
  · rfl

/-- A store to a read-only register changes nothing (R67). -/
theorem State.store_readOnlyRegister {c : Config} {addr : Addr}
    (h : addr.toNat / 4 ∈ [0, 1, 5, 6, 7, 10, 11]) (s : State) (v : Word) : s.store (locate c addr) v = s := by
  simp only [List.mem_cons, List.not_mem_nil, or_false] at h
  rcases h with h | h | h | h | h | h | h <;>
  · rw [locate, wordAddr, h]
    rfl

/-- A store to a read-only word changes nothing (R67): a register, ERRLOC, GEN, EXP or LOG. -/
theorem State.store_readOnlyWord {c : Config} {addr : Addr} (h : ReadOnlyWord c (addr.toNat / 4)) (s : State) (v : Word) :
    s.store (locate c addr) v = s := by
  by_cases hreg : addr.toNat / 4 < 12
  · refine State.store_readOnlyRegister ?_ s v
    simp only [List.mem_cons, List.not_mem_nil, or_false]
    unfold ReadOnlyWord at h
    omega
  · have hmax := c.maxdeg_le
    have harray : (0x100 ≤ addr.toNat / 4 ∧ addr.toNat / 4 ≤ 0x1FE) ∨
        (0x1800 ≤ addr.toNat / 4 ∧ addr.toNat / 4 < 0x1800 + c.maxdeg) ∨
        (0x2800 ≤ addr.toNat / 4 ∧ addr.toNat / 4 ≤ 0x29FF) ∨ (0x2A00 ≤ addr.toNat / 4 ∧ addr.toNat / 4 ≤ 0x2AFF) := by
      unfold ReadOnlyWord at h
      omega
    rw [locate_of_ge (by omega)]
    rcases harray with h | h | h | h
    · rw [locateArray_errloc (k := addr.toNat / 4 - 0x100) (by omega) (by omega), State.store]
    · have hgen : addr.toNat / 4 = 0x800 + 512 * GEN.toNat + (addr.toNat / 4 - 0x1800) := by
        rw [show GEN.toNat = 8 from rfl]
        omega
      rw [locateArray_poly (by decide) (by omega) hgen, State.store, if_pos rfl]
    · rw [locateArray_exp (k := addr.toNat / 4 - 0x2800) (by omega) (by omega), State.store]
    · rw [locateArray_log (k := addr.toNat / 4 - 0x2A00) (by omega) (by omega), State.store]

/-- A store to a reserved or a read-only word changes nothing (R66, R67). -/
theorem State.store_ignored {c : Config} {addr : Addr}
    (h : ReservedWord c (addr.toNat / 4) ∨ ReadOnlyWord c (addr.toNat / 4)) (s : State) (v : Word) :
    s.store (locate c addr) v = s := by
  rcases h with h | h
  · rw [locate_reserved h, State.store]
  · exact State.store_readOnlyWord h s v

/-- Neither CMD nor STATUS is a reserved or a read-only word (R64). -/
theorem word_ne_of_ignored {c : Config} {w : Nat} (h : ReservedWord c w ∨ ReadOnlyWord c w) : w ≠ 3 ∧ w ≠ 4 := by
  rcases h with h | h
  · have := reservedWord_ranges h
    omega
  · unfold ReadOnlyWord at h
    omega

theorem locate_cfg {c : Config} {addr : Addr} (h : addr.toNat / 4 = 2) : locate c addr = .cfg := by
  rw [locate, wordAddr, h]
  rfl

/-- With BUSY = 0 and outside reset, every read is specified (R68, R70). -/
theorem State.unspecifiedRead_of_idle {s : State} (hr : s.resetAsserted = false) (hb : s.busy = false) (l : Loc) :
    s.unspecifiedRead l = false := by
  simp [State.unspecifiedRead, hr, hb]

/-- Settles O15: where each word lies in the map, and what a read of it or a store to it then does. -/
theorem reservedAndReadOnlyLocations : Obligations.ReservedAndReadOnlyLocations := by
  unfold Obligations.ReservedAndReadOnlyLocations
  intro s a rest h hr
  refine ⟨?_, ?_, ?_, ?_, ?_⟩
  · rintro addr rfl hw hb
    rw [step_read_specified h (State.unspecifiedRead_of_idle hr hb _), locate_reserved hw, State.value]
  · rintro addr v rfl hw hb
    exact step_write_dropped h hr hb (word_ne_of_ignored (.inl hw)).2
  · rintro addr v rfl hb hw
    obtain ⟨hcmd, hstatus⟩ := word_ne_of_ignored hw
    rw [step_write_store h hr hb (mt locate_eq_cmd.1 hcmd) (mt locate_eq_status.1 hstatus), State.store_ignored hw]
  · rintro addr v rfl hw hb
    have hl := locate_cfg (c := s.config) hw
    exact ⟨_, step_write_store h hr hb (by simp [hl]) (by simp [hl]), by rw [hl]; rfl⟩
  · rintro addr v rfl hw
    exact step_write_status_clears h hr hw

end Sys2Proof.Machine

/-!
PROOFS. The tables that the completion of INIT leaves (40_field.md rules R106 and R107), and the laws of gf_mul and gf_inv
over them (rule R112).
-/

namespace Sys2Proof.Machine

/-! ### The order of α -/

/-- α has order 255 (R101). -/
theorem fieldPow_255 : fieldPow 255 = 1 := timesXPow_255 1

/-- One power of α is x times the power before it (R106). -/
theorem fieldPow_succ (i : Nat) : fieldPow (i + 1) = timesX (fieldPow i) := rfl

theorem fieldPow_sub_255 {i : Nat} (h : 255 ≤ i) : fieldPow (i - 255) = fieldPow i := by
  rw [← fieldPow_mod (i - 255), ← fieldPow_mod i, Nat.mod_eq_sub_mod h]

/-! ### The tables INIT leaves -/

/-- The completion of INIT leaves the built tables (R109). -/
theorem exec_init_tables {s t : State} (hb : s.busy = true) (h : exec .init s = .next t) : t.tables = builtTables := by
  cases (exec_busy hb).symm.trans h
  rfl

/-- An entry of EXP as the memory reads (R106). -/
theorem builtTables_exp_read {i : Nat} (h : i ≤ 511) : builtTables.exp.read i = fieldPow i :=
  builtTables_expAt (Nat.lt_succ_of_le h)

/-- Each entry of EXP but the first is x times the entry before it (R106). -/
theorem builtTables_exp_read_eq_timesX {i : Nat} (h1 : 1 ≤ i) (h : i ≤ 511) :
    builtTables.exp.read i = timesX (builtTables.exp.read (i - 1)) := by
  rw [builtTables_exp_read h, builtTables_exp_read (by omega), ← fieldPow_succ, Nat.sub_add_cancel h1]

/-- The second half of EXP copies the first (R106). -/
theorem builtTables_exp_read_sub_255 {i : Nat} (h1 : 255 ≤ i) (h : i ≤ 511) :
    builtTables.exp.read i = builtTables.exp.read (i - 255) := by
  rw [builtTables_exp_read h, builtTables_exp_read (by omega), fieldPow_sub_255 h1]

/-- LOG inverts the first 255 entries of EXP (R107). -/
theorem builtTables_log_read_exp {i : Nat} (h : i ≤ 254) :
    builtTables.log.read (builtTables.exp.read i).toNat = BitVec.ofNat 8 i := by
  rw [builtTables_exp_read (by omega)]
  exact builtTables_logAt_pow (by omega)

/-- EXP inverts LOG off 0 (R107). -/
theorem builtTables_exp_read_log {a : Byte} (ha : a ≠ 0) :
    builtTables.exp.read (builtTables.log.read a.toNat).toNat = a := by
  have hle : (builtTables.log.read a.toNat).toNat ≤ 254 := builtTables_logAt_le a
  rw [builtTables_exp_read (by omega)]
  exact fieldPow_logAt ha

/-- Settles O26: INIT leaves the built tables, whose EXP[i] is α^i throughout and whose LOG inverts it. -/
theorem initBuildsExpAndLog : Obligations.InitBuildsExpAndLog := by
  unfold Obligations.InitBuildsExpAndLog
  intro s t hb h
  rw [exec_init_tables hb h]
  refine ⟨?zero, ?double, ?wrap, ?copy, ?last, ?powers, ?logZero, ?log, ?logOne, ?inverse⟩
  case zero => exact builtTables_exp_read (by omega)
  case double => exact fun i h1 h2 => builtTables_exp_read_eq_timesX h1 (by omega)
  case wrap => exact (builtTables_exp_read (by omega)).trans fieldPow_255
  case copy => exact fun i h1 h2 => builtTables_exp_read_sub_255 (by omega) (by omega)
  case last =>
    rw [builtTables_exp_read (by omega), ← fieldPow_mod]
    decide
  case powers => exact fun i hi => (builtTables_exp_read hi).trans (fieldPow_mod i).symm
  case logZero => exact builtTables_logAt_zero
  case log => exact fun i hi => builtTables_log_read_exp hi
  case logOne => exact builtTables_logAt_pow (i := 0) (by omega)
  case inverse => exact fun a ha => builtTables_exp_read_log ha

/-! ### The laws of gf_mul and gf_inv -/

/-- α^LOG[a] times α^(255 - LOG[a]) is α^255 = 1 (R112). -/
theorem fieldMul_gfInv_built {a : Byte} (ha : a ≠ 0) : fieldMul a (gfInv builtTables a) = 1 := by
  have hle := builtTables_logAt_le a
  calc fieldMul a (gfInv builtTables a)
      = fieldMul (fieldPow (builtTables.logAt a).toNat) (fieldPow (255 - (builtTables.logAt a).toNat)) := by
        rw [gfInv_built, fieldPow_logAt ha]
    _ = fieldPow 255 := by rw [fieldMul_fieldPow, Nat.add_sub_cancel' (by omega)]
    _ = 1 := fieldPow_255

/-- Settles O30: over the built tables gf_mul is field multiplication, whose laws hold, and LOG[a] is at most 254. -/
theorem fieldLaws : Obligations.FieldLaws := by
  unfold Obligations.FieldLaws
  simp only [gfMul_built]
  refine ⟨fun a b => ?sum, fun a => ?difference, fieldMul_comm, fieldMul_assoc, fieldMul_xor_right,
    fun a => ⟨fieldMul_one_left a, fieldMul_zero_left a⟩, fun a => fieldMul_gfInv_built⟩
  case sum => exact Nat.add_le_add (builtTables_logAt_le a) (builtTables_logAt_le b)
  case difference =>
    have hle := builtTables_logAt_le a
    omega

end Sys2Proof.Machine

/-!
PROOFS. FORNEY's two checks before any write (43_decoder.md rule R186).
-/

namespace Sys2Proof.Machine

/-! ### The located errors -/

/-- The located errors are the entries of ERRLOC below NERR (R35). -/
theorem State.mem_locations {s : State} {e : Byte} : e ∈ s.locations ↔ ∃ k < s.nerr.toNat, s.errloc.read k = e := by
  simp [State.locations, Memory.bytes]

/-- An out-of-range location fails FORNEY before the count is looked at (R186). -/
theorem forneyBody_of_outOfRange {s : State} {e : Byte} (he : e ∈ s.locations) (hlen : s.len.toNat ≤ e.toNat)
    (v : Word) : forneyBody v s = { s with outcome := .uncorrectable, failCause := .outOfRangeRoot } := by
  rcases forneyBody_cases v s with ⟨-, h⟩ | ⟨hrange, -⟩ | ⟨hrange, -⟩
  · exact h
  · exact absurd hlen (Nat.not_le.2 (hrange e he))
  · exact absurd hlen (Nat.not_le.2 (hrange e he))

/-- With every location in range, no location at all or more than NPAR of them fail FORNEY (R186). -/
theorem forneyBody_of_badCount {s : State} (hrange : ∀ e ∈ s.locations, e.toNat < s.len.toNat)
    (hcount : s.nerr.toNat = 0 ∨ s.npar < s.nerr.toNat) (v : Word) :
    forneyBody v s = { s with outcome := .uncorrectable, failCause := .uncorrCount } := by
  rcases forneyBody_cases v s with ⟨⟨e, he, hlen⟩, -⟩ | ⟨-, -, h⟩ | ⟨-, hpos, hle, -⟩
  · exact absurd hlen (Nat.not_le.2 (hrange e he))
  · exact h
  · rcases hcount with hzero | hmany
    · exact absurd (BitVec.eq_of_toNat_eq hzero) hpos
    · exact absurd hle (Nat.not_le.2 hmany)

/-- Settles O42: the two failing branches of FORNEY's body, at its completion step. -/
theorem forneyFailsBeforeAnyWrite : Obligations.ForneyFailsBeforeAnyWrite := by
  unfold Obligations.ForneyFailsBeforeAnyWrite
  intro s hb
  refine ⟨?_, ?_⟩
  · rintro ⟨k, hk, hlen⟩
    rw [exec_busy hb, effectOf, forneyBody_of_outOfRange (State.mem_locations.2 ⟨k, hk, rfl⟩) hlen]
    rfl
  · intro hrange hcount
    have hlocations : ∀ e ∈ s.locations, e.toNat < s.len.toNat := by
      intro e he
      obtain ⟨k, hk, rfl⟩ := State.mem_locations.1 he
      exact hrange k hk
    rw [exec_busy hb, effectOf, forneyBody_of_badCount hlocations hcount]
    rfl

end Sys2Proof.Machine

/-!
PROOFS. The erasure locator that GAMMA computes: its coefficients, its values at the powers of α, and its roots
(43_decoder.md rules R161 and R162).
-/

namespace Sys2Proof.Machine

/-! ### Values of the polynomial functions, over the built tables -/

/-- XOR with the zero byte, in the model's spelling of it (R16). -/
theorem byte_zero_xor (b : Byte) : 0 ^^^ b = b := BitVec.zero_xor
theorem byte_xor_zero (b : Byte) : b ^^^ 0 = b := BitVec.xor_zero

/-- The value of a sum (R123, R163). -/
theorem polyEval_polyAdd (n : Nat) (a b : Poly) (r : Nat) :
    polyEval builtTables n (polyAdd n a b) r = polyEval builtTables n a r ^^^ polyEval builtTables n b r := by
  simp only [polyEval_built]
  rw [← xorSum_xor]
  refine xorSum_congr fun i hi => ?_
  rw [coef_polyAdd, if_pos hi, fieldMul_xor_left]

/-- The value of a multiple (R124, R163). -/
theorem polyEval_polyScale (n : Nat) (k : Byte) (a : Poly) (r : Nat) :
    polyEval builtTables n (polyScale builtTables n k a) r = fieldMul k (polyEval builtTables n a r) := by
  simp only [polyEval_built]
  rw [fieldMul_xorSum]
  refine xorSum_congr fun i hi => ?_
  rw [coef_polyScale, if_pos hi, gfMul_built, fieldMul_assoc]

/-- The value of x·a, where the shift drops no coefficient (R126, R163). -/
theorem polyEval_polyShift {n : Nat} {a : Poly} (htop : coef a n = 0) (r : Nat) :
    polyEval builtTables (n + 1) (polyShift (n + 1) a) r =
      fieldMul (fieldPow r) (polyEval builtTables (n + 1) a r) := by
  simp only [polyEval_built]
  rw [xorSum_succ' n, coef_polyShift, if_pos (by omega), if_pos rfl, fieldMul_zero_left, byte_zero_xor,
    xorSum_succ n, htop, fieldMul_zero_left, byte_xor_zero, fieldMul_xorSum]
  refine xorSum_congr fun i hi => ?_
  rw [coef_polyShift, if_pos (by omega), if_neg (by omega), Nat.add_sub_cancel, fieldMul_comm (fieldPow r),
    fieldMul_assoc, fieldMul_fieldPow, Nat.succ_mul]

/-- The value of a constant (R163). -/
theorem polyEval_polyConst {n : Nat} (hn : 0 < n) (c : Byte) (r : Nat) :
    polyEval builtTables n (polyConst n c) r = c := by
  rw [polyEval_built, xorSum_single hn, coef_polyConst, if_pos ⟨hn, rfl⟩, Nat.zero_mul]
  · exact fieldMul_one_right c
  · intro i _ hi
    rw [coef_polyConst, if_neg fun h => hi h.2, fieldMul_zero_left]

/-- The value of P[p] at α^r is poly_eval of the register (R163). -/
theorem State.evalAt_eq_polyEval (s : State) (p : PIdx) (r : Nat) :
    s.evalAt p r = polyEval builtTables s.maxdeg (s.poly p) r := by
  rw [polyEval_built, State.evalAt]
  refine xorSum_congr fun i hi => ?_
  rw [State.coef_poly, if_pos hi]
  rfl

/-! ### The locator, one location at a time -/

/-- The locator of one more location (R161). -/
theorem erasureLocator_concat (t : Tables) (n : Nat) (es : List Byte) (e : Byte) :
    erasureLocator t n (es ++ [e]) = polyAdd n (erasureLocator t n es)
      (polyShift n (polyScale t n (t.expAt e.toNat) (erasureLocator t n es))) := by
  simp [erasureLocator]

/-- One more location leaves the constant term (R161). -/
theorem coef_erasureLocator_concat_zero {n : Nat} (hn : 0 < n) (es : List Byte) (e : Byte) :
    coef (erasureLocator builtTables n (es ++ [e])) 0 = coef (erasureLocator builtTables n es) 0 := by
  rw [erasureLocator_concat, coef_polyAdd, if_pos hn, coef_polyShift, if_pos hn, if_pos rfl, byte_xor_zero]

/-- One more location e adds α^e times the coefficient below to every other one (R161). -/
theorem coef_erasureLocator_concat_succ {n i : Nat} (hi : i + 1 < n) (es : List Byte) (e : Byte) :
    coef (erasureLocator builtTables n (es ++ [e])) (i + 1) = coef (erasureLocator builtTables n es) (i + 1) ^^^
      fieldMul (fieldPow e.toNat) (coef (erasureLocator builtTables n es) i) := by
  rw [erasureLocator_concat, coef_polyAdd, if_pos hi, coef_polyShift, if_pos hi, if_neg (Nat.succ_ne_zero i),
    Nat.add_sub_cancel, coef_polyScale, if_pos (by omega), gfMul_built, builtTables_expAt (by omega)]

/-- The constant term is 1 (R162). -/
theorem coef_erasureLocator_zero {n : Nat} (hn : 0 < n) (es : List Byte) :
    coef (erasureLocator builtTables n es) 0 = 1 := by
  induction es using List.reverseRecOn with
  | nil => exact (coef_polyConst n 0x01 0).trans (if_pos ⟨hn, rfl⟩)
  | append_singleton es e ih => rw [coef_erasureLocator_concat_zero hn, ih]

/-- The degree is at most the number of locations (R162). -/
theorem coef_erasureLocator_of_length_lt {n i : Nat} {es : List Byte} (hi : es.length < i) (hin : i < n) :
    coef (erasureLocator builtTables n es) i = 0 := by
  induction es using List.reverseRecOn generalizing i with
  | nil => exact (coef_polyConst n 0x01 i).trans (if_neg fun h => absurd h.2 (Nat.ne_of_gt hi))
  | append_singleton es e ih =>
    rw [List.length_append, List.length_singleton] at hi
    obtain ⟨i, rfl⟩ : ∃ j, i = j + 1 := ⟨i - 1, by omega⟩
    rw [coef_erasureLocator_concat_succ hin, ih (by omega) hin, ih (by omega) (by omega), fieldMul_zero_right, byte_xor_zero]

/-- The degree is the number of locations, when it is below the capacity (R162): each location multiplies the leading
coefficient by a power of α. -/
theorem coef_erasureLocator_length_ne_zero {n : Nat} {es : List Byte} (hn : es.length < n) :
    coef (erasureLocator builtTables n es) es.length ≠ 0 := by
  induction es using List.reverseRecOn with
  | nil =>
    rw [List.length_nil, coef_erasureLocator_zero hn]
    decide
  | append_singleton es e ih =>
    rw [List.length_append, List.length_singleton] at hn ⊢
    rw [coef_erasureLocator_concat_succ hn, coef_erasureLocator_of_length_lt (Nat.lt_succ_self _) hn, byte_zero_xor]
    exact fun h => (fieldMul_eq_zero.1 h).elim (fieldPow_ne_zero _) (ih (by omega))

/-! ### Its values and its roots -/

/-- The factor 1 ^ α^e·x of one location e, at α^r (R161). -/
def locatorFactor (e : Byte) (r : Nat) : Byte := 1 ^^^ fieldMul (fieldPow e.toNat) (fieldPow r)

/-- One more location multiplies the value by its factor, when no coefficient is dropped (R161). -/
theorem polyEval_erasureLocator_concat {n : Nat} {es : List Byte} (hn : es.length + 1 < n) (e : Byte) (r : Nat) :
    polyEval builtTables n (erasureLocator builtTables n (es ++ [e])) r =
      fieldMul (polyEval builtTables n (erasureLocator builtTables n es) r) (locatorFactor e r) := by
  obtain ⟨n, rfl⟩ : ∃ m, n = m + 1 := ⟨n - 1, by omega⟩
  have htop : coef (polyScale builtTables (n + 1) (builtTables.expAt e.toNat)
      (erasureLocator builtTables (n + 1) es)) n = 0 := by
    rw [coef_polyScale, if_pos (Nat.lt_succ_self n),
      coef_erasureLocator_of_length_lt (by omega) (Nat.lt_succ_self n), gfMul_zero_right]
  rw [erasureLocator_concat, polyEval_polyAdd, polyEval_polyShift htop, polyEval_polyScale, builtTables_expAt (by omega),
    locatorFactor, fieldMul_xor_right, fieldMul_one_right, ← fieldMul_assoc, fieldMul_comm (fieldPow r),
    fieldMul_comm (polyEval ..) (fieldMul ..)]

/-- The value is the product of the factors of all locations (R162). -/
theorem polyEval_erasureLocator {n : Nat} {es : List Byte} (hn : es.length < n) (r : Nat) :
    polyEval builtTables n (erasureLocator builtTables n es) r =
      es.foldl (fun acc e => fieldMul acc (locatorFactor e r)) 1 := by
  induction es using List.reverseRecOn with
  | nil => exact polyEval_polyConst hn 0x01 r
  | append_singleton es e ih =>
    rw [List.length_append, List.length_singleton] at hn
    rw [polyEval_erasureLocator_concat hn, ih (by omega), List.foldl_append, List.foldl_cons, List.foldl_nil]

/-- The factor of location e is 0 at α^(-e) (R162). -/
theorem locatorFactor_inverse {e : Byte} (he : e.toNat ≤ 254) : locatorFactor e ((255 - e.toNat) % 255) = 0 := by
  rw [locatorFactor, fieldPow_mod, fieldMul_fieldPow, Nat.add_sub_cancel' (by omega), fieldPow_255]
  exact BitVec.xor_self

/-- A root of one location's factor is a root of the locator (R162). -/
theorem polyEval_erasureLocator_eq_zero {n r : Nat} {es : List Byte} {e : Byte} (hn : es.length < n) (he : e ∈ es)
    (hroot : locatorFactor e r = 0) : polyEval builtTables n (erasureLocator builtTables n es) r = 0 := by
  induction es using List.reverseRecOn with
  | nil => exact absurd he List.not_mem_nil
  | append_singleton es f ih =>
    rw [List.length_append, List.length_singleton] at hn
    rw [polyEval_erasureLocator_concat hn, fieldMul_eq_zero]
    rcases List.mem_append.1 he with he | he
    · exact .inl (ih (by omega) he)
    · exact .inr (List.mem_singleton.1 he ▸ hroot)

/-! ### The register GAMMA -/

/-- The erasures in force are the entries of ERA below ECNT (R34). -/
theorem State.erasures_eq_map (s : State) : s.erasures = (List.range s.ecnt.toNat).map s.era.read := by
  simp [State.erasures, Memory.bytes]

@[simp] theorem State.length_erasures (s : State) : s.erasures.length = s.ecnt.toNat := Memory.length_bytes ..

/-- The completion of GAMMA leaves the locator of the listed erasures in its register (R161). -/
theorem exec_gamma_poly {s t : State} (hb : s.busy = true) (hwf : s.polys.wf) (ht : s.tables = builtTables)
    (h : exec .gamma s = .next t) :
    t.maxdeg = s.maxdeg ∧ t.poly GAMMA = erasureLocator builtTables s.maxdeg s.erasures := by
  cases (exec_busy hb).symm.trans h
  refine ⟨rfl, ?_⟩
  rw [← ht]
  exact (State.poly_setPoly hwf GAMMA GAMMA (length_erasureLocator ..)).trans (if_pos rfl)

/-- Settles O37: the register holds the erasure locator, and ECNT < MAXDEG means that no product was truncated. -/
theorem gammaHasTheErasuresAsRoots : Obligations.GammaHasTheErasuresAsRoots := by
  unfold Obligations.GammaHasTheErasuresAsRoots
  intro s t hb hwf ht hcap h
  obtain ⟨hdeg, hpoly⟩ := exec_gamma_poly hb hwf ht h
  have hlen : s.erasures.length < s.maxdeg := by rwa [State.length_erasures]
  have heval (r : Nat) :
      t.evalAt GAMMA r = polyEval builtTables s.maxdeg (erasureLocator builtTables s.maxdeg s.erasures) r := by
    rw [State.evalAt_eq_polyEval, hdeg, hpoly]
  have hcoef (i : Nat) (hi : i < s.maxdeg) :
      t.coefAt GAMMA i = coef (erasureLocator builtTables s.maxdeg s.erasures) i := by
    rw [← hpoly, State.coef_poly, hdeg, if_pos hi]
    rfl
  refine ⟨fun r => ?product, ?constant, ?leading, fun i hi hin => ?above, fun k hk he => ?root⟩
  case product =>
    rw [heval, polyEval_erasureLocator hlen, State.erasures_eq_map, List.foldl_map]
    rfl
  case constant =>
    have hpos : 0 < s.maxdeg := by omega
    rw [hcoef 0 hpos, coef_erasureLocator_zero hpos]
  case leading =>
    rw [hcoef _ hcap, ← State.length_erasures]
    exact coef_erasureLocator_length_ne_zero hlen
  case above =>
    rw [hcoef i hin]
    exact coef_erasureLocator_of_length_lt (by rwa [State.length_erasures]) hin
  case root =>
    have hmem : s.era.read k ∈ s.erasures := by
      rw [State.erasures_eq_map]
      exact List.mem_map_of_mem (List.mem_range.2 hk)
    rw [heval]
    exact polyEval_erasureLocator_eq_zero hlen hmem (locatorFactor_inverse he)

end Sys2Proof.Machine

/-!
PROOFS. The event record (60_exceptions.md rules R201, R203 and R204): what taking an event shows in STATUS, and the
words the decoder refuses.
-/

namespace Sys2Proof.Machine

/-! ### Taking an event -/

/-- An event with a code sets its own sticky bit, number code - 1, and no other (R201). -/
theorem ErrorBits.set_bits_getLsbD (e : ErrorBits) (c : EventCode) (b : Nat) :
    (e.set c).bits.getLsbD b = (e.bits.getLsbD b || decide (b + 1 = c.bits.toNat)) := by
  by_cases hb : b < 6
  · rw [ErrorBits.bits_getLsbD, ErrorBits.bits_getLsbD]
    interval_cases b <;> cases c <;> simp [ErrorBits.set, EventCode.bits]
  · have hcode : c.bits.toNat ≤ 6 := by cases c <;> decide
    rw [BitVec.getLsbD_of_ge _ _ (by omega), BitVec.getLsbD_of_ge _ _ (by omega), decide_eq_false (by omega)]
    rfl

/-- An event sets STATUS[7 + code] and no other bit of STATUS (R201, R203). -/
theorem State.reject_status_getLsbD {c : EventCode} (hc : c ≠ .none) (s : State) (v : Word) (b : Nat) :
    (s.reject c v).status.getLsbD b = (s.status.getLsbD b || decide (b = 7 + c.bits.toNat)) := by
  have hpos : 1 ≤ c.bits.toNat := by
    cases c with
    | none => exact absurd rfl hc
    | _ => decide
  by_cases hlow : b < 8
  · have hbusy : (s.reject c v).busy = s.busy := rfl
    have hok : (s.reject c v).resultOk = s.resultOk := rfl
    simp [State.status_getLsbD, hbusy, hok, hlow, show b ≠ 7 + c.bits.toNat by omega]
  · have hbit : b - 8 + 1 = c.bits.toNat ↔ b = 7 + c.bits.toNat := by omega
    rw [State.status_getLsbD_of_ge (by omega), State.status_getLsbD_of_ge (by omega), State.reject_errors,
      ErrorBits.set_bits_getLsbD, decide_eq_decide.2 hbit]

/-- The whole record of an event: its sticky bit, ERRINFO and ERRCMD, and nothing else (R203, R207). -/
theorem State.reject_record {c : EventCode} {n : Nat} (hc : c ≠ .none) (hn : c.bits.toNat = n) (s : State) (v : Word) :
    s.reject c v = { s with errors := (s.reject c v).errors, errInfo := c, errCmd := v } ∧
    (s.reject c v).status.getLsbD (7 + n) = true ∧
    (∀ b, b ≠ 7 + n → (s.reject c v).status.getLsbD b = s.status.getLsbD b) ∧
    (s.reject c v).errInfoWord.toNat = n := by
  subst hn
  refine ⟨rfl, ?_, fun b hb => ?_, State.errInfoWord_toNat _⟩
  · rw [State.reject_status_getLsbD hc, decide_eq_true rfl, Bool.or_true]
  · rw [State.reject_status_getLsbD hc, decide_eq_false hb, Bool.or_false]

/-- Settles O9: the four rejections are events with a code, whose record is `State.reject_record`. -/
theorem rejectionWritesThreeThings : Obligations.RejectionWritesThreeThings := by
  unfold Obligations.RejectionWritesThreeThings
  rintro s c n v (⟨rfl, rfl⟩ | ⟨rfl, rfl⟩ | ⟨rfl, rfl⟩ | ⟨rfl, rfl⟩)
  all_goals exact State.reject_record (by decide) rfl s v

/-! ### The opcode map, row by row -/

/-- The polynomial index fields of the word v that a row of the map uses (R87). -/
def OpcodeRow.indices (r : OpcodeRow) (v : Word) : List PIdx :=
  (if r.usesPD then [fieldPD v] else []) ++ (if r.usesPA then [fieldPA v] else []) ++
    (if r.usesPB then [fieldPB v] else [])

/-- Whether the four bits of v from bit k on name a register, on numbers (R85). -/
theorem named_extractLsb' (v : Word) (k : Nat) :
    PIdx.named (v.extractLsb' k 4) = decide (v.toNat / 2 ^ k % 16 ≤ 12) := by
  rw [PIdx.named, BitVec.extractLsb'_toNat, Nat.shiftRight_eq_div_pow]

/-- A word encodes a row's command when its opcode and mask are the row's and every used index names a register. -/
theorem OpcodeRow.encodes_iff {r : OpcodeRow} {v : Word} : r.Encodes v ↔
    (fieldOp v).toNat = r.op ∧ v &&& r.mask = r.mtch ∧ (r.indices v).all PIdx.named = true := by
  have hop : (fieldOp v).toNat = v.toNat % 256 := BitVec.extractLsb'_toNat ..
  rw [OpcodeRow.Encodes, OpcodeRow.indices, hop, fieldPD, fieldPA, fieldPB]
  cases r.usesPD <;> cases r.usesPA <;> cases r.usesPB <;> simp [named_extractLsb']

/-- The row test of the decoder answers a command exactly when the mask matches and the command is well formed (R89). -/
theorem exists_decodeRow_legal {v mask mtch : Word} {i : Instr} :
    (∃ j, decodeRow v mask mtch i = .legal j) ↔ v &&& mask = mtch ∧ WellFormed i := by
  refine ⟨fun ⟨_, h⟩ => ?_, fun ⟨hmask, hwf⟩ => ⟨i, ?_⟩⟩
  · obtain ⟨hmask, -, hwf⟩ := decodeRow_legal h
    exact ⟨hmask, hwf⟩
  · rw [decodeRow, if_pos hmask, if_pos hwf]

/-- The decode procedure of R89 over any list of rows, each with the command it reads from v. -/
def decodeRows (v : Word) : List (OpcodeRow × Instr) → Decoded
  | [] => .illegal .reservedOpcode
  | (r, i) :: rows => if fieldOp v = BitVec.ofNat 8 r.op then decodeRow v r.mask r.mtch i else decodeRows v rows

/-- The commands that the rows of `opcodeMap` read from the word v, in the map's order (R87). -/
def rowCommands (v : Word) : List Instr :=
  [.init, .gmul (fieldA v) (fieldB v), .ginv (fieldA v), .pzero (fieldPD v), .pcopy (fieldPD v) (fieldPA v),
   .padd (fieldPD v) (fieldPA v) (fieldPB v), .pscale (fieldPD v) (fieldPA v) (fieldK v),
   .pmul (fieldPD v) (fieldPA v) (fieldPB v), .pshz (fieldPD v) (fieldPA v),
   .encode, .synd, .gamma, .bmsolve, .chien, .forney, .correct]

/-- The decoder is the procedure of R89 over the rows of R87. -/
theorem decode_eq_decodeRows (v : Word) : decode v = decodeRows v (opcodeMap.zip (rowCommands v)) := rfl

/-- Over rows with distinct opcodes, the procedure answers a command exactly when some row encodes the word. -/
theorem exists_decodeRows_legal {v : Word} {rows : List (OpcodeRow × Instr)}
    (hop : ∀ p ∈ rows, p.1.op < 256) (hdistinct : rows.Pairwise fun p q => p.1.op ≠ q.1.op)
    (hindices : ∀ p ∈ rows, p.2.indices = p.1.indices v) :
    (∃ i, decodeRows v rows = .legal i) ↔ ∃ p ∈ rows, p.1.Encodes v := by
  induction rows with
  | nil => simp [decodeRows]
  | cons p rows ih =>
    obtain ⟨r, i⟩ := p
    obtain ⟨hop, hops⟩ := List.forall_mem_cons.1 hop
    obtain ⟨hne, hdistinct⟩ := List.pairwise_cons.1 hdistinct
    obtain ⟨hidx, hindices⟩ := List.forall_mem_cons.1 hindices
    have hfield : fieldOp v = BitVec.ofNat 8 r.op ↔ (fieldOp v).toNat = r.op := by
      rw [← BitVec.toNat_inj, BitVec.toNat_ofNat, Nat.mod_eq_of_lt hop]
    rw [List.exists_mem_cons_iff, decodeRows]
    by_cases h : (fieldOp v).toNat = r.op
    · have hrest : ¬∃ p ∈ rows, p.1.Encodes v := fun ⟨p, hp, henc⟩ =>
        hne p hp (h.symm.trans (OpcodeRow.encodes_iff.1 henc).1)
      rw [if_pos (hfield.2 h), exists_decodeRow_legal, or_iff_left hrest, OpcodeRow.encodes_iff, ← hidx]
      exact (and_iff_right h).symm
    · have hrow : ¬r.Encodes v := fun henc => h (OpcodeRow.encodes_iff.1 henc).1
      rw [if_neg (mt hfield.1 h), ih hops hdistinct hindices, or_iff_right hrow]

/-- The decoder answers a command exactly for the words some row of R87 encodes. -/
theorem exists_decode_legal {v : Word} : (∃ i, decode v = .legal i) ↔ ∃ r ∈ opcodeMap, r.Encodes v := by
  have hrows : (opcodeMap.zip (rowCommands v)).map Prod.fst = opcodeMap := rfl
  have hop : ∀ r ∈ opcodeMap, r.op < 256 := by decide
  have hdistinct : opcodeMap.Pairwise fun r q => r.op ≠ q.op := by decide
  have hindices : (opcodeMap.zip (rowCommands v)).map (fun p => p.2.indices) =
      (opcodeMap.zip (rowCommands v)).map (fun p => p.1.indices v) := rfl
  rw [← hrows] at hop hdistinct ⊢
  rw [List.forall_mem_map] at hop
  rw [List.pairwise_map] at hdistinct
  rw [decode_eq_decodeRows, exists_decodeRows_legal hop hdistinct (List.map_inj_left.1 hindices)]
  simp only [List.mem_map, exists_exists_and_eq_and]

/-- The decoder refuses exactly the words that no row of R87 encodes (R88, R204). -/
theorem exists_decode_illegal {v : Word} : (∃ why, decode v = .illegal why) ↔ ¬∃ r ∈ opcodeMap, r.Encodes v := by
  rw [← exists_decode_legal]
  cases decode v <;> simp

/-! ### The write of CMD -/

/-- The step of a Host write to CMD, with BUSY = 0 and outside reset: the word is issued (R202). -/
theorem step_write_command {s : State} {addr : Addr} {v : Word} {rest : List Input}
    (h : OutsideActs s (.write addr v) rest) (hr : s.resetAsserted = false) (hb : s.busy = false)
    (hw : addr.toNat / 4 = 3) : step s = issueWord exec v (s.turn rest) := by
  have hl : locate (s.turn rest).config addr = .cmd := locate_eq_cmd.2 hw
  rw [step_outside h.1 h.2]
  rcases hostWrite_cases addr v (s.turn rest) with ⟨h1, -⟩ | ⟨-, h1, -⟩ | ⟨-, -, h1, -⟩ | ⟨-, -, -, h1⟩ | ⟨-, -, h1, -⟩
  · exact absurd (hr.symm.trans h1) (by decide)
  · exact absurd (hl.symm.trans h1) (by decide)
  · exact absurd (hb.symm.trans h1) (by decide)
  · exact h1
  · exact absurd hl h1

/-- Settles O4: the decoder runs over the rows of the map, and the issue of a word it refuses rejects it. -/
theorem illegalWordsAreExactlyThoseOfTheMap : Obligations.IllegalWordsAreExactlyThoseOfTheMap := by
  unfold Obligations.IllegalWordsAreExactlyThoseOfTheMap
  refine ⟨fun v => exists_decode_illegal, fun s addr v rest h hw hr hp hmap => ?_⟩
  obtain ⟨why, hd⟩ := exists_decode_illegal.2 hmap
  have hb : s.busy = false := by rw [State.busy, hp]; rfl
  rw [step_write_command h hr hb hw, issueWord, hd]

end Sys2Proof.Machine

/-!
PROOFS. The warning ZDIV (60_exceptions.md rule R207) and FORNEY's corrections (43_decoder.md rule R185): what each
located byte takes and when the warning is recorded, for FORNEY itself and for the FORNEY phase of CORRECT.
-/

namespace Sys2Proof.Machine

/-! ### One correction -/

/-- A correction changes CW, the event record and the scratch, and nothing else (R38, R185). -/
theorem forneyCorrect_frame (v : Word) (s : State) (i : Byte) : forneyCorrect v s i =
    { s with cw := (forneyCorrect v s i).cw, errors := (forneyCorrect v s i).errors,
             errInfo := (forneyCorrect v s i).errInfo, errCmd := (forneyCorrect v s i).errCmd,
             scratch := (forneyCorrect v s i).scratch } := by
  obtain ⟨_, _, h⟩ := forneyCorrect_eq v s i
  rw [h]
  split <;> rfl

@[simp] theorem forneyCorrect_config (v : Word) (s : State) (i : Byte) : (forneyCorrect v s i).config = s.config := by
  rw [forneyCorrect_frame]
@[simp] theorem forneyCorrect_len (v : Word) (s : State) (i : Byte) : (forneyCorrect v s i).len = s.len := by
  rw [forneyCorrect_frame]
@[simp] theorem forneyCorrect_polys (v : Word) (s : State) (i : Byte) : (forneyCorrect v s i).polys = s.polys := by
  rw [forneyCorrect_frame]
@[simp] theorem forneyCorrect_tables (v : Word) (s : State) (i : Byte) : (forneyCorrect v s i).tables = s.tables := by
  rw [forneyCorrect_frame]

/-- The numerator of any location is the same after a correction: the corrections commute (R185). -/
@[simp] theorem forneyNum_forneyCorrect (v : Word) (s : State) (i e : Byte) :
    forneyNum (forneyCorrect v s i) e = forneyNum s e := by
  simp [forneyNum, State.poly, State.maxdeg]

/-- The denominator of any location is the same after a correction. -/
@[simp] theorem forneyDen_forneyCorrect (v : Word) (s : State) (i e : Byte) :
    forneyDen (forneyCorrect v s i) e = forneyDen s e := by
  simp [forneyDen, State.poly, State.maxdeg]

/-- What FORNEY XORs into the byte of location e: num × gf_inv(den) (R185). -/
def forneyMagnitude (s : State) (e : Byte) : Byte := gfMul s.tables (forneyNum s e) (gfInv s.tables (forneyDen s e))

@[simp] theorem forneyMagnitude_forneyCorrect (v : Word) (s : State) (i e : Byte) :
    forneyMagnitude (forneyCorrect v s i) e = forneyMagnitude s e := by
  simp [forneyMagnitude]

/-- The one write of a correction (R185). -/
theorem forneyCorrect_cw (v : Word) (s : State) (i : Byte) : (forneyCorrect v s i).cw =
    s.cw.write (s.len.toNat - 1 - i.toNat) (s.cw.read (s.len.toNat - 1 - i.toNat) ^^^ forneyMagnitude s i) := by
  by_cases h : forneyDen s i = 0
  · rw [forneyCorrect, if_pos h]; rfl
  · rw [forneyCorrect, if_neg h]; rfl

/-! ### All the corrections -/

/-- Two locations in range with one byte are equal. -/
theorem eq_of_location_byte_eq {n : Nat} {e f : Byte} (he : e.toNat < n) (hf : f.toNat < n)
    (h : n - 1 - e.toNat = n - 1 - f.toNat) : e = f :=
  BitVec.eq_of_toNat_eq (by omega)

/-- Each of the distinct locations in range has its magnitude XORed into its byte (R185). -/
theorem forneyFold_cw_read (v : Word) {es : List Byte} {s : State} (hwf : s.cw.wf) (hnodup : es.Nodup)
    (hrange : ∀ e ∈ es, e.toNat < s.len.toNat) {e : Byte} (he : e ∈ es) :
    (es.foldl (forneyCorrect v) s).cw.read (s.len.toNat - 1 - e.toNat) =
      s.cw.read (s.len.toNat - 1 - e.toNat) ^^^ forneyMagnitude s e := by
  induction es generalizing s with
  | nil => exact absurd he List.not_mem_nil
  | cons f es ih =>
    obtain ⟨hf, hnodup⟩ := List.nodup_cons.1 hnodup
    obtain ⟨hfrange, htailRange⟩ := List.forall_mem_cons.1 hrange
    have hwf' : (forneyCorrect v s f).cw.wf := by rw [forneyCorrect_cw]; exact Memory.write_wf hwf _ _
    rw [List.foldl_cons]
    rcases List.mem_cons.1 he with rfl | he
    · have hother : ∀ e' ∈ es, s.len.toNat - 1 - e.toNat ≠ s.len.toNat - 1 - e'.toNat := fun e' he' h =>
        hf (eq_of_location_byte_eq hfrange (htailRange e' he') h ▸ he')
      obtain ⟨_, _, _, _, _, hfold, -, hkeep, -⟩ := forneyFold_frame v es (forneyCorrect v s e)
      rw [hfold, (hkeep hwf').2 _ (by simpa using hother), forneyCorrect_cw, Memory.read_write_same hwf]
    · have hne : s.len.toNat - 1 - e.toNat ≠ s.len.toNat - 1 - f.toNat := fun h =>
        hf (eq_of_location_byte_eq (htailRange e he) hfrange h ▸ he)
      have htail := ih (s := forneyCorrect v s f) hwf' hnodup (by simpa using htailRange) he
      rw [forneyCorrect_len, forneyMagnitude_forneyCorrect] at htail
      rw [htail, forneyCorrect_cw, Memory.read_write_other hwf hne]

/-- The event record of t is the one of s with the warning of the word v (R207). -/
def Warned (s t : State) (v : Word) : Prop :=
  t.errors = { s.errors with zdiv := true } ∧ t.errInfo = .zdiv ∧ t.errCmd = v

/-- A denominator 0 among the locations leaves the warning recorded (R185, R207). -/
theorem forneyFold_warned (v : Word) {es : List Byte} {s : State} (h : ∃ e ∈ es, forneyDen s e = 0) :
    Warned s (es.foldl (forneyCorrect v) s) v := by
  induction es generalizing s with
  | nil => simp at h
  | cons f es ih =>
    rw [List.foldl_cons]
    obtain ⟨_, _, hf⟩ := forneyCorrect_eq v s f
    by_cases hden : forneyDen s f = 0
    · rw [if_pos hden] at hf
      obtain ⟨_, errors, errInfo, errCmd, _, hfold, hwarn, -⟩ := forneyFold_frame v es (forneyCorrect v s f)
      rw [hfold]
      rw [hf] at hwarn
      rcases hwarn with hkept | hagain
      · exact hkept
      · exact hagain
    · rw [if_neg hden] at hf
      have htail : ∃ e ∈ es, forneyDen (forneyCorrect v s f) e = 0 := by
        simpa only [forneyDen_forneyCorrect] using ((List.exists_mem_cons_iff ..).1 h).resolve_left hden
      have hkept : (forneyCorrect v s f).errors = s.errors := by rw [hf]
      obtain ⟨herrors, hrest⟩ := ih htail
      exact ⟨hkept ▸ herrors, hrest⟩

/-! ### Over the built tables -/

/-- gf_inv(0) = 1 over the built tables (R103). -/
theorem gfInv_built_zero : gfInv builtTables 0 = 1 := by
  rw [gfInv_built, builtTables_logAt_zero]
  exact fieldPow_255

/-- FORNEY's numerator without tables (R163, R185). -/
theorem forneyNum_built {s : State} (ht : s.tables = builtTables) (e : Byte) :
    forneyNum s e = s.evalAt OMEGA (255 - e.toNat) := by
  rw [forneyNum, ht, State.evalAt_eq_polyEval]

/-- FORNEY's denominator without tables (R185, R187). -/
theorem forneyDen_built {s : State} (ht : s.tables = builtTables) (e : Byte) :
    forneyDen s e = s.derivAt LAMBDA (255 - e.toNat) := by
  rw [forneyDen, ht, polyDerivEval, State.derivAt]
  refine xorSum_congr fun j hj => ?_
  rw [State.coef_poly, if_pos hj, gfMul_built, alphaPow_built]
  rfl

/-- With denominator 0 the magnitude is the numerator (R103, R185). -/
theorem forneyMagnitude_of_den_eq_zero {s : State} (ht : s.tables = builtTables) {e : Byte}
    (hden : s.derivAt LAMBDA (255 - e.toNat) = 0) : forneyMagnitude s e = s.evalAt OMEGA (255 - e.toNat) := by
  rw [forneyMagnitude, forneyDen_built ht, hden, ht, gfInv_built_zero, gfMul_built, fieldMul_one_right,
    forneyNum_built ht]

/-! ### FORNEY's body with a denominator 0 -/

/-- Where both checks pass, FORNEY's body is its corrections and the outcome CORRECTED (R185). -/
theorem forneyBody_of_pass {s : State} (hrange : ∀ e ∈ s.locations, e.toNat < s.len.toNat) (hpos : 1 ≤ s.nerr.toNat)
    (hle : s.nerr.toNat ≤ s.npar) (v : Word) : forneyBody v s =
      { s.locations.foldl (forneyCorrect v) s with outcome := .corrected, failCause := .none } := by
  rcases forneyBody_cases v s with ⟨⟨e, he, hlen⟩, -⟩ | ⟨-, hzero | hmany, -⟩ | ⟨-, -, -, h⟩
  · exact absurd hlen (Nat.not_le.2 (hrange e he))
  · rw [hzero] at hpos
    exact absurd hpos (by decide)
  · exact absurd hle (Nat.not_le.2 hmany)
  · exact h

/-- FORNEY's body for the word v where its checks pass on distinct locations and a denominator is 0: the outcome is
CORRECTED, the warning is recorded, and the bytes of the locations with denominator 0 take their numerators. -/
theorem forneyBody_of_zeroDenominator {s : State} (ht : s.tables = builtTables) (hwf : s.cw.wf) (hz : ZeroDenominator s)
    (hnodup : s.locations.Nodup) (v : Word) :
    (forneyBody v s).outcome = .corrected ∧ (forneyBody v s).failCause = .none ∧ Warned s (forneyBody v s) v ∧
    CorrectedByNumerators s (forneyBody v s) := by
  obtain ⟨hrange, hpos, hle, k, hk, hden⟩ := hz
  have hlocations : ∀ e ∈ s.locations, e.toNat < s.len.toNat := by
    intro e he
    obtain ⟨k, hk, rfl⟩ := State.mem_locations.1 he
    exact hrange k hk
  have hzero : ∃ e ∈ s.locations, forneyDen s e = 0 :=
    ⟨_, State.mem_locations.2 ⟨k, hk, rfl⟩, (forneyDen_built ht _).trans hden⟩
  rw [forneyBody_of_pass hlocations hpos hle]
  refine ⟨rfl, rfl, forneyFold_warned v hzero, fun k hk hden => ?_⟩
  have hmem : s.errloc.read k ∈ s.locations := State.mem_locations.2 ⟨k, hk, rfl⟩
  rw [← forneyMagnitude_of_den_eq_zero ht hden]
  exact forneyFold_cw_read v hwf hnodup hlocations hmem

/-! ### The stages of CORRECT before FORNEY -/

/-- s with another pending word and wait. -/
def State.pendingWith (s : State) (p : Option Word) (w : Nat) : State := { s with pending := p, engineWait := w }

theorem State.complete_pendingWith (s : State) (p : Option Word) (w : Nat) : (s.pendingWith p w).complete = s.complete := rfl

theorem effectOf_gamma_pendingWith (s : State) (p : Option Word) (w : Nat) :
    effectOf .gamma (s.pendingWith p w) = (effectOf .gamma s).pendingWith p w := rfl

theorem effectOf_bmsolve_pendingWith (s : State) (p : Option Word) (w : Nat) :
    effectOf .bmsolve (s.pendingWith p w) = (effectOf .bmsolve s).pendingWith p w := rfl

theorem effectOf_chien_pendingWith (s : State) (p : Option Word) (w : Nat) :
    effectOf .chien (s.pendingWith p w) = (effectOf .chien s).pendingWith p w := rfl

/-- A command whose effect does not look at the pending word, completing on the state another completion left. -/
theorem exec_after_complete {i : Instr} {s : State} (v : Word)
    (h : effectOf i (s.pendingWith (some v) 0) = (effectOf i s).pendingWith (some v) 0) :
    exec i { s.complete with pending := some v } = .next (effectOf i s).complete := by
  have hs : { s.complete with pending := some v } = s.pendingWith (some v) 0 := rfl
  rw [hs, exec_busy rfl, h, State.complete_pendingWith]

/-- The state before CORRECT's FORNEY phase, less its scratch (R190). -/
def correctStages (s : State) : State := effectChien (effectBmsolve (effectGamma (effectSynd s)))

/-- GAMMA, BMSOLVE and CHIEN as commands of their own, each on the state the one before left, end in the state before
CORRECT's FORNEY phase with nothing pending (R190). -/
theorem exec_stages {s u1 u2 u3 u4 : State} {v : Word} (hb : s.busy = true) (h1 : exec .synd s = .next u1)
    (h2 : exec .gamma { u1 with pending := some v } = .next u2)
    (h3 : exec .bmsolve { u2 with pending := some v } = .next u3)
    (h4 : exec .chien { u3 with pending := some v } = .next u4) :
    u1 = (effectSynd s).complete ∧ u4 = (correctStages s).complete := by
  obtain rfl := Host.Outcome.next.inj ((exec_busy hb).symm.trans h1)
  obtain rfl := Host.Outcome.next.inj ((exec_after_complete v (effectOf_gamma_pendingWith ..)).symm.trans h2)
  obtain rfl := Host.Outcome.next.inj ((exec_after_complete v (effectOf_bmsolve_pendingWith ..)).symm.trans h3)
  obtain rfl := Host.Outcome.next.inj ((exec_after_complete v (effectOf_chien_pendingWith ..)).symm.trans h4)
  exact ⟨rfl, rfl⟩

/-- The stages before FORNEY change neither the tables, nor CW, nor the event record (R38). -/
theorem correctStages_frame (s : State) : (correctStages s).tables = s.tables ∧ (correctStages s).cw = s.cw ∧
    (correctStages s).errors = s.errors := by
  rw [correctStages, effectChien_eq, effectBmsolve_eq, effectGamma_eq, effectSynd_eq]
  exact ⟨rfl, rfl, rfl⟩

/-! ### The locations CHIEN finds -/

/-- The locations found are distinct (R180, R181). -/
theorem rootLocations_nodup (t : Tables) (n : Nat) (p : Poly) : (rootLocations t n p).Nodup := by
  have hpoints : ((List.range 255).map (fun i => i + 1)).Nodup :=
    List.nodup_range.map fun _ _ h => Nat.succ.inj h
  refine (hpoints.filter _).map_on fun a ha b hb hab => ?_
  obtain ⟨i, hi, rfl⟩ := List.mem_map.1 (List.mem_filter.1 ha).1
  obtain ⟨j, hj, rfl⟩ := List.mem_map.1 (List.mem_filter.1 hb).1
  rw [List.mem_range] at hi hj
  have := congrArg BitVec.toNat hab
  simp only [BitVec.toNat_ofNat] at this
  omega

/-- CHIEN leaves the locations it found in ERRLOC[0..NERR-1] (R180). -/
theorem effectChien_locations (s : State) :
    (effectChien s).locations = rootLocations s.tables s.maxdeg (s.poly LAMBDA) := by
  obtain ⟨hnerr, herrloc⟩ := effectChien_located s
  have hlen := length_rootLocations s.tables s.maxdeg (s.poly LAMBDA)
  rw [State.locations, hnerr, herrloc, BitVec.toNat_ofNat, Nat.mod_eq_of_lt (by omega)]
  refine List.ext_getElem (Memory.length_bytes ..) fun i _ hi => ?_
  simp [Memory.bytes, Memory.read_ofBytes, hi]

/-! ### The warning -/

/-- A second warning with the same word changes nothing (R207). -/
theorem State.warnZdiv_warnZdiv (s : State) (v : Word) : (s.warnZdiv v).warnZdiv v = s.warnZdiv v := rfl

/-- The completion of GINV with A = 0 (R111, R207). -/
theorem exec_ginv_zero {s : State} (hb : s.busy = true) (ht : s.tables = builtTables) :
    exec (.ginv 0) s = .next { s.warnZdiv 0x00000011 with result := 1, pending := none, engineWait := 0 } := by
  have hword : encode (.ginv 0) = 0x00000011 := by decide
  have hresult : gfInv s.tables 0 = 1 := by rw [ht, gfInv_built_zero]
  rw [exec_busy hb, effectOf, effectGinv, if_pos rfl, hword, hresult]
  rfl

/-- The completion of FORNEY with a denominator 0 (R185, R207). -/
theorem exec_forney_zeroDenominator {s : State} (hb : s.busy = true) (ht : s.tables = builtTables) (hwf : s.cw.wf)
    (hz : ZeroDenominator s) (hnodup : s.locations.Nodup) :
    ∃ t, exec .forney s = .next t ∧ CompletesWithWarning s t 0x00000035 ∧ CorrectedByNumerators s t := by
  have hword : encode .forney = 0x00000035 := by decide
  obtain ⟨houtcome, hcause, hwarned, hcorrected⟩ := forneyBody_of_zeroDenominator ht hwf hz hnodup 0x00000035
  refine ⟨_, exec_busy hb, ?_⟩
  rw [effectOf, hword]
  exact ⟨⟨rfl, houtcome, hcause, hwarned⟩, hcorrected⟩

/-- The completion of CORRECT whose FORNEY phase meets a denominator 0 (R190, R207). -/
theorem exec_correct_zeroDenominator {s : State} (hb : s.busy = true) (ht : s.tables = builtTables) (hwf : s.cw.wf)
    (hdirty : (effectSynd s).clean = false) (hz : ZeroDenominator (correctStages s)) :
    ∃ t, exec .correct s = .next t ∧ CompletesWithWarning s t 0x00000036 ∧ CorrectedByNumerators (correctStages s) t := by
  have hword : encode .correct = 0x00000036 := by decide
  obtain ⟨htables, hcw, herrors⟩ := correctStages_frame s
  have hwf' : (correctStages s).cw.wf := by rwa [hcw]
  have hnodup : (correctStages s).locations.Nodup := by
    rw [correctStages, effectChien_locations]
    exact rootLocations_nodup ..
  obtain ⟨houtcome, hcause, hwarned, hcorrected⟩ :=
    forneyBody_of_zeroDenominator (htables.trans ht) hwf' hz hnodup 0x00000036
  obtain ⟨sc, heffect⟩ : ∃ sc, effectCorrect s = (forneyBody (encode .correct) (correctStages s)).withScratch sc :=
    effectCorrect_dirty hdirty
  rw [hword] at heffect
  rw [Warned, herrors] at hwarned
  refine ⟨_, exec_busy hb, ?_⟩
  rw [effectOf, heffect]
  generalize forneyBody 0x00000036 (correctStages s) = u at houtcome hcause hwarned hcorrected
  exact ⟨⟨rfl, houtcome, hcause, hwarned⟩, hcorrected⟩

/-- Settles O50: the record of an event with code 6, and the completions of the three commands that warn. -/
theorem zdivIsRecordedAndTheCommandCompletes : Obligations.ZdivIsRecordedAndTheCommandCompletes := by
  unfold Obligations.ZdivIsRecordedAndTheCommandCompletes
  refine ⟨fun s v => ?_, fun s => exec_ginv_zero, fun s => exec_forney_zeroDenominator, ?_⟩
  · obtain ⟨hframe, hset, hkept, hcode⟩ := State.reject_record (c := .zdiv) (n := 6) (by decide) rfl s v
    exact ⟨hframe, hset, hkept, hcode, State.warnZdiv_warnZdiv s v⟩
  · intro s u1 u2 u3 u4 v hb ht hwf h1 hdirty h2 h3 h4 hz
    obtain ⟨rfl, rfl⟩ := exec_stages hb h1 h2 h3 h4
    exact exec_correct_zeroDenominator hb ht hwf hdirty hz

end Sys2Proof.Machine

/-!
PROOFS. The decoder and the encoder are inverse to each other (30_encoding.md rules R80 to R90).
-/

namespace Sys2Proof

/-! ### A word and its masks -/

/-- What a masked word shows under a smaller mask (R89). -/
theorem and_of_and_eq {v mask mtch sub : Word} (h : v &&& mask = mtch) (hsub : mask &&& sub = sub) :
    v &&& sub = mtch &&& sub := by
  rw [← h, BitVec.and_assoc, hsub]

/-- A bit that a mask keeps, of a word that is 0 under the mask. -/
theorem getLsbD_of_and_eq_zero {v mask : Word} {i : Nat} (h : v &&& mask = 0) (hi : mask.getLsbD i = true) :
    v.getLsbD i = false := by
  have hbit : (v &&& mask).getLsbD i = (0 : Word).getLsbD i := by rw [h]
  rw [BitVec.getLsbD_and, hi, Bool.and_true] at hbit
  rw [hbit]
  exact BitVec.getLsbD_zero

/-! ### The fields of a word put together again -/

/-- A word of format C is its opcode (R81). -/
theorem formatC_fieldOp {v : Word} (h : v &&& 0xFFFFFF00 = 0) : formatC (fieldOp v) = v := by
  have hbits : ∀ i < 32, 8 ≤ i → v.getLsbD i = false := fun i hi h8 =>
    getLsbD_of_and_eq_zero h (by interval_cases i <;> rfl)
  refine word_ext fun i hi => ?_
  rw [getLsbD_formatC, fieldOp, BitVec.getLsbD_extractLsb']
  by_cases h8 : i < 8
  · simp [h8]
  · simp [h8, hbits i hi (by omega)]

/-- A word of format S is its opcode, A and B (R82). -/
theorem formatS_fields {v : Word} (h : v &&& 0x0000FF00 = 0) : formatS (fieldOp v) (fieldA v) (fieldB v) = v := by
  have hbits : ∀ i, 8 ≤ i → i < 16 → v.getLsbD i = false := fun i h8 h16 =>
    getLsbD_of_and_eq_zero h (by interval_cases i <;> rfl)
  refine word_ext fun i hi => ?_
  rw [getLsbD_formatS, fieldOp, fieldA, fieldB, BitVec.getLsbD_extractLsb', BitVec.getLsbD_extractLsb',
    BitVec.getLsbD_extractLsb']
  split_ifs with h8 h16 h24
  · simp [h8]
  · rw [hbits i (by omega) h16]
  · simp [show i - 16 < 8 by omega, show 16 + (i - 16) = i by omega]
  · simp [show i - 24 < 8 by omega, show 24 + (i - 24) = i by omega]

/-- A word of format P is its opcode, PD, PA, PB and K (R83). -/
theorem formatP_fields {v : Word} (h : v &&& 0x00F00000 = 0) :
    formatP (fieldOp v) (fieldPD v) (fieldPA v) (fieldPB v) (fieldK v) = v := by
  have hbits : ∀ i, 20 ≤ i → i < 24 → v.getLsbD i = false := fun i h20 h24 =>
    getLsbD_of_and_eq_zero h (by interval_cases i <;> rfl)
  refine word_ext fun i hi => ?_
  rw [getLsbD_formatP, fieldOp, fieldPD, fieldPA, fieldPB, fieldK]
  simp only [BitVec.getLsbD_extractLsb']
  split_ifs with h8 h12 h16 h20 h24
  · simp [h8]
  · simp [show i - 8 < 4 by omega, show 8 + (i - 8) = i by omega]
  · simp [show i - 12 < 4 by omega, show 12 + (i - 12) = i by omega]
  · simp [show i - 16 < 4 by omega, show 16 + (i - 16) = i by omega]
  · rw [hbits i (by omega) h24]
  · simp [show i - 24 < 8 by omega, show 24 + (i - 24) = i by omega]

/-- A field of w bits from bit k on is 0 when the word is 0 under a mask that keeps those bits. -/
theorem extractLsb'_eq_zero {v mask : Word} {k w : Nat} (h : v &&& mask = 0)
    (hmask : ∀ i < w, mask.getLsbD (k + i) = true) : v.extractLsb' k w = 0 := by
  refine BitVec.eq_of_getLsbD_eq fun i hi => ?_
  rw [BitVec.getLsbD_extractLsb', getLsbD_of_and_eq_zero h (hmask i hi), Bool.and_false]
  exact BitVec.getLsbD_zero.symm

theorem fieldB_eq_zero {v : Word} (h : v &&& 0xFF000000 = 0) : fieldB v = 0 := extractLsb'_eq_zero h (by decide)
theorem fieldK_eq_zero {v : Word} (h : v &&& 0xFF000000 = 0) : fieldK v = 0 := extractLsb'_eq_zero h (by decide)
theorem fieldPA_eq_zero {v : Word} (h : v &&& 0x0000F000 = 0) : fieldPA v = 0 := extractLsb'_eq_zero h (by decide)
theorem fieldPB_eq_zero {v : Word} (h : v &&& 0x000F0000 = 0) : fieldPB v = 0 := extractLsb'_eq_zero h (by decide)

/-! ### A legal word is an encoding -/

/-- A legal word of format C (R87): every bit above the opcode is masked. -/
theorem formatC_of_mask {v : Word} {op : Byte} {mtch : Word} (hop : fieldOp v = op) (h : v &&& 0xFFFFFFFF = mtch)
    (hm : mtch &&& 0xFFFFFF00 = 0) : formatC op = v := by
  rw [← hop]
  exact formatC_fieldOp ((and_of_and_eq h (by decide)).trans hm)

/-- A legal word of format P (R87): its mask covers bits 23:20, and every field the row does not use is 0. -/
theorem formatP_of_mask {v mask mtch : Word} {op : Byte} {pa pb : PIdx} {k : Byte} (hop : fieldOp v = op)
    (h : v &&& mask = mtch) (hmask : mask &&& 0x00F00000 = 0x00F00000) (hm : mtch &&& 0x00F00000 = 0)
    (hpa : fieldPA v = pa) (hpb : fieldPB v = pb) (hk : fieldK v = k) : formatP op (fieldPD v) pa pb k = v := by
  rw [← hop, ← hpa, ← hpb, ← hk]
  exact formatP_fields ((and_of_and_eq h hmask).trans hm)

/-- A decoded word is the encoding of its command (R87, R90). -/
theorem encode_of_legal {v : Word} {i : Instr} (h : decode v = .legal i) : encode i = v := by
  rcases decode_eq_of_legal h with ⟨hop, h⟩ | ⟨hop, h⟩ | ⟨hop, h⟩ | ⟨hop, h⟩ | ⟨hop, h⟩ | ⟨hop, h⟩ | ⟨hop, h⟩ |
    ⟨hop, h⟩ | ⟨hop, h⟩ | ⟨hop, h⟩ | ⟨hop, h⟩ | ⟨hop, h⟩ | ⟨hop, h⟩ | ⟨hop, h⟩ | ⟨hop, h⟩ | ⟨hop, h⟩ <;>
  obtain ⟨hmask, rfl, -⟩ := decodeRow_legal h <;>
  rw [encode]
  · exact formatC_of_mask hop hmask (by decide)
  · rw [← hop]
    exact formatS_fields (and_of_and_eq hmask (by decide))
  · rw [← hop, ← fieldB_eq_zero (and_of_and_eq hmask (by decide))]
    exact formatS_fields (and_of_and_eq hmask (by decide))
  · exact formatP_of_mask hop hmask (by decide) (by decide) (fieldPA_eq_zero (and_of_and_eq hmask (by decide)))
      (fieldPB_eq_zero (and_of_and_eq hmask (by decide))) (fieldK_eq_zero (and_of_and_eq hmask (by decide)))
  · exact formatP_of_mask hop hmask (by decide) (by decide) rfl
      (fieldPB_eq_zero (and_of_and_eq hmask (by decide))) (fieldK_eq_zero (and_of_and_eq hmask (by decide)))
  · exact formatP_of_mask hop hmask (by decide) (by decide) rfl rfl (fieldK_eq_zero (and_of_and_eq hmask (by decide)))
  · exact formatP_of_mask hop hmask (by decide) (by decide) rfl (fieldPB_eq_zero (and_of_and_eq hmask (by decide))) rfl
  · exact formatP_of_mask hop hmask (by decide) (by decide) rfl rfl (fieldK_eq_zero (and_of_and_eq hmask (by decide)))
  · exact formatP_of_mask hop hmask (by decide) (by decide) rfl
      (fieldPB_eq_zero (and_of_and_eq hmask (by decide))) (fieldK_eq_zero (and_of_and_eq hmask (by decide)))
  all_goals exact formatC_of_mask hop hmask (by decide)

/-- Settles O3: the fields a decoded word shows, put together again, are the word. -/
theorem legalWordIsTheEncodingOfItsCommand : Obligations.LegalWordIsTheEncodingOfItsCommand :=
  fun _ _ h => ⟨wellFormed_of_legal h, encode_of_legal h⟩

/-! ### An encoding is a legal word -/

/-- The row test of the decoder on a word that matches (R89). -/
theorem decodeRow_of_and_eq {v mask mtch : Word} {i : Instr} (h : v &&& mask = mtch) (hw : WellFormed i) :
    decodeRow v mask mtch i = .legal i := by
  rw [decodeRow, if_pos h, if_pos hw]

/-- A field x at bit k shows nothing under a mask when it is 0 or the mask leaves it out. -/
theorem masked_field {mask : Word} {w k : Nat} {x : BitVec w} (h : x = 0 ∨ ∀ i < w, mask.getLsbD (k + i) = false)
    {i : Nat} (hk : k ≤ i) (hi : i < k + w) : (x.getLsbD (i - k) && mask.getLsbD i) = false := by
  rcases h with rfl | h
  · rw [show (0 : BitVec w).getLsbD (i - k) = false from BitVec.getLsbD_zero, Bool.false_and]
  · have hbit := h (i - k) (by omega)
    rw [Nat.add_sub_cancel' hk] at hbit
    rw [hbit, Bool.and_false]

/-- Under a mask that keeps the opcode and leaves out the fields in use, a format S word shows its opcode (R82, R87). -/
theorem formatS_and_eq {mask : Word} {op a b : Byte} (hop : ∀ i < 8, mask.getLsbD i = true)
    (ha : a = 0 ∨ ∀ i < 8, mask.getLsbD (16 + i) = false) (hb : b = 0 ∨ ∀ i < 8, mask.getLsbD (24 + i) = false) :
    formatS op a b &&& mask = formatC op := by
  refine word_ext fun i hi => ?_
  rw [BitVec.getLsbD_and, getLsbD_formatS, getLsbD_formatC]
  split_ifs with h8 h16 h24
  · rw [hop i h8, Bool.and_true, decide_eq_true h8, Bool.true_and]
  · simp [h8]
  · rw [masked_field ha (by omega) h24, decide_eq_false h8, Bool.false_and]
  · rw [masked_field hb (by omega) hi, decide_eq_false h8, Bool.false_and]

/-- Under a mask that keeps the opcode and leaves out the fields in use, a format P word shows its opcode (R83, R87). -/
theorem formatP_and_eq {mask : Word} {op : Byte} {pd pa pb : PIdx} {k : Byte} (hop : ∀ i < 8, mask.getLsbD i = true)
    (hpd : pd = 0 ∨ ∀ i < 4, mask.getLsbD (8 + i) = false) (hpa : pa = 0 ∨ ∀ i < 4, mask.getLsbD (12 + i) = false)
    (hpb : pb = 0 ∨ ∀ i < 4, mask.getLsbD (16 + i) = false) (hk : k = 0 ∨ ∀ i < 8, mask.getLsbD (24 + i) = false) :
    formatP op pd pa pb k &&& mask = formatC op := by
  refine word_ext fun i hi => ?_
  rw [BitVec.getLsbD_and, getLsbD_formatP, getLsbD_formatC]
  split_ifs with h8 h12 h16 h20 h24
  · rw [hop i h8, Bool.and_true, decide_eq_true h8, Bool.true_and]
  · rw [masked_field hpd (by omega) h12, decide_eq_false h8, Bool.false_and]
  · rw [masked_field hpa (by omega) h16, decide_eq_false h8, Bool.false_and]
  · rw [masked_field hpb (by omega) h20, decide_eq_false h8, Bool.false_and]
  · simp [h8]
  · rw [masked_field hk (by omega) hi, decide_eq_false h8, Bool.false_and]

/-- Decoding an encoding gives the command back: its opcode selects its row, whose mask leaves out just the fields the
command uses (R87 to R90). -/
theorem decode_encode {i : Instr} (hw : WellFormed i) : decode (encode i) = .legal i := by
  cases i with
  | gmul a b =>
    have hmask : formatS 0x10 a b &&& 0x0000FFFF = 0x00000010 :=
      formatS_and_eq (by decide) (.inr (by decide)) (.inr (by decide))
    simpa [decode, encode] using decodeRow_of_and_eq hmask hw
  | ginv a =>
    have hmask : formatS 0x11 a 0 &&& 0xFF00FFFF = 0x00000011 :=
      formatS_and_eq (by decide) (.inr (by decide)) (.inl rfl)
    simpa [decode, encode] using decodeRow_of_and_eq hmask hw
  | pzero pd =>
    have hmask : formatP 0x20 pd 0 0 0 &&& 0xFFFFF0FF = 0x00000020 :=
      formatP_and_eq (by decide) (.inr (by decide)) (.inl rfl) (.inl rfl) (.inl rfl)
    simpa [decode, encode] using decodeRow_of_and_eq hmask hw
  | pcopy pd pa =>
    have hmask : formatP 0x21 pd pa 0 0 &&& 0xFFFF00FF = 0x00000021 :=
      formatP_and_eq (by decide) (.inr (by decide)) (.inr (by decide)) (.inl rfl) (.inl rfl)
    simpa [decode, encode] using decodeRow_of_and_eq hmask hw
  | padd pd pa pb =>
    have hmask : formatP 0x22 pd pa pb 0 &&& 0xFFF000FF = 0x00000022 :=
      formatP_and_eq (by decide) (.inr (by decide)) (.inr (by decide)) (.inr (by decide)) (.inl rfl)
    simpa [decode, encode] using decodeRow_of_and_eq hmask hw
  | pscale pd pa k =>
    have hmask : formatP 0x23 pd pa 0 k &&& 0x00FF00FF = 0x00000023 :=
      formatP_and_eq (by decide) (.inr (by decide)) (.inr (by decide)) (.inl rfl) (.inr (by decide))
    simpa [decode, encode] using decodeRow_of_and_eq hmask hw
  | pmul pd pa pb =>
    have hmask : formatP 0x24 pd pa pb 0 &&& 0xFFF000FF = 0x00000024 :=
      formatP_and_eq (by decide) (.inr (by decide)) (.inr (by decide)) (.inr (by decide)) (.inl rfl)
    simpa [decode, encode] using decodeRow_of_and_eq hmask hw
  | pshz pd pa =>
    have hmask : formatP 0x25 pd pa 0 0 &&& 0xFFFF00FF = 0x00000025 :=
      formatP_and_eq (by decide) (.inr (by decide)) (.inr (by decide)) (.inl rfl) (.inl rfl)
    simpa [decode, encode] using decodeRow_of_and_eq hmask hw
  | init => decide
  | encode => decide
  | synd => decide
  | gamma => decide
  | bmsolve => decide
  | chien => decide
  | forney => decide
  | correct => decide

/-- Settles O2: every row of the map reads back the fields its format wrote. -/
theorem decodeOfEncodeIsTheCommand : Obligations.DecodeOfEncodeIsTheCommand := fun _ hw => decode_encode hw

/-- Settles O1: the words of the spec, decoded. -/
theorem decodesWordsOfTheSpec : Obligations.DecodesWordsOfTheSpec := by
  unfold Obligations.DecodesWordsOfTheSpec
  decide

end Sys2Proof

/-!
PROOFS. The issue of a command: its checks in the order of 60_exceptions.md rules R202 and R209, and the step that runs
it.
-/

namespace Sys2Proof.Machine

/-! ### The register operands (R205) -/

theorem paramInit_iff (s : State) : paramInit s = true ↔ s.nparReq.toNat = 0 ∨ s.config.nparMax < s.nparReq.toNat := by
  have hzero : s.nparReq = 0 ↔ s.nparReq.toNat = 0 := BitVec.toNat_inj.symm
  rw [paramInit, Bool.or_eq_true, decide_eq_true_iff, decide_eq_true_iff, hzero]

theorem paramEncode_iff (s : State) : paramEncode s = true ↔ 255 < s.len.toNat + s.npar := decide_eq_true_iff

theorem paramBmsolve_iff (s : State) : paramBmsolve s = true ↔ s.npar < s.ecnt.toNat := decide_eq_true_iff

theorem paramErasures_iff (s : State) : paramErasures s = true ↔ BadErasures s := by
  simp [paramErasures, BadErasures, State.erasures_eq_map]

/-- The fields of State that the checks of R205 look at. -/
structure SameOperands (s t : State) : Prop where
  config : t.config = s.config
  nparReq : t.nparReq = s.nparReq
  nparAct : t.nparAct = s.nparAct
  len : t.len = s.len
  ecnt : t.ecnt = s.ecnt
  era : t.era = s.era

theorem ParamViolation.congr {s t : State} (h : SameOperands s t) (i : Instr) : ParamViolation i t ↔ ParamViolation i s := by
  obtain ⟨hconfig, hreq, hact, hlen, hecnt, hera⟩ := h
  cases i <;> simp only [ParamViolation, BadErasures, State.npar, hconfig, hreq, hact, hlen, hecnt, hera]

theorem Passes.congr {s t : State} (h : SameOperands s t) (hinit : t.initDone = s.initDone) (i : Instr) :
    Passes i t ↔ Passes i s := by
  rw [Passes, Passes, ParamViolation.congr h, hinit]

theorem turn_sameOperands (s : State) (rest : List Input) : SameOperands s (s.turn rest) := ⟨rfl, rfl, rfl, rfl, rfl, rfl⟩

/-! ### Everything the issue check can answer -/

/-- The issue check of a command that NOTINIT lets pass (R202): RO before PARAM, each by its rule. -/
theorem issueCheck_ready {i : Instr} {s : State} (h : i = .init ∨ s.initDone = true) :
    (s.initDone = true ∧ destination i = some GEN ∧ issueCheck i s = some .ro) ∨
    (destination i ≠ some GEN ∧ ParamViolation i s ∧ issueCheck i s = some .param) ∨
    (destination i ≠ some GEN ∧ ¬ParamViolation i s ∧ issueCheck i s = none) := by
  have hplain (hd : s.initDone = true) : checkPlain s = none := by simp [checkPlain, checkNotInit, hd]
  have hpoly (hd : s.initDone = true) (pd : PIdx) : (s.initDone = true ∧ some pd = some GEN ∧ checkPoly pd s = some .ro) ∨
      (some pd ≠ some GEN ∧ False ∧ checkPoly pd s = some .param) ∨
      (some pd ≠ some GEN ∧ ¬False ∧ checkPoly pd s = none) := by
    by_cases hpd : pd = GEN
    · exact .inl ⟨hd, congrArg some hpd, by simp [checkPoly, checkNotInit, hd, hpd, GEN]⟩
    · exact .inr (.inr ⟨by simpa using hpd, not_false, by
        rw [checkPoly, checkNotInit, if_pos hd, if_neg (show ¬pd = 8 from hpd)]; rfl⟩)
  have hparam (hd : s.initDone = true) {bad : State → Bool} {Bad : Prop} (hbad : bad s = true ↔ Bad) :
      (s.initDone = true ∧ none = some GEN ∧ checkParam bad s = some .ro) ∨
      (none ≠ some GEN ∧ Bad ∧ checkParam bad s = some .param) ∨
      (none ≠ some GEN ∧ ¬Bad ∧ checkParam bad s = none) := by
    cases hb : bad s with
    | true => exact .inr (.inl ⟨nofun, hbad.1 hb, by simp [checkParam, checkNotInit, hd, hb]⟩)
    | false => exact .inr (.inr ⟨nofun, fun h2 => by simp [hbad.2 h2] at hb, by simp [checkParam, checkNotInit, hd, hb]⟩)
  cases i with
  | init =>
    cases hb : paramInit s with
    | true => exact .inr (.inl ⟨nofun, (paramInit_iff s).1 hb, by simp [issueCheck, hb]⟩)
    | false =>
      have hgood : ¬ParamViolation .init s := fun h2 => by simp [(paramInit_iff s).2 h2] at hb
      exact .inr (.inr ⟨nofun, hgood, by simp [issueCheck, hb]⟩)
  | pzero pd => exact hpoly (h.resolve_left nofun) pd
  | pcopy pd pa => exact hpoly (h.resolve_left nofun) pd
  | padd pd pa pb => exact hpoly (h.resolve_left nofun) pd
  | pscale pd pa k => exact hpoly (h.resolve_left nofun) pd
  | pmul pd pa pb => exact hpoly (h.resolve_left nofun) pd
  | pshz pd pa => exact hpoly (h.resolve_left nofun) pd
  | encode => exact hparam (h.resolve_left nofun) (paramEncode_iff s)
  | gamma => exact hparam (h.resolve_left nofun) (paramErasures_iff s)
  | bmsolve => exact hparam (h.resolve_left nofun) (paramBmsolve_iff s)
  | correct => exact hparam (h.resolve_left nofun) (paramErasures_iff s)
  | _ => exact .inr (.inr ⟨nofun, not_false, hplain (h.resolve_left nofun)⟩)

/-- Everything the issue check of a command can answer (R202, R209): the first of NOTINIT, RO and PARAM to fail. -/
theorem issueCheck_cases (i : Instr) (s : State) :
    (i ≠ .init ∧ s.initDone = false ∧ issueCheck i s = some .notInit) ∨
    (s.initDone = true ∧ destination i = some GEN ∧ issueCheck i s = some .ro) ∨
    ((i = .init ∨ s.initDone = true) ∧ destination i ≠ some GEN ∧ ParamViolation i s ∧ issueCheck i s = some .param) ∨
    (Passes i s ∧ issueCheck i s = none) := by
  by_cases h : i = .init ∨ s.initDone = true
  · rcases issueCheck_ready h with hro | ⟨hdest, hbad, hcheck⟩ | ⟨hdest, hgood, hcheck⟩
    · exact .inr (.inl hro)
    · exact .inr (.inr (.inl ⟨h, hdest, hbad, hcheck⟩))
    · exact .inr (.inr (.inr ⟨⟨h, hdest, hgood⟩, hcheck⟩))
  · obtain ⟨hi, hd⟩ := not_or.1 h
    have hd : s.initDone = false := by simpa using hd
    exact .inl ⟨hi, hd, issueCheck_of_not_initDone hd hi⟩

/-- A command is accepted exactly when it passes every check (R202). -/
theorem issueCheck_eq_none {i : Instr} {s : State} : issueCheck i s = none ↔ Passes i s := by
  constructor
  · intro h
    rcases issueCheck_cases i s with ⟨-, -, h2⟩ | ⟨-, -, h2⟩ | ⟨-, -, -, h2⟩ | ⟨h2, -⟩
    · exact nomatch h.symm.trans h2
    · exact nomatch h.symm.trans h2
    · exact nomatch h.symm.trans h2
    · exact h2
  · rintro ⟨hinit, hdest, hgood⟩
    rcases issueCheck_ready hinit with ⟨-, h, -⟩ | ⟨-, h, -⟩ | ⟨-, -, h⟩
    · exact absurd h hdest
    · exact absurd h hgood
    · exact h

/-! ### The step that issues a command -/

/-- The step of a Host write of a legal word to CMD, with BUSY = 0 and outside reset (R202). -/
theorem step_write_legal {s : State} {addr : Addr} {v : Word} {i : Instr} {rest : List Input}
    (h : OutsideActs s (.write addr v) rest) (hr : s.resetAsserted = false) (hb : s.busy = false)
    (hw : addr.toNat / 4 = 3) (hd : decode v = .legal i) : step s = exec i (s.turn rest) := by
  rw [step_write_command h hr hb hw, issueWord, hd]

/-- The step that rejects a legal word (R203). -/
theorem step_write_rejected {s : State} {addr : Addr} {v : Word} {i : Instr} {c : EventCode} {rest : List Input}
    (h : OutsideActs s (.write addr v) rest) (hr : s.resetAsserted = false) (hb : s.busy = false)
    (hw : addr.toNat / 4 = 3) (hd : decode v = .legal i) (hc : issueCheck i (s.turn rest) = some c) :
    step s = .next ((s.turn rest).reject c v) := by
  rw [step_write_legal h hr hb hw hd, exec_eq_command, command_rejects (s := s.turn rest) hb hc, encode_of_legal hd]

/-- The step that accepts a legal word (R202). -/
theorem step_write_accepted {s : State} {addr : Addr} {v : Word} {i : Instr} {rest : List Input}
    (h : OutsideActs s (.write addr v) rest) (hr : s.resetAsserted = false) (hb : s.busy = false)
    (hw : addr.toNat / 4 = 3) (hd : decode v = .legal i) (hc : issueCheck i (s.turn rest) = none) :
    step s = .next ((s.turn rest).accept v) := by
  rw [step_write_legal h hr hb hw hd, exec_eq_command, command_accepts (s := s.turn rest) hb hc, encode_of_legal hd]

/-- Settles O8: BUSY and ILLEGAL come before a command is known; the others are the cases of its issue check. -/
theorem issueFollowsTheCheckOrder : Obligations.IssueFollowsTheCheckOrder := by
  unfold Obligations.IssueFollowsTheCheckOrder
  intro s addr v rest h hw hr
  refine ⟨?busy, ?illegal, fun hb i hd => ⟨?notInit, ?ro, ?param, ?accepted⟩⟩
  case busy =>
    intro hb
    exact step_write_dropped h hr hb (by omega)
  case illegal =>
    intro hb why hd
    rw [step_write_command h hr hb hw, issueWord, hd]
  case notInit =>
    intro hi hinit
    exact step_write_rejected h hr hb hw hd (issueCheck_of_not_initDone hinit hi)
  case ro =>
    intro hinit hdest
    refine step_write_rejected h hr hb hw hd ?_
    rcases issueCheck_ready (i := i) (s := s.turn rest) (.inr hinit) with ⟨-, -, hc⟩ | ⟨hne, -⟩ | ⟨hne, -⟩
    · exact hc
    · exact absurd hdest hne
    · exact absurd hdest hne
  case param =>
    intro hinit hdest hbad
    refine step_write_rejected h hr hb hw hd ?_
    have hbad : ParamViolation i (s.turn rest) := (ParamViolation.congr (turn_sameOperands s rest) i).2 hbad
    rcases issueCheck_ready (i := i) (s := s.turn rest) hinit with ⟨-, hgen, -⟩ | ⟨-, -, hc⟩ | ⟨-, hgood, -⟩
    · exact absurd hgen hdest
    · exact hc
    · exact absurd hbad hgood
  case accepted =>
    intro hp
    exact step_write_accepted h hr hb hw hd
      (issueCheck_eq_none.2 ((Passes.congr (turn_sameOperands s rest) rfl i).2 hp))

/-- Settles O5: the write of CMD is where a command is fetched. -/
theorem stepIssuesTheCommandWritten : Obligations.StepIssuesTheCommandWritten :=
  fun _ _ _ _ _ h hw hr hp hd => step_write_legal h hr (by rw [State.busy, hp]; rfl) hw hd

/-- Settles O6: the Engine's turn is when its wait is over or the outside world has nothing to do. -/
theorem stepCompletesThePendingCommand : Obligations.StepCompletesThePendingCommand :=
  fun _ _ _ hp hturn hd => step_engine (State.engineTurn_eq_some.2 ⟨hp, hturn⟩) hd

/-- Settles O7: whatever `command` does, it answers a next state. -/
theorem everyCommandAnswersANextState : Obligations.EveryCommandAnswersANextState := by
  unfold Obligations.EveryCommandAnswersANextState
  intro i s
  rw [exec_eq_command]
  rcases command_cases i (issueCheck i) (effectOf i) s with ⟨-, h⟩ | ⟨-, _, -, h⟩ | ⟨-, -, h⟩ <;> exact ⟨_, h⟩

end Sys2Proof.Machine

/-!
PROOFS. Everything one act of the outside world can do, as one relation with a named case for each outcome
(20_memory.md rules R61 to R70, 60_exceptions.md rule R202, 70_reset_and_hazards.md rule R230).
-/

namespace Sys2Proof.Machine

/-- The outcomes of one act of the outside world on s: the act, and the state it leaves. -/
inductive OutsideEffect (s : State) : Input → State → Prop where
  | reset : OutsideEffect s .assertReset (assertReset s)
  | release : OutsideEffect s .releaseReset { s with resetAsserted := false }
  | read (addr : Addr) : OutsideEffect s (.read addr) (hostRead addr s)
  | poll (acts : List Input) : OutsideEffect s .poll { hostRead statusAddr s with inputs := acts }
  | ignored {addr : Addr} {v : Word} (inReset : s.resetAsserted = true) : OutsideEffect s (.write addr v) s
  | acknowledged {addr : Addr} {v : Word} (outOfReset : s.resetAsserted = false) (status : addr.toNat / 4 = 4) :
      OutsideEffect s (.write addr v) (s.acknowledge v)
  | dropped {addr : Addr} {v : Word} (outOfReset : s.resetAsserted = false) (notStatus : addr.toNat / 4 ≠ 4)
      (busy : s.busy = true) : OutsideEffect s (.write addr v) s.dropWrite
  | illegal {addr : Addr} {v : Word} {why : IllegalReason} (outOfReset : s.resetAsserted = false)
      (idle : s.busy = false) (cmd : addr.toNat / 4 = 3) (decoded : decode v = .illegal why) :
      OutsideEffect s (.write addr v) (s.reject .illegal v)
  | rejected {addr : Addr} {v : Word} {i : Instr} {c : EventCode} (outOfReset : s.resetAsserted = false)
      (idle : s.busy = false) (cmd : addr.toNat / 4 = 3) (decoded : decode v = .legal i)
      (check : issueCheck i s = some c) : OutsideEffect s (.write addr v) (s.reject c v)
  | accepted {addr : Addr} {v : Word} {i : Instr} (outOfReset : s.resetAsserted = false) (idle : s.busy = false)
      (cmd : addr.toNat / 4 = 3) (decoded : decode v = .legal i) (passes : Passes i s) :
      OutsideEffect s (.write addr v) (s.accept v)
  | stored {addr : Addr} {v : Word} (outOfReset : s.resetAsserted = false) (idle : s.busy = false)
      (notCmd : addr.toNat / 4 ≠ 3) (notStatus : addr.toNat / 4 ≠ 4) :
      OutsideEffect s (.write addr v) (s.store (locate s.config addr) v)

/-- A Host write has one of these outcomes (R61, R202). -/
theorem outsideEffect_of_hostWrite {addr : Addr} {v : Word} {s t : State} (h : hostWrite exec addr v s = .next t) :
    OutsideEffect s (.write addr v) t := by
  rcases hostWrite_cases addr v s with
    ⟨hr, h1⟩ | ⟨hr, hl, h1⟩ | ⟨hr, hl, hb, h1⟩ | ⟨hr, hb, hl, h1⟩ | ⟨hr, hb, hcmd, hstatus, h1⟩
  · cases h1.symm.trans h
    exact .ignored hr
  · cases h1.symm.trans h
    exact .acknowledged hr (locate_eq_status.1 hl)
  · cases h1.symm.trans h
    exact .dropped hr (mt locate_eq_status.2 hl) hb
  · have hw := locate_eq_cmd.1 hl
    rcases issueWord_cases hb v with ⟨why, hd, h2⟩ | ⟨i, c, hd, hc, h2⟩ | ⟨i, hd, hc, h2⟩
    · cases h2.symm.trans (h1.symm.trans h)
      exact .illegal hr hb hw hd
    · cases h2.symm.trans (h1.symm.trans h)
      rw [encode_of_legal hd]
      exact .rejected hr hb hw hd hc
    · cases h2.symm.trans (h1.symm.trans h)
      rw [encode_of_legal hd]
      exact .accepted hr hb hw hd (issueCheck_eq_none.1 hc)
  · cases h1.symm.trans h
    exact .stored hr hb (mt locate_eq_cmd.2 hcmd) (mt locate_eq_status.2 hstatus)

/-- Every act of the outside world has one of these outcomes. -/
theorem outsideEffect_of_next {a : Input} {s t : State} (h : outsideAct exec a s = .next t) : OutsideEffect s a t := by
  cases a with
  | write addr v => exact outsideEffect_of_hostWrite h
  | assertReset => cases h; exact .reset
  | releaseReset => cases h; exact .release
  | read addr => cases h; exact .read addr
  | poll =>
    cases h
    split
    · exact .poll _
    · exact .poll (hostRead statusAddr s).inputs

/-- Everything a step that answers a next state can do: a completion, nothing, or one outcome of the next act. -/
theorem step_next_cases {s t : State} (h : step s = .next t) :
    (∃ v i, s.engineTurn = some v ∧ s.pending = some v ∧ decode v = .legal i ∧ t = (effectOf i s).complete) ∨
    (s.engineTurn = none ∧ s.inputs = [] ∧ t = s.turn []) ∨
    (∃ a rest, OutsideActs s a rest ∧ OutsideEffect (s.turn rest) a t) := by
  rcases step_cases s with ⟨v, i, he, hp, hd, h1⟩ | ⟨_, _, -, -, -, h1⟩ | ⟨he, hi, h1⟩ | ⟨a, rest, he, hi, h1⟩
  · exact .inl ⟨v, i, he, hp, hd, (Host.Outcome.next.inj (h1.symm.trans h)).symm⟩
  · exact nomatch h1.symm.trans h
  · exact .inr (.inl ⟨he, hi, (Host.Outcome.next.inj (h1.symm.trans h)).symm⟩)
  · exact .inr (.inr ⟨a, rest, ⟨he, hi⟩, outsideEffect_of_next (h1.symm.trans h)⟩)

end Sys2Proof.Machine

/-!
PROOFS. The frame of every command (10_state.md rule R38): what its completion and its issue may write, and that EXP, LOG,
GEN and NPAR_ACT are INIT's alone.
-/

namespace Sys2Proof.Machine

/-! ### Registers written -/

/-- Writing one whole register leaves every other element of the register file (R120). -/
theorem onlyRegisters_setPoly {s : State} (hwf : s.polys.wf) (p : PIdx) {v : Poly} (hv : v.length = s.maxdeg) :
    OnlyRegisters s (s.setPoly p v) [p] := by
  intro k hk
  have hk := hk p (List.mem_singleton_self p)
  rw [State.read_setPoly hwf, hv, if_neg (by simpa [polySlot] using hk)]

theorem OnlyRegisters.trans {s t u : State} {ps qs : List PIdx} (h : OnlyRegisters s t ps) (h2 : OnlyRegisters t u qs)
    (hdeg : t.maxdeg = s.maxdeg) : OnlyRegisters s u (ps ++ qs) := by
  intro k hk
  rw [h2 k fun p hp => by rw [hdeg]; exact hk p (List.mem_append_right _ hp)]
  exact h k fun p hp => hk p (List.mem_append_left _ hp)

/-- A register that is not written keeps its value: registers do not overlap (R65). -/
theorem OnlyRegisters.poly_eq {s t : State} {ps : List PIdx} (h : OnlyRegisters s t ps) (hdeg : t.maxdeg = s.maxdeg)
    {q : PIdx} (hq : q ∉ ps) : t.poly q = s.poly q := by
  refine poly_ext (by simp [hdeg]) fun i hi => ?_
  have hi : i < s.maxdeg := by rwa [State.length_poly, hdeg] at hi
  have hle := s.maxdeg_le
  rw [State.coef_poly, State.coef_poly, hdeg, if_pos hi, if_pos hi, h _ fun p hp => ?_]
  have hne : p.toNat ≠ q.toNat := fun e => hq (BitVec.eq_of_toNat_eq e ▸ hp)
  rw [polySlot]
  omega

/-- The completion step of a command that writes one register and nothing else (R120). -/
theorem writesRegister_setPoly {s : State} (hwf : s.polys.wf) (p : PIdx) {v : Poly} (hv : v.length = s.maxdeg)
    {f : Nat → Byte} (hf : ∀ i < s.maxdeg, coef v i = f i) : WritesRegister s (s.setPoly p v).complete p f := by
  refine ⟨rfl, fun i hi => ?_, fun k hk => onlyRegisters_setPoly hwf p hv k (by simpa using hk)⟩
  have hcoef := State.coef_setPoly hwf p p hv i
  rw [State.coef_poly, if_pos (show i < (s.setPoly p v).maxdeg from hi), if_pos rfl, hf i hi] at hcoef
  exact hcoef

theorem length_syndromes (s : State) :
    ((List.range s.maxdeg).map fun j => if j < s.npar then syndrome s j else 0).length = s.maxdeg := by simp

theorem length_evaluator (t : Tables) (n npar : Nat) (lambda syn : Poly) : (evaluator t n npar lambda syn).length = n := by
  simp [evaluator]

theorem onlyRegisters_effectSynd {s : State} (hwf : s.polys.wf) : OnlyRegisters s (effectSynd s) [SYN] :=
  onlyRegisters_setPoly hwf SYN (length_syndromes s)

theorem onlyRegisters_effectGamma {s : State} (hwf : s.polys.wf) : OnlyRegisters s (effectGamma s) [GAMMA] :=
  onlyRegisters_setPoly hwf GAMMA (length_erasureLocator ..)

theorem onlyRegisters_effectBmsolve {s : State} (hwf : s.polys.wf) :
    OnlyRegisters s (effectBmsolve s) [LAMBDA, OMEGA] := by
  have hlambda := onlyRegisters_setPoly hwf LAMBDA
    (length_bmRun_psi s.tables s.maxdeg (s.poly SYN) (s.poly GAMMA) s.ecnt.toNat s.npar (State.length_poly ..))
  exact hlambda.trans (onlyRegisters_setPoly (Memory.writeAll_wf hwf _ _) OMEGA (length_evaluator ..)) rfl

theorem polys_forneyBody (v : Word) (s : State) : (forneyBody v s).polys = s.polys := by
  rcases forneyBody_cases v s with ⟨-, h⟩ | ⟨-, -, h⟩ | ⟨-, -, -, h⟩
  · rw [h]
  · rw [h]
  · obtain ⟨_, _, _, _, _, hfold, -⟩ := forneyFold_frame v s.locations s
    rw [h, hfold]

@[simp] theorem effectChien_polys (s : State) : (effectChien s).polys = s.polys := rfl

theorem SameOutside.maxdeg_eq {s t : State} (h : SameOutside s t) : t.maxdeg = s.maxdeg := congrArg Config.maxdeg h.config

/-- CORRECT's phases before FORNEY write four registers (R190). -/
theorem onlyRegisters_correctStages {s : State} (hwf : s.polys.wf) :
    OnlyRegisters s (correctStages s) [SYN, GAMMA, LAMBDA, OMEGA] := by
  have hsynd : (effectSynd s).polys.wf := Memory.writeAll_wf hwf _ _
  have hgamma : (effectGamma (effectSynd s)).polys.wf := Memory.writeAll_wf hsynd _ _
  have hsame := effectSynd_same s
  have htwo := (onlyRegisters_effectSynd hwf).trans (onlyRegisters_effectGamma hsynd) hsame.maxdeg_eq
  have hthree := htwo.trans (onlyRegisters_effectBmsolve hgamma) (hsame.trans (effectGamma_same _)).maxdeg_eq
  intro k hk
  rw [correctStages, effectChien_polys]
  exact hthree k hk

/-! ### FORNEY and CORRECT -/

theorem forneyBody_eq (v : Word) (s : State) : forneyBody v s =
    { s with cw := (forneyBody v s).cw, outcome := (forneyBody v s).outcome, failCause := (forneyBody v s).failCause,
             errors := (forneyBody v s).errors, errInfo := (forneyBody v s).errInfo,
             errCmd := (forneyBody v s).errCmd, scratch := (forneyBody v s).scratch } := by
  rcases forneyBody_cases v s with ⟨-, h⟩ | ⟨-, -, h⟩ | ⟨-, -, -, h⟩
  · rw [h]
  · rw [h]
  · obtain ⟨_, _, _, _, _, hfold, -⟩ := forneyFold_frame v s.locations s
    rw [h, hfold]

theorem forneyBody_locations (v : Word) (s : State) : (forneyBody v s).locations = s.locations := by
  rw [forneyBody_eq]; rfl

/-- FORNEY's body warns with its own word or not at all (R185, R207). -/
theorem forneyBody_mayWarn (v : Word) (s : State) : MayWarn s (forneyBody v s) v := by
  rcases forneyBody_cases v s with ⟨-, h⟩ | ⟨-, -, h⟩ | ⟨-, -, -, h⟩
  · rw [h]; exact .inl ⟨rfl, rfl, rfl⟩
  · rw [h]; exact .inl ⟨rfl, rfl, rfl⟩
  · obtain ⟨_, _, _, _, _, hfold, hwarn, -⟩ := forneyFold_frame v s.locations s
    rw [h, hfold]
    exact hwarn

/-- A failing FORNEY leaves CW alone (R186). -/
theorem forneyBody_cw_of_ne_corrected {v : Word} {s : State} (h : (forneyBody v s).outcome ≠ .corrected) :
    (forneyBody v s).cw = s.cw := by
  rcases forneyBody_cases v s with ⟨-, h1⟩ | ⟨-, -, h1⟩ | ⟨-, -, -, h1⟩
  · rw [h1]
  · rw [h1]
  · rw [h1] at h
    exact absurd rfl h

/-- FORNEY writes the bytes of the locations only (R185). -/
theorem forneyBody_cw_read {v : Word} {s : State} (hwf : s.cw.wf) {k : Nat}
    (hk : ∀ e ∈ s.locations, k ≠ s.len.toNat - 1 - e.toNat) : (forneyBody v s).cw.read k = s.cw.read k := by
  rcases forneyBody_cases v s with ⟨-, h⟩ | ⟨-, -, h⟩ | ⟨-, -, -, h⟩
  · rw [h]
  · rw [h]
  · obtain ⟨_, _, _, _, _, hfold, -, hcw, -⟩ := forneyFold_frame v s.locations s
    rw [h, hfold]
    exact (hcw hwf).2 k hk

/-- The two ways CORRECT can end, up to its scratch (R190). -/
theorem effectCorrect_cases (s : State) :
    ((effectSynd s).clean = true ∧ ∃ sc, effectCorrect s =
      { effectSynd s with outcome := .doneClean, failCause := .none }.withScratch sc) ∨
    ((effectSynd s).clean = false ∧ ∃ sc, effectCorrect s =
      (forneyBody (encode .correct) (correctStages s)).withScratch sc) := by
  cases h : (effectSynd s).clean with
  | true => exact .inl ⟨rfl, effectCorrect_clean h⟩
  | false => exact .inr ⟨rfl, effectCorrect_dirty h⟩

theorem correctStages_eq (s : State) : correctStages s =
    { s with polys := (correctStages s).polys, clean := (correctStages s).clean, bmL := (correctStages s).bmL,
             errloc := (correctStages s).errloc, nerr := (correctStages s).nerr,
             scratch := (correctStages s).scratch } := by
  simp only [correctStages, effectChien, effectBmsolve, effectGamma, effectSynd, State.setErrloc, State.setPoly]

/-- The stages before FORNEY leave the event record alone. -/
theorem correctStages_record (s : State) : (correctStages s).errors = s.errors ∧ (correctStages s).errInfo = s.errInfo ∧
    (correctStages s).errCmd = s.errCmd := by
  rw [correctStages_eq]
  exact ⟨rfl, rfl, rfl⟩

/-- The frame of CORRECT's phases after one another: what the stages and FORNEY's body leave, less the scratch. -/
theorem forneyBody_correctStages_eq (v : Word) (s : State) : forneyBody v (correctStages s) =
    { s with polys := (forneyBody v (correctStages s)).polys, clean := (forneyBody v (correctStages s)).clean,
             bmL := (forneyBody v (correctStages s)).bmL, errloc := (forneyBody v (correctStages s)).errloc,
             nerr := (forneyBody v (correctStages s)).nerr, cw := (forneyBody v (correctStages s)).cw,
             outcome := (forneyBody v (correctStages s)).outcome,
             failCause := (forneyBody v (correctStages s)).failCause,
             errors := (forneyBody v (correctStages s)).errors, errInfo := (forneyBody v (correctStages s)).errInfo,
             errCmd := (forneyBody v (correctStages s)).errCmd,
             scratch := (forneyBody v (correctStages s)).scratch } := by
  have hstages := correctStages_eq s
  have hbody := forneyBody_eq v (correctStages s)
  generalize forneyBody v (correctStages s) = w at hbody ⊢
  generalize correctStages s = u at hstages hbody
  rw [hstages] at hbody
  rw [hbody]

/-- The frame of CORRECT from that of the state w it ends in, less the scratch (R38). -/
theorem writesOnly_correct_of {s w : State} (sc : Scratch)
    (hframe : w = { s with polys := w.polys, clean := w.clean, bmL := w.bmL, errloc := w.errloc, nerr := w.nerr,
                           cw := w.cw, outcome := w.outcome, failCause := w.failCause, errors := w.errors,
                           errInfo := w.errInfo, errCmd := w.errCmd, scratch := w.scratch })
    (hregs : OnlyRegisters s w [SYN, GAMMA, LAMBDA, OMEGA]) (hwarn : MayWarn s w (encode .correct))
    (hkept : w.outcome ≠ .corrected → w.cw = s.cw)
    (hread : ∀ k, (∀ e ∈ w.locations, k ≠ s.len.toNat - 1 - e.toNat) → w.cw.read k = s.cw.read k) :
    WritesOnly .correct s (w.withScratch sc).complete := by
  refine ⟨?_, hregs, hwarn, hkept, hread⟩
  rw [hframe]
  rfl

/-- The bytes CORRECT writes are those of the locations it leaves in ERRLOC (R185). -/
theorem forneyBody_correctStages_cw_read {v : Word} {s : State} (hwf : s.cw.wf) {k : Nat}
    (hk : ∀ e ∈ (forneyBody v (correctStages s)).locations, k ≠ s.len.toNat - 1 - e.toNat) :
    (forneyBody v (correctStages s)).cw.read k = s.cw.read k := by
  obtain ⟨-, hcw, -⟩ := correctStages_frame s
  have hlen : (correctStages s).len = s.len := by rw [correctStages_eq]
  have hwf : (correctStages s).cw.wf := by rw [hcw]; exact hwf
  rw [forneyBody_locations, ← hlen] at hk
  rw [forneyBody_cw_read hwf hk, hcw]

/-- The frame of CORRECT (R38). -/
theorem writesOnly_correct {s : State} (h : Canonical s) : WritesOnly .correct s (effectCorrect s).complete := by
  rcases effectCorrect_cases s with ⟨-, sc, he⟩ | ⟨-, sc, he⟩
  · rw [he]
    refine writesOnly_correct_of sc ?_ ?_ (.inl ⟨rfl, rfl, rfl⟩) (fun _ => rfl) (fun _ _ => rfl)
    · rw [effectSynd_eq]
    · intro k hk
      exact onlyRegisters_effectSynd h.polys k fun p hp => hk p (List.mem_append_left [GAMMA, LAMBDA, OMEGA] hp)
  · rw [he]
    refine writesOnly_correct_of sc (forneyBody_correctStages_eq ..) ?_ ?_ ?_
      (fun k => forneyBody_correctStages_cw_read h.cw)
    · intro k hk
      rw [polys_forneyBody]
      exact onlyRegisters_correctStages h.polys k hk
    · have hwarn := forneyBody_mayWarn (encode .correct) (correctStages s)
      obtain ⟨herrors, hinfo, hcmd⟩ := correctStages_record s
      rw [MayWarn, herrors, hinfo, hcmd] at hwarn
      exact hwarn
    · intro hne
      rw [forneyBody_cw_of_ne_corrected hne]
      exact (correctStages_frame s).2.1

/-! ### The frame of every command -/

theorem effectGinv_cases (a : Byte) (s : State) :
    (a = 0 ∧ effectGinv a s = { s with result := gfInv s.tables a }.warnZdiv (encode (.ginv a))) ∨
    (a ≠ 0 ∧ effectGinv a s = { s with result := gfInv s.tables a }) := by
  by_cases ha : a = 0
  · exact .inl ⟨ha, by rw [effectGinv, if_pos ha]⟩
  · exact .inr ⟨ha, by rw [effectGinv, if_neg ha]⟩

theorem writesOnly_ginv (a : Byte) (s : State) : WritesOnly (.ginv a) s (effectGinv a s).complete := by
  rcases effectGinv_cases a s with ⟨ha, h⟩ | ⟨ha, h⟩
  · rw [h]
    exact ⟨rfl, .inr ⟨rfl, rfl, rfl⟩, fun hne => absurd ha hne⟩
  · rw [h]
    exact ⟨rfl, .inl ⟨rfl, rfl, rfl⟩, fun _ => rfl⟩

theorem writesOnly_encode {s : State} (hwf : s.cw.wf) : WritesOnly .encode s (effectEncode s).complete := by
  refine ⟨rfl, fun k hk => ?_⟩
  have hcw : (effectEncode s).cw = s.cw.writeAll s.len.toNat _ := rfl
  rw [State.complete_cw, hcw, Memory.read_writeAll hwf, List.length_map, List.length_range, if_neg hk]

theorem writesOnly_forney {s : State} (hwf : s.cw.wf) :
    WritesOnly .forney s (forneyBody (encode .forney) s).complete := by
  have hframe := forneyBody_eq (encode .forney) s
  have hwarn := forneyBody_mayWarn (encode .forney) s
  have hkept := forneyBody_cw_of_ne_corrected (v := encode .forney) (s := s)
  have hread := fun k => forneyBody_cw_read (v := encode .forney) hwf (k := k)
  generalize forneyBody (encode .forney) s = w at hframe hwarn hkept hread ⊢
  refine ⟨?_, hwarn, hkept, hread⟩
  rw [hframe]
  rfl

theorem writesOnly_bmsolve {s : State} (hwf : s.polys.wf) : WritesOnly .bmsolve s (effectBmsolve s).complete := by
  have hframe := effectBmsolve_eq s
  have hregs := onlyRegisters_effectBmsolve hwf
  generalize effectBmsolve s = w at hframe hregs ⊢
  refine ⟨?_, hregs⟩
  rw [hframe]
  rfl

theorem writesOnly_chien (s : State) : WritesOnly .chien s (effectChien s).complete := by
  have hframe := effectChien_eq s
  generalize effectChien s = w at hframe ⊢
  rw [hframe]
  rfl

/-- The frame of a command that writes one register (R38, R120). -/
theorem writesRegister_frame {s : State} (hwf : s.polys.wf) (p : PIdx) {v : Poly} (hv : v.length = s.maxdeg) :
    WritesRegister s (s.setPoly p v).complete p ((s.setPoly p v).complete.coefAt p) :=
  ⟨rfl, fun _ _ => rfl, (writesRegister_setPoly hwf p hv fun _ _ => rfl).2.2⟩

/-- The completion of every command keeps to its row of the table of R38. -/
theorem writesOnly_effectOf {s : State} (h : Canonical s) (i : Instr) : WritesOnly i s (effectOf i s).complete := by
  cases i with
  | init => exact rfl
  | gmul a b => exact rfl
  | ginv a => exact writesOnly_ginv a s
  | pzero pd => exact writesRegister_frame h.polys pd (length_polyZero _)
  | pcopy pd pa => exact writesRegister_frame h.polys pd (State.length_poly s pa)
  | padd pd pa pb => exact writesRegister_frame h.polys pd (length_polyAdd ..)
  | pscale pd pa k => exact writesRegister_frame h.polys pd (length_polyScale ..)
  | pmul pd pa pb => exact writesRegister_frame h.polys pd (length_polyMul ..)
  | pshz pd pa => exact writesRegister_frame h.polys pd (length_polyShift ..)
  | encode => exact writesOnly_encode h.cw
  | synd => exact ⟨rfl, onlyRegisters_effectSynd h.polys⟩
  | gamma => exact writesRegister_frame h.polys GAMMA (length_erasureLocator ..)
  | bmsolve => exact writesOnly_bmsolve h.polys
  | chien => exact writesOnly_chien s
  | forney => exact writesOnly_forney h.cw
  | correct => exact writesOnly_correct h

/-- Settles O23: the completion by the table of R38, the issue by what `command` does before it completes. -/
theorem commandsWriteOnlyTheListedState : Obligations.CommandsWriteOnlyTheListedState := by
  unfold Obligations.CommandsWriteOnlyTheListedState
  refine ⟨fun i s t hc hb h => ?_, fun i s t hb h => ?_⟩
  · cases (exec_busy hb).symm.trans h
    exact writesOnly_effectOf hc i
  · rw [exec_eq_command] at h
    rcases command_cases i (issueCheck i) (effectOf i) s with ⟨hbusy, -⟩ | ⟨-, c, -, h1⟩ | ⟨-, -, h1⟩
    · exact absurd (hb.symm.trans hbusy) (by decide)
    · cases h1.symm.trans h
      exact .inl rfl
    · cases h1.symm.trans h
      exact .inr rfl

/-! ### EXP, LOG, NPAR_ACT and GEN -/

/-- The registers a command other than INIT writes (R38). -/
def registersWritten : Instr → List PIdx
  | .pzero pd => [pd]
  | .pcopy pd _ => [pd]
  | .padd pd _ _ => [pd]
  | .pscale pd _ _ => [pd]
  | .pmul pd _ _ => [pd]
  | .pshz pd _ => [pd]
  | .synd => [SYN]
  | .gamma => [GAMMA]
  | .bmsolve => [LAMBDA, OMEGA]
  | .correct => [SYN, GAMMA, LAMBDA, OMEGA]
  | _ => []

/-- GEN is written by no command but INIT and one that names it as its destination (R206). -/
theorem gen_not_mem_registersWritten {i : Instr} (h : destination i ≠ some GEN) : GEN ∉ registersWritten i := by
  have hone (pd : PIdx) (hpd : some pd ≠ some GEN) : GEN ∉ [pd] := fun hm =>
    hpd (congrArg some (List.mem_singleton.1 hm).symm)
  cases i with
  | pzero pd => exact hone pd h
  | pcopy pd pa => exact hone pd h
  | padd pd pa pb => exact hone pd h
  | pscale pd pa k => exact hone pd h
  | pmul pd pa pb => exact hone pd h
  | pshz pd pa => exact hone pd h
  | synd => exact hone SYN (by decide)
  | gamma => exact hone GAMMA (by decide)
  | bmsolve => show GEN ∉ [LAMBDA, OMEGA]; decide
  | correct => show GEN ∉ [SYN, GAMMA, LAMBDA, OMEGA]; decide
  | _ => exact List.not_mem_nil

@[simp] theorem State.withScratch_polys (s : State) (sc : Scratch) : (s.withScratch sc).polys = s.polys := rfl

theorem polys_effectCorrect (s : State) :
    (effectCorrect s).polys = (effectSynd s).polys ∨ (effectCorrect s).polys = (correctStages s).polys := by
  rcases effectCorrect_cases s with ⟨-, sc, h⟩ | ⟨-, sc, h⟩
  · exact .inl (by rw [h]; rfl)
  · exact .inr (by rw [h, State.withScratch_polys, polys_forneyBody])

theorem onlyRegisters_effectOf {s : State} (hwf : s.polys.wf) {i : Instr} (hi : i ≠ .init) :
    OnlyRegisters s (effectOf i s) (registersWritten i) := by
  cases i with
  | init => exact absurd rfl hi
  | pzero pd => exact onlyRegisters_setPoly hwf pd (length_polyZero _)
  | pcopy pd pa => exact onlyRegisters_setPoly hwf pd (State.length_poly s pa)
  | padd pd pa pb => exact onlyRegisters_setPoly hwf pd (length_polyAdd ..)
  | pscale pd pa k => exact onlyRegisters_setPoly hwf pd (length_polyScale ..)
  | pmul pd pa pb => exact onlyRegisters_setPoly hwf pd (length_polyMul ..)
  | pshz pd pa => exact onlyRegisters_setPoly hwf pd (length_polyShift ..)
  | synd => exact onlyRegisters_effectSynd hwf
  | gamma => exact onlyRegisters_effectGamma hwf
  | bmsolve => exact onlyRegisters_effectBmsolve hwf
  | correct =>
    intro k hk
    show (effectCorrect s).polys.read k = _
    rcases polys_effectCorrect s with h | h
    · rw [h]
      exact onlyRegisters_effectSynd hwf k fun p hp => hk p (List.mem_append_left [GAMMA, LAMBDA, OMEGA] hp)
    · rw [h]
      exact onlyRegisters_correctStages hwf k hk
  | ginv a =>
    intro k _
    show (effectGinv a s).polys.read k = _
    rcases effectGinv_cases a s with ⟨-, h⟩ | ⟨-, h⟩
    · rw [h]; rfl
    · rw [h]
  | forney => exact fun k _ => by rw [effectOf, polys_forneyBody]
  | gmul a b => exact fun k _ => rfl
  | encode => exact fun k _ => rfl
  | chien => exact fun k _ => rfl

/-- What INIT alone writes (R38, R109): the build parameter aside, what the field and the code rest on. -/
structure SameBoot (s t : State) : Prop where
  config : t.config = s.config
  tables : t.tables = s.tables
  nparAct : t.nparAct = s.nparAct
  gen : t.poly GEN = s.poly GEN

theorem forneyBody_tables (v : Word) (s : State) :
    (forneyBody v s).tables = s.tables ∧ (forneyBody v s).nparAct = s.nparAct := by
  rw [forneyBody_eq]
  exact ⟨rfl, rfl⟩

theorem effectCorrect_tables (s : State) :
    (effectCorrect s).tables = s.tables ∧ (effectCorrect s).nparAct = s.nparAct := by
  rcases effectCorrect_cases s with ⟨-, sc, h⟩ | ⟨-, sc, h⟩
  · rw [h]
    exact ⟨rfl, rfl⟩
  · have hframe := forneyBody_correctStages_eq (encode .correct) s
    rw [h]
    generalize forneyBody (encode .correct) (correctStages s) = w at hframe ⊢
    rw [hframe]
    exact ⟨rfl, rfl⟩

theorem effectOf_tables_of_ne_init {i : Instr} (hi : i ≠ .init) (s : State) :
    (effectOf i s).tables = s.tables ∧ (effectOf i s).nparAct = s.nparAct := by
  cases i with
  | init => exact absurd rfl hi
  | ginv a =>
    show (effectGinv a s).tables = _ ∧ (effectGinv a s).nparAct = _
    rcases effectGinv_cases a s with ⟨-, h⟩ | ⟨-, h⟩
    · rw [h]; exact ⟨rfl, rfl⟩
    · rw [h]; exact ⟨rfl, rfl⟩
  | forney => rw [effectOf]; exact forneyBody_tables _ s
  | correct => rw [effectOf]; exact effectCorrect_tables s
  | _ => exact ⟨rfl, rfl⟩

/-- No completion but INIT's changes the tables, NPAR_ACT or GEN (R38). -/
theorem sameBoot_effectOf {s : State} (hwf : s.polys.wf) {i : Instr} (hi : i ≠ .init)
    (hdest : destination i ≠ some GEN) : SameBoot s (effectOf i s).complete := by
  obtain ⟨htables, hnpar⟩ := effectOf_tables_of_ne_init hi s
  have hconfig := (effectOf_same i s).config
  exact ⟨hconfig, htables, hnpar,
    (onlyRegisters_effectOf hwf hi).poly_eq (congrArg Config.maxdeg hconfig) (gen_not_mem_registersWritten hdest)⟩

/-- An element of the register file that the map names lies in a register that exists (R64, R65). -/
theorem locate_eq_poly {c : Config} {addr : Addr} {p i : Nat} (h : locate c addr = .poly p i) : p ≤ 12 ∧ i < c.maxdeg := by
  by_cases h12 : 12 ≤ addr.toNat / 4
  · rw [locate_of_ge h12, locateArray] at h
    split_ifs at h with _ _ _ _ hin
    cases h
    exact hin
  · have : addr.toNat / 4 < 12 := by omega
    unfold locate wordAddr at h
    interval_cases addr.toNat / 4 <;> exact nomatch h

/-- A write to a slot outside GEN leaves GEN. -/
theorem poly_gen_write {s : State} (hwf : s.polys.wf) {p i : Nat} (hp : p ≠ GEN.toNat) (hi : i < s.maxdeg) (b : Byte) :
    { s with polys := s.polys.write (polySlot p i) b }.poly GEN = s.poly GEN := by
  refine poly_ext (by rw [State.length_poly, State.length_poly]; rfl) fun j hj => ?_
  have hj : j < s.maxdeg := by rwa [State.length_poly] at hj
  have hle := s.maxdeg_le
  have hslot : polySlot GEN.toNat j ≠ polySlot p i := by
    rw [polySlot, polySlot]
    omega
  rw [State.coef_poly, State.coef_poly, if_pos hj]
  exact (if_pos hj).trans (Memory.read_write_other hwf hslot b)

/-- No store to a location of the map changes the tables, NPAR_ACT or GEN (R67). -/
theorem sameBoot_store {s : State} (hwf : s.polys.wf) (addr : Addr) (v : Word) :
    SameBoot s (s.store (locate s.config addr) v) := by
  cases hl : locate s.config addr with
  | poly p i =>
    by_cases hp : p = GEN.toNat
    · rw [State.store, if_pos hp]
      exact ⟨rfl, rfl, rfl, rfl⟩
    · rw [State.store, if_neg hp]
      exact ⟨rfl, rfl, rfl, poly_gen_write hwf hp (locate_eq_poly hl).2 _⟩
  | _ => exact ⟨rfl, rfl, rfl, rfl⟩

/-- No act of the outside world but a reset changes the tables, NPAR_ACT or GEN. -/
theorem OutsideEffect.sameBoot {s t : State} {a : Input} (h : OutsideEffect s a t) (hwf : s.polys.wf)
    (ha : a ≠ .assertReset) : SameBoot s t := by
  cases h with
  | reset => exact absurd rfl ha
  | stored => exact sameBoot_store hwf _ _
  | _ => exact ⟨rfl, rfl, rfl, rfl⟩

/-- Settles O24: a completion that is not INIT's, and an act that is no reset, leave what `SameBoot` lists. -/
theorem onlyInitChangesTablesAndGenerator : Obligations.OnlyInitChangesTablesAndGenerator := by
  unfold Obligations.OnlyInitChangesTablesAndGenerator
  intro s t hpending hwf h hinit hreset
  suffices hsame : SameBoot s t from ⟨hsame.tables, hsame.nparAct, hsame.gen⟩
  rcases step_next_cases h with ⟨v, i, he, hp, hd, rfl⟩ | ⟨-, -, rfl⟩ | ⟨a, rest, hact, heffect⟩
  · obtain ⟨j, hj, -, hdest, -⟩ := hpending v hp
    cases hd.symm.trans hj
    refine sameBoot_effectOf hwf ?_ hdest
    rintro rfl
    exact hinit (eq_one_of_decode_init hd ▸ he)
  · exact ⟨rfl, rfl, rfl, rfl⟩
  · have hne : a ≠ .assertReset := by
      rintro rfl
      exact hreset ⟨rest, hact⟩
    obtain ⟨hconfig, htables, hnpar, hgen⟩ := heffect.sameBoot hwf hne
    exact ⟨hconfig, htables, hnpar, hgen⟩

end Sys2Proof.Machine

/-!
PROOFS. The recurrence of BMSOLVE step by step (43_decoder.md rule R170): the bounds of its indices (rule R171) and its
constant term (rule R172).
-/

namespace Sys2Proof.Machine

/-! ### One step -/

/-- No step runs before the first (R170). -/
theorem bmRun_self (t : Tables) (n : Nat) (syn gamma : Poly) (ecnt : Nat) :
    bmRun t n syn gamma ecnt ecnt = bmStart n gamma ecnt := by
  simp [bmRun]

/-- The run up to m, and then step m (R170). -/
theorem bmRun_succ (t : Tables) (n : Nat) (syn gamma : Poly) {ecnt m : Nat} (h : ecnt ≤ m) :
    bmRun t n syn gamma ecnt (m + 1) = bmStep t n syn (bmRun t n syn gamma ecnt m) m := by
  rw [bmRun, bmRun, Nat.succ_sub h, List.range_succ, List.map_append, List.foldl_append]
  simp only [List.map_cons, List.map_nil, List.foldl_cons, List.foldl_nil, Nat.add_sub_cancel' h]

/-- The connection polynomial of a step whose discrepancy is not 0 (R170). -/
def bmPsi (t : Tables) (n : Nat) (syn : Poly) (b : BmScratch) (m : Nat) : Poly :=
  polyAdd n b.psi (polyScale t n (discrepancy t syn b.psi b.l m) b.d)

/-- Everything step m can do (R170): no discrepancy, a discrepancy with a change of length, one without. -/
theorem bmStep_cases (t : Tables) (n : Nat) (syn : Poly) (b : BmScratch) (m : Nat) :
    (discrepancy t syn b.psi b.l m = 0 ∧
      bmStep t n syn b m = { b with d := polyShift n b.d, n := m, disc := discrepancy t syn b.psi b.l m }) ∨
    (discrepancy t syn b.psi b.l m ≠ 0 ∧ (b.l : Int) < m - b.k ∧ bmStep t n syn b m =
      { psi := bmPsi t n syn b m, psi2 := bmPsi t n syn b m,
        d := polyShift n (polyScale t n (gfInv t (discrepancy t syn b.psi b.l m)) b.psi), n := m,
        k := m - b.l, l := ((m : Int) - b.k).toNat, disc := discrepancy t syn b.psi b.l m }) ∨
    (discrepancy t syn b.psi b.l m ≠ 0 ∧ ¬(b.l : Int) < m - b.k ∧ bmStep t n syn b m =
      { b with psi := bmPsi t n syn b m, psi2 := bmPsi t n syn b m, d := polyShift n b.d, n := m,
               disc := discrepancy t syn b.psi b.l m }) := by
  by_cases hdisc : discrepancy t syn b.psi b.l m = 0
  · exact .inl ⟨hdisc, by rw [bmStep, if_pos hdisc]⟩
  · by_cases hlen : (b.l : Int) < m - b.k
    · exact .inr (.inl ⟨hdisc, hlen, by rw [bmStep, if_neg hdisc, if_pos hlen]; rfl⟩)
    · exact .inr (.inr ⟨hdisc, hlen, by rw [bmStep, if_neg hdisc, if_neg hlen]; rfl⟩)

/-! ### The indices -/

/-- R171: the bounds of L and k before step m. -/
structure BmInRange (ecnt m : Nat) (b : BmScratch) : Prop where
  ecntLe : ecnt ≤ b.l
  lLe : b.l ≤ m
  kGe : -1 ≤ b.k
  kLt : b.k ≤ (m : Int) - 1

/-- Step m keeps the bounds: a new L is m - k, above the old one, and a new k is m - L (R171). -/
theorem BmInRange.bmStep {ecnt m : Nat} {b : BmScratch} (h : BmInRange ecnt m b) (t : Tables) (n : Nat) (syn : Poly) :
    BmInRange ecnt (m + 1) (bmStep t n syn b m) := by
  obtain ⟨hecnt, hl, hk, hkm⟩ := h
  rcases bmStep_cases t n syn b m with ⟨-, h⟩ | ⟨-, hlen, h⟩ | ⟨-, -, h⟩
  · rw [h]
    exact ⟨hecnt, by simp only; omega, hk, by simp only; omega⟩
  · rw [h]
    constructor <;> simp only <;> omega
  · rw [h]
    exact ⟨hecnt, by simp only; omega, hk, by simp only; omega⟩

/-- The bounds hold before every step (R171). -/
theorem bmRun_inRange (t : Tables) (n : Nat) (syn gamma : Poly) {ecnt m : Nat} (h : ecnt ≤ m) :
    BmInRange ecnt m (bmRun t n syn gamma ecnt m) := by
  induction m, h using Nat.le_induction with
  | base =>
    rw [bmRun_self]
    constructor <;> simp only [bmStart] <;> omega
  | succ m h ih =>
    rw [bmRun_succ _ _ _ _ h]
    exact ih.bmStep t n syn

/-- BMSOLVE's run, on the registers of s (R170). -/
def State.bmRun (s : State) : BmScratch := Machine.bmRun s.tables s.maxdeg (s.poly SYN) (s.poly GAMMA) s.ecnt.toNat s.npar

theorem State.npar_lt (s : State) : s.npar < 256 := s.nparAct.isLt

/-- BM_L holds the final L whole (R170, R171). -/
theorem effectBmsolve_bmL {s : State} (h : s.ecnt.toNat ≤ s.npar) : (effectBmsolve s).bmL.toNat = s.bmRun.l := by
  have hl : s.bmRun.l ≤ s.npar := (bmRun_inRange _ _ _ _ h).lLe
  have hbmL : (effectBmsolve s).bmL = BitVec.ofNat 8 s.bmRun.l := rfl
  rw [hbmL, BitVec.toNat_ofNat, Nat.mod_eq_of_lt (Nat.lt_of_le_of_lt hl s.npar_lt)]

/-- After BMSOLVE, BM_L lies in ECNT..NPAR (R171). -/
theorem effectBmsolve_bmL_range {s : State} (h : s.ecnt.toNat ≤ s.npar) :
    s.ecnt.toNat ≤ (effectBmsolve s).bmL.toNat ∧ (effectBmsolve s).bmL.toNat ≤ s.npar := by
  have hrange : BmInRange s.ecnt.toNat s.npar s.bmRun := bmRun_inRange _ _ _ _ h
  rw [effectBmsolve_bmL h]
  exact ⟨hrange.ecntLe, hrange.lLe⟩

/-- Settles O39: the bounds as an invariant of the recurrence, and BM_L as its last L. -/
theorem bmsolveIndicesStayInRange : Obligations.BmsolveIndicesStayInRange := by
  unfold Obligations.BmsolveIndicesStayInRange
  refine ⟨fun t n syn gamma ecnt m h => ?_, fun s t hb hle h => ?_⟩
  · obtain ⟨hecnt, hl, hk, hkm⟩ := bmRun_inRange t n syn gamma h
    exact ⟨hecnt, hl, hk, hkm⟩
  · cases (exec_busy hb).symm.trans h
    exact effectBmsolve_bmL_range hle

/-! ### The constant term -/

/-- Step m keeps the constant term of PSI, because that of D is 0 before and after (R172). -/
theorem bmStep_constantTerm {t : Tables} {n : Nat} {syn : Poly} {b : BmScratch} (hn : 0 < n) (hd : coef b.d 0 = 0)
    (m : Nat) : coef (bmStep t n syn b m).psi 0 = coef b.psi 0 ∧ coef (bmStep t n syn b m).d 0 = 0 := by
  have hshift (p : Poly) : coef (polyShift n p) 0 = 0 := by rw [coef_polyShift, if_pos hn, if_pos rfl]
  have hpsi : coef (bmPsi t n syn b m) 0 = coef b.psi 0 := by
    rw [bmPsi, coef_polyAdd, if_pos hn, coef_polyScale, if_pos hn, hd, gfMul_zero_right, byte_xor_zero]
  rcases bmStep_cases t n syn b m with ⟨-, h⟩ | ⟨-, -, h⟩ | ⟨-, -, h⟩
  · rw [h]; exact ⟨rfl, hshift _⟩
  · rw [h]; exact ⟨hpsi, hshift _⟩
  · rw [h]; exact ⟨hpsi, hshift _⟩

theorem bmRun_constantTerm (t : Tables) {n : Nat} (syn gamma : Poly) (hn : 0 < n) {ecnt m : Nat} (h : ecnt ≤ m) :
    coef (bmRun t n syn gamma ecnt m).psi 0 = coef gamma 0 ∧ coef (bmRun t n syn gamma ecnt m).d 0 = 0 := by
  induction m, h using Nat.le_induction with
  | base =>
    rw [bmRun_self]
    exact ⟨rfl, by rw [bmStart, coef_polyShift, if_pos hn, if_pos rfl]⟩
  | succ m h ih =>
    obtain ⟨hpsi, hd⟩ := ih
    rw [bmRun_succ _ _ _ _ h]
    rw [← hpsi]
    exact bmStep_constantTerm hn hd m

/-- With ECNT above NPAR no step runs either. -/
theorem bmRun_of_le (t : Tables) (n : Nat) (syn gamma : Poly) {ecnt m : Nat} (h : m ≤ ecnt) :
    bmRun t n syn gamma ecnt m = bmStart n gamma ecnt := by
  rw [bmRun, Nat.sub_eq_zero_of_le h]
  rfl

/-! ### The registers BMSOLVE leaves -/

/-- A coefficient read from the register file is one of the register's value (R30, R65). -/
theorem State.coefAt_eq_coef (s : State) (p : PIdx) {i : Nat} (hi : i < s.maxdeg) : s.coefAt p i = coef (s.poly p) i := by
  rw [State.coef_poly, if_pos hi]
  rfl

theorem State.length_bmRun_psi (s : State) : s.bmRun.psi.length = s.maxdeg :=
  Machine.length_bmRun_psi _ _ _ _ _ _ (State.length_poly ..)

/-- BMSOLVE leaves the last PSI in LAMBDA (R170). -/
theorem effectBmsolve_lambda {s : State} (hwf : s.polys.wf) : (effectBmsolve s).poly LAMBDA = s.bmRun.psi := by
  have hwf1 : (s.setPoly LAMBDA s.bmRun.psi).polys.wf := Memory.writeAll_wf hwf _ _
  have hne : OMEGA ≠ LAMBDA := by decide
  calc (effectBmsolve s).poly LAMBDA
      = ((s.setPoly LAMBDA s.bmRun.psi).setPoly OMEGA
          (evaluator s.tables s.maxdeg s.npar s.bmRun.psi (s.poly SYN))).poly LAMBDA := rfl
    _ = (s.setPoly LAMBDA s.bmRun.psi).poly LAMBDA :=
        (State.poly_setPoly hwf1 OMEGA LAMBDA (length_evaluator ..)).trans (if_neg hne)
    _ = s.bmRun.psi := (State.poly_setPoly hwf LAMBDA LAMBDA s.length_bmRun_psi).trans (if_pos rfl)

/-- BMSOLVE leaves LAMBDA × SYN modulo x^NPAR in OMEGA (R170, R173). -/
theorem effectBmsolve_omega {s : State} (hwf : s.polys.wf) :
    (effectBmsolve s).poly OMEGA = evaluator s.tables s.maxdeg s.npar s.bmRun.psi (s.poly SYN) := by
  have hwf1 : (s.setPoly LAMBDA s.bmRun.psi).polys.wf := Memory.writeAll_wf hwf _ _
  exact (State.poly_setPoly hwf1 OMEGA OMEGA (length_evaluator ..)).trans (if_pos rfl)

/-- Settles O40: D has no constant term, so no step changes that of PSI. -/
theorem lambdaKeepsTheConstantTerm : Obligations.LambdaKeepsTheConstantTerm := by
  unfold Obligations.LambdaKeepsTheConstantTerm
  intro s t hb hwf h
  cases (exec_busy hb).symm.trans h
  have hpos : 0 < s.maxdeg := Nat.lt_of_lt_of_le (by decide) s.maxdeg_pos
  have hpsi : coef s.bmRun.psi 0 = coef (s.poly GAMMA) 0 := by
    rcases Nat.le_total s.ecnt.toNat s.npar with hle | hle
    · exact (bmRun_constantTerm _ _ _ hpos hle).1
    · rw [State.bmRun, bmRun_of_le _ _ _ _ hle, bmStart]
  calc (effectBmsolve s).coefAt LAMBDA 0
      = coef ((effectBmsolve s).poly LAMBDA) 0 := State.coefAt_eq_coef _ _ hpos
    _ = coef (s.poly GAMMA) 0 := by rw [effectBmsolve_lambda hwf, hpsi]
    _ = s.coefAt GAMMA 0 := (State.coefAt_eq_coef s GAMMA hpos).symm

end Sys2Proof.Machine

/-!
PROOFS. The invariant of Safety.lean: it holds after a reset, every step keeps it, and so no run stops (60_exceptions.md
section 2, 70_reset_and_hazards.md section 3).
-/

namespace Sys2Proof.Machine

/-! ### The parts of the invariant under a change of state -/

theorem SameBoot.npar_eq {s t : State} (h : SameBoot s t) : t.npar = s.npar := congrArg BitVec.toNat h.nparAct

theorem SameBoot.maxdeg_eq {s t : State} (h : SameBoot s t) : t.maxdeg = s.maxdeg := congrArg Config.maxdeg h.config

theorem Booted.congr {s t : State} (hb : Booted s) (h : SameBoot s t) : Booted t where
  tables := h.tables.trans hb.tables
  nparPos := h.npar_eq ▸ hb.nparPos
  nparLe := by rw [h.npar_eq, h.config]; exact hb.nparLe
  gen := by rw [h.npar_eq, h.maxdeg_eq, h.gen]; exact hb.gen

theorem LocationsLegal.congr {s t : State} (hl : LocationsLegal s) (hnerr : t.nerr = s.nerr)
    (herrloc : t.errloc = s.errloc) : LocationsLegal t := by
  have hlocations : t.locations = s.locations := by rw [State.locations, State.locations, hnerr, herrloc]
  exact ⟨hnerr ▸ hl.count, hlocations ▸ hl.distinct, hlocations ▸ hl.range⟩

theorem PendingPasses.congr {s t : State} (hs : PendingPasses s) (hpending : t.pending = s.pending)
    (h : SameOperands s t) (hinit : t.initDone = s.initDone) : PendingPasses t := by
  intro v hv
  obtain ⟨i, hd, hp⟩ := hs v (hpending ▸ hv)
  exact ⟨i, hd, (Passes.congr h hinit i).2 hp⟩

theorem pendingPasses_of_none {s : State} (h : s.pending = none) : PendingPasses s :=
  fun _ hv => nomatch h.symm.trans hv

/-- A state with no located error. -/
theorem locationsLegal_of_nerr_zero {s : State} (h : s.nerr = 0) : LocationsLegal s := by
  have hlocations : s.locations = [] := by rw [State.locations, h]; rfl
  exact ⟨by rw [h]; decide, by rw [hlocations]; exact List.nodup_nil, by rw [hlocations]; exact nofun⟩

/-- What CHIEN finds is legal (R180, R181). -/
theorem locationsLegal_effectChien (s : State) : LocationsLegal (effectChien s) := by
  have hlocations := effectChien_locations s
  obtain ⟨hnerr, -⟩ := effectChien_located s
  have hlen := length_rootLocations s.tables s.maxdeg (s.poly LAMBDA)
  refine ⟨?_, ?_, ?_⟩
  · rw [hnerr, BitVec.toNat_ofNat]
    omega
  · rw [hlocations]
    exact rootLocations_nodup ..
  · rw [hlocations]
    intro e he
    obtain ⟨r, hr, rfl⟩ := List.mem_map.1 he
    obtain ⟨i, -, rfl⟩ := List.mem_map.1 (List.mem_filter.1 hr).1
    rw [BitVec.toNat_ofNat]
    omega

/-! ### The results after a completion -/

theorem forneyBody_results (v : Word) (s : State) : (forneyBody v s).nerr = s.nerr ∧ (forneyBody v s).errloc = s.errloc ∧
    (forneyBody v s).bmL = s.bmL ∧ (forneyBody v s).nparAct = s.nparAct := by
  rw [forneyBody_eq]
  exact ⟨rfl, rfl, rfl, rfl⟩

/-- What holds of both ends of CORRECT, whatever the scratch, holds after CORRECT (R190). -/
theorem effectCorrect_of {P : State → Prop} {s : State} (hscratch : ∀ t sc, P t → P (t.withScratch sc))
    (hclean : P { effectSynd s with outcome := .doneClean, failCause := .none })
    (hdirty : P (forneyBody (encode .correct) (correctStages s))) : P (effectCorrect s) := by
  rcases effectCorrect_cases s with ⟨-, sc, he⟩ | ⟨-, sc, he⟩
  · rw [he]; exact hscratch _ sc hclean
  · rw [he]; exact hscratch _ sc hdirty

/-- A completion leaves ERRLOC and NERR, or leaves legal ones. -/
theorem locationsLegal_effectOf {s : State} (h : LocationsLegal s) (i : Instr) : LocationsLegal (effectOf i s) := by
  cases i with
  | init => exact locationsLegal_of_nerr_zero rfl
  | chien => exact locationsLegal_effectChien s
  | ginv a =>
    show LocationsLegal (effectGinv a s)
    rcases effectGinv_cases a s with ⟨-, he⟩ | ⟨-, he⟩
    · rw [he]; exact h.congr rfl rfl
    · rw [he]; exact h.congr rfl rfl
  | forney =>
    obtain ⟨hnerr, herrloc, -⟩ := forneyBody_results (encode .forney) s
    exact h.congr hnerr herrloc
  | correct =>
    obtain ⟨hnerr, herrloc, -⟩ := forneyBody_results (encode .correct) (correctStages s)
    have hstages : LocationsLegal (correctStages s) := locationsLegal_effectChien _
    exact effectCorrect_of (P := LocationsLegal) (fun t sc ht => ht.congr rfl rfl) (h.congr rfl rfl)
      (hstages.congr hnerr herrloc)
  | _ => exact h.congr rfl rfl

theorem correctStages_bmL (s : State) :
    (correctStages s).bmL = (effectBmsolve (effectGamma (effectSynd s))).bmL := by
  rw [correctStages, effectChien_eq]

theorem bmL_forneyBody_correctStages_le {v : Word} {s : State} (hecnt : s.ecnt.toNat ≤ s.npar) :
    (forneyBody v (correctStages s)).bmL.toNat ≤ s.npar := by
  obtain ⟨-, -, hbmL, -⟩ := forneyBody_results v (correctStages s)
  rw [hbmL, correctStages_bmL]
  have hle : (effectGamma (effectSynd s)).ecnt.toNat ≤ (effectGamma (effectSynd s)).npar := hecnt
  exact (effectBmsolve_bmL_range hle).2

/-- A completion keeps BM_L at most NPAR, when the command passes its issue checks (R171). -/
theorem bmL_effectOf_le {i : Instr} {s : State} (h : s.bmL.toNat ≤ s.npar) (hp : Passes i s) :
    (effectOf i s).bmL.toNat ≤ (effectOf i s).npar := by
  cases i with
  | init => exact Nat.zero_le _
  | bmsolve => exact (effectBmsolve_bmL_range (Nat.le_of_not_lt hp.2.2)).2
  | ginv a =>
    show (effectGinv a s).bmL.toNat ≤ (effectGinv a s).npar
    rcases effectGinv_cases a s with ⟨-, he⟩ | ⟨-, he⟩
    · rw [he]; exact h
    · rw [he]; exact h
  | forney =>
    obtain ⟨-, -, hbmL, hnpar⟩ := forneyBody_results (encode .forney) s
    rw [effectOf, State.npar, hbmL, hnpar]
    exact h
  | correct =>
    have hecnt : s.ecnt.toNat ≤ s.npar := Nat.le_of_not_lt fun hlt => hp.2.2 (.inl hlt)
    obtain ⟨-, hnpar⟩ := effectCorrect_tables s
    rw [effectOf, State.npar, hnpar]
    exact effectCorrect_of (P := fun t => t.bmL.toNat ≤ s.npar) (fun t sc ht => ht) h
      (bmL_forneyBody_correctStages_le hecnt)
  | _ => exact h

/-- FAIL_CAUSE tells an UNCORRECTABLE outcome (R28). -/
abbrev OutcomeTold (s : State) : Prop := s.outcome = .uncorrectable ↔ s.failCause ≠ .none

theorem outcomeTold_forneyBody (v : Word) (s : State) : OutcomeTold (forneyBody v s) := by
  rcases forneyBody_cases v s with ⟨-, h⟩ | ⟨-, -, h⟩ | ⟨-, -, -, h⟩ <;>
  · rw [h]
    simp [OutcomeTold]

theorem outcomeTold_effectOf {s : State} (h : OutcomeTold s) (i : Instr) : OutcomeTold (effectOf i s) := by
  cases i with
  | init => exact iff_of_false nofun (not_not.2 rfl)
  | ginv a =>
    show OutcomeTold (effectGinv a s)
    rcases effectGinv_cases a s with ⟨-, he⟩ | ⟨-, he⟩
    · rw [he]; exact h
    · rw [he]; exact h
  | forney => exact outcomeTold_forneyBody _ s
  | correct =>
    exact effectCorrect_of (P := OutcomeTold) (fun t sc ht => ht) (iff_of_false nofun (not_not.2 rfl))
      (outcomeTold_forneyBody (encode .correct) (correctStages s))
  | _ => exact h

theorem MayWarn.errInfo_ne_busy {s t : State} {v : Word} (h : MayWarn s t v) (hs : s.errInfo ≠ .busy) :
    t.errInfo ≠ .busy := by
  rcases h with ⟨-, hinfo, -⟩ | ⟨-, hinfo, -⟩
  · rwa [hinfo]
  · rw [hinfo]; nofun

theorem errInfo_effectOf_ne_busy {s : State} (h : s.errInfo ≠ .busy) (i : Instr) : (effectOf i s).errInfo ≠ .busy := by
  cases i with
  | ginv a => exact (writesOnly_ginv a s).2.1.errInfo_ne_busy h
  | forney => exact (forneyBody_mayWarn (encode .forney) s).errInfo_ne_busy h
  | correct =>
    obtain ⟨-, hinfo, -⟩ := correctStages_record s
    have hstages : (correctStages s).errInfo ≠ .busy := by rw [hinfo]; exact h
    exact effectCorrect_of (P := fun t => t.errInfo ≠ .busy) (fun t sc ht => ht) h
      ((forneyBody_mayWarn (encode .correct) (correctStages s)).errInfo_ne_busy hstages)
  | _ => exact h

/-! ### The Engine's step -/

/-- The completion of the pending command keeps the invariant. -/
theorem Inv.complete {s : State} (h : Inv s) {v : Word} {i : Instr} (hv : s.pending = some v)
    (hd : decode v = .legal i) : Inv (effectOf i s).complete := by
  obtain ⟨j, hj, hp⟩ := h.pending v hv
  cases hd.symm.trans hj
  have hsame := effectOf_same i s
  refine { canonical := { h.canonical.effectOf i with }, inRange := { h.inRange.effectOf (wellFormed_of_legal hd) hp with },
           booted := fun hdone => ?booted, notBooted := fun hdone => ?notBooted, pending := pendingPasses_of_none rfl,
           locations := (locationsLegal_effectOf h.locations i).congr rfl rfl, bmL := bmL_effectOf_le h.bmL hp,
           outcome := outcomeTold_effectOf h.outcome i, errInfo := errInfo_effectOf_ne_busy h.errInfo i,
           inReset := fun hr => ?inReset }
  case booted =>
    by_cases hi : i = .init
    · subst hi
      have hbooted := Booted.effectInit (Bool.eq_false_iff.2 fun hbad => hp.2.2 ((paramInit_iff s).1 hbad))
      exact hbooted.congr ⟨rfl, rfl, rfl, rfl⟩
    · exact (h.booted (effectOf_initDone_of_ne_init hi s ▸ hdone)).congr
        (sameBoot_effectOf h.canonical.polys hi hp.2.1)
  case notBooted =>
    by_cases hi : i = .init
    · subst hi
      exact nomatch hdone
    · have hdone : s.initDone = false := effectOf_initDone_of_ne_init hi s ▸ hdone
      exact absurd (hp.1.resolve_left hi) (by simp [hdone])
  case inReset =>
    have hr : s.resetAsserted = true := hsame.resetAsserted ▸ hr
    exact nomatch (h.inReset hr).1.symm.trans hv

/-! ### The acts of the outside world -/

/-- The state after a reset meets the invariant, whatever the outside world is about to do (R40, R230). -/
theorem inv_resetFrom (c : Config) (d : Nat) (asserted : Bool) (acts : List Input) (reads : List (Addr × Word))
    (delays : List Nat) : Inv { State.resetFrom c d with
      resetAsserted := asserted, inputs := acts, reads := reads, delays := delays } where
  canonical := { Canonical.resetFrom c d with }
  inRange := { InRange.resetFrom c d with }
  booted h := nomatch h
  notBooted _ := rfl
  pending := pendingPasses_of_none rfl
  locations := locationsLegal_of_nerr_zero rfl
  bmL := Nat.zero_le _
  outcome := iff_of_false nofun (not_not.2 rfl)
  errInfo := nofun
  inReset _ := ⟨rfl, rfl⟩

/-- Settles O47: power-on is a reset. -/
theorem resetMeetsTheInvariant : Obligations.ResetMeetsTheInvariant := fun c => inv_resetFrom c 0 false [] [] []

/-- The event record, the Host's own record, the draws and the schedule are free of the invariant, but for code BUSY. -/
theorem Inv.withRecord {s : State} (h : Inv s) (errors : ErrorBits) {info : EventCode} (hinfo : info ≠ .busy) (cmd : Word)
    (acts : List Input) (reads : List (Addr × Word)) (wait draws : Nat) :
    Inv { s with errors := errors, errInfo := info, errCmd := cmd, inputs := acts, reads := reads, engineWait := wait,
                 draws := draws } where
  canonical := { h.canonical with }
  inRange := { h.inRange with }
  booted hdone := (h.booted hdone).congr ⟨rfl, rfl, rfl, rfl⟩
  notBooted := h.notBooted
  pending := h.pending.congr rfl ⟨rfl, rfl, rfl, rfl, rfl, rfl⟩ rfl
  locations := h.locations.congr rfl rfl
  bmL := h.bmL
  outcome := h.outcome
  errInfo := hinfo
  inReset := h.inReset

theorem Inv.turn {s : State} (h : Inv s) (rest : List Input) : Inv (s.turn rest) := h.withRecord _ h.errInfo _ _ _ _ _

theorem Inv.hostRead {s : State} (h : Inv s) (addr : Addr) : Inv (hostRead addr s) := h.withRecord _ h.errInfo _ _ _ _ _

theorem Inv.release {s : State} (h : Inv s) : Inv { s with resetAsserted := false } where
  canonical := { h.canonical with }
  inRange := { h.inRange with }
  booted hdone := (h.booted hdone).congr ⟨rfl, rfl, rfl, rfl⟩
  notBooted := h.notBooted
  pending := h.pending.congr rfl ⟨rfl, rfl, rfl, rfl, rfl, rfl⟩ rfl
  locations := h.locations.congr rfl rfl
  bmL := h.bmL
  outcome := h.outcome
  errInfo := h.errInfo
  inReset hr := nomatch hr

/-- A command accepted because it passes its checks (R202). -/
theorem Inv.accept {s : State} (h : Inv s) {v : Word} {i : Instr} (hr : s.resetAsserted = false)
    (hd : decode v = .legal i) (hp : Passes i s) : Inv (s.accept v) where
  canonical := { h.canonical with }
  inRange := { h.inRange with }
  booted hdone := (h.booted hdone).congr ⟨rfl, rfl, rfl, rfl⟩
  notBooted := h.notBooted
  pending w hw := by
    cases hw
    exact ⟨i, hd, (Passes.congr (s := s) (t := s.accept v) ⟨rfl, rfl, rfl, rfl, rfl, rfl⟩ rfl i).2 hp⟩
  locations := h.locations.congr rfl rfl
  bmL := h.bmL
  outcome := h.outcome
  errInfo := h.errInfo
  inReset hr2 := nomatch hr.symm.trans hr2

/-- No issue check answers BUSY (R202). -/
theorem issueCheck_ne_busy (i : Instr) (s : State) : issueCheck i s ≠ some .busy := by
  rcases issueCheck_cases i s with ⟨-, -, h⟩ | ⟨-, -, h⟩ | ⟨-, -, -, h⟩ | ⟨-, h⟩ <;>
  · rw [h]
    nofun

/-! ### Stores -/

/-- What a store can change (R63): the registers and arrays that the Host writes. -/
theorem State.store_eq (s : State) (l : Loc) (v : Word) : s.store l v =
    { s with nparReq := (s.store l v).nparReq, len := (s.store l v).len, ecnt := (s.store l v).ecnt,
             era := (s.store l v).era, cw := (s.store l v).cw, polys := (s.store l v).polys } := by
  cases l with
  | poly p i => by_cases hp : p = GEN.toNat <;> simp [State.store, hp]
  | _ => rfl

theorem Canonical.store {s : State} (h : Canonical s) (l : Loc) (v : Word) : Canonical (s.store l v) := by
  cases l with
  | era k => exact { h with era := Memory.write_wf h.era _ _ }
  | cw t => exact { h with cw := Memory.write_wf h.cw _ _ }
  | poly p i =>
    rw [State.store]
    split
    · exact h
    · exact { h with polys := Memory.write_wf h.polys _ _ }
  | _ => exact { h with }

theorem locate_eq_era {c : Config} {addr : Addr} {k : Nat} (h : locate c addr = .era k) : k < c.nparMax := by
  by_cases h12 : 12 ≤ addr.toNat / 4
  · rw [locate_of_ge h12, locateArray] at h
    split_ifs at h with _ hin
    have hk : addr.toNat / 4 - 0x200 = k := Loc.era.inj h
    omega
  · have : addr.toNat / 4 < 12 := by omega
    unfold locate wordAddr at h
    interval_cases addr.toNat / 4 <;> exact nomatch h

theorem locate_eq_cw {c : Config} {addr : Addr} {k : Nat} (h : locate c addr = .cw k) : k < 255 := by
  by_cases h12 : 12 ≤ addr.toNat / 4
  · rw [locate_of_ge h12, locateArray] at h
    split_ifs at h with _ _ hin
    have hk : addr.toNat / 4 - 0x400 = k := Loc.cw.inj h
    omega
  · have : addr.toNat / 4 < 12 := by omega
    unfold locate wordAddr at h
    interval_cases addr.toNat / 4 <;> exact nomatch h

/-- A store through the map lists no element that does not exist (R64). -/
theorem InRange.store {s : State} (h : InRange s) (addr : Addr) (v : Word) :
    InRange (s.store (locate s.config addr) v) := by
  cases hl : locate s.config addr with
  | era k =>
    refine { h with era := fun c hc => ?_ }
    rcases Memory.mem_write hc with rfl | hc
    · exact locate_eq_era hl
    · exact h.era c hc
  | cw t =>
    refine { h with cw := fun c hc => ?_ }
    rcases Memory.mem_write hc with rfl | hc
    · exact locate_eq_cw hl
    · exact h.cw c hc
  | poly p i =>
    rw [State.store]
    split
    · exact h
    · refine { h with polys := fun c hc => ?_ }
      obtain ⟨hp, hi⟩ := locate_eq_poly hl
      have hle := s.maxdeg_le
      rcases Memory.mem_write hc with rfl | hc
      · show polySlot p i / 512 ≤ 12 ∧ polySlot p i % 512 < s.maxdeg
        have hi : i < s.maxdeg := hi
        rw [polySlot]
        omega
      · exact h.polys c hc
  | _ => exact { h with }

/-- A store with nothing pending keeps the invariant. -/
theorem Inv.store {s : State} (h : Inv s) (hb : s.busy = false) (addr : Addr) (v : Word) :
    Inv (s.store (locate s.config addr) v) := by
  have hnone : s.pending = none := by simpa [State.busy] using hb
  have hboot := sameBoot_store h.canonical.polys addr v
  have hcanonical := h.canonical.store (locate s.config addr) v
  have hrange := h.inRange.store addr v
  have hframe := s.store_eq (locate s.config addr) v
  generalize s.store (locate s.config addr) v = t at hboot hcanonical hrange hframe
  have hinit : t.initDone = s.initDone := by rw [hframe]
  exact {
    canonical := hcanonical
    inRange := hrange
    booted := fun hdone => (h.booted (hinit ▸ hdone)).congr hboot
    notBooted := fun hdone => hboot.npar_eq.trans (h.notBooted (hinit ▸ hdone))
    pending := pendingPasses_of_none (by rw [hframe]; exact hnone)
    locations := h.locations.congr (by rw [hframe]) (by rw [hframe])
    bmL := by rw [hboot.npar_eq, hframe]; exact h.bmL
    outcome := by rw [hframe]; exact h.outcome
    errInfo := by rw [hframe]; exact h.errInfo
    inReset := by rw [hframe]; exact h.inReset }

/-! ### Every step -/

/-- Every outcome of an act of the outside world keeps the invariant. -/
theorem OutsideEffect.inv {s t : State} {a : Input} (he : OutsideEffect s a t) (h : Inv s) : Inv t := by
  cases he with
  | reset => exact inv_resetFrom s.config s.draws true _ _ _
  | release => exact h.release
  | read addr => exact h.hostRead addr
  | poll acts => exact (h.hostRead statusAddr).withRecord _ h.errInfo _ _ _ _ _
  | ignored => exact h
  | acknowledged => exact h.withRecord _ h.errInfo _ _ _ _ _
  | dropped => exact h.withRecord _ h.errInfo _ _ _ _ _
  | illegal => exact h.withRecord _ (by decide) _ _ _ _ _
  | rejected _ _ _ _ hc => exact h.withRecord _ (fun e => issueCheck_ne_busy _ _ (e ▸ hc)) _ _ _ _ _
  | accepted hr _ _ hd hp => exact h.accept hr hd hp
  | stored _ hb => exact h.store hb _ _

/-- Every step keeps the invariant. -/
theorem Inv.step {s t : State} (h : Inv s) (hstep : step s = .next t) : Inv t := by
  rcases step_next_cases hstep with ⟨v, i, -, hv, hd, rfl⟩ | ⟨-, -, rfl⟩ | ⟨a, rest, -, he⟩
  · exact h.complete hv hd
  · exact h.turn []
  · exact he.inv (h.turn rest)

/-- Settles O48: a step is a completion, an idle turn or one outcome of an act, and each keeps the invariant. -/
theorem stepKeepsTheInvariant : Obligations.StepKeepsTheInvariant := fun _ _ h hstep => h.step hstep

/-- A state that meets the invariant has a next state: its pending word is a command (R202). -/
theorem Inv.exists_step {s : State} (h : Inv s) : ∃ t, Machine.step s = .next t := by
  rcases step_cases s with ⟨_, _, -, -, -, h1⟩ | ⟨v, why, -, hv, hd, -⟩ | ⟨-, -, h1⟩ | ⟨a, rest, -, -, h1⟩
  · exact ⟨_, h1⟩
  · obtain ⟨i, hi, -⟩ := h.pending v hv
    exact nomatch hd.symm.trans hi
  · exact ⟨_, h1⟩
  · rw [h1]
    exact outsideAct_next ..

/-- One more step of a run, when the first answers a next state. -/
theorem run_succ_of_next {s t : State} (h : step s = .next t) (n : Nat) :
    Sys2Proof.core.run (n + 1) s = Sys2Proof.core.run n t := by
  have hcore : Sys2Proof.core.step s = .next t := h
  simp only [Host.Core.run, hcore]

/-- Settles O49: the invariant holds along the run, so every step of it answers a next state. -/
theorem runsNeverStop : Obligations.RunsNeverStop := by
  unfold Obligations.RunsNeverStop
  intro s h n
  induction n generalizing s with
  | zero => exact ⟨s, rfl⟩
  | succ n ih =>
    obtain ⟨t, hstep⟩ := h.exists_step
    rw [run_succ_of_next hstep]
    exact ih t (h.step hstep)

end Sys2Proof.Machine

/-!
PROOFS. What the Host reads and writes (10_state.md section 2, 20_memory.md sections 2 to 4): the bits of STATUS, the
registers and the arrays at their addresses, and the one word a write changes.
-/

namespace Sys2Proof.Machine

/-! ### STATUS -/

/-- A two-bit field of STATUS, as a number. -/
theorem State.status_field {s : State} {k : Nat} {x : BitVec 2} (h : ∀ i < 2, s.status.getLsbD (k + i) = x.getLsbD i) :
    s.status.toNat / 2 ^ k % 4 = x.toNat := by
  have hfield : s.status.extractLsb' k 2 = x := BitVec.eq_of_getLsbD_eq fun i hi => by
    rw [BitVec.getLsbD_extractLsb', decide_eq_true hi, Bool.true_and, h i hi]
  rw [← hfield, BitVec.extractLsb'_toNat, Nat.shiftRight_eq_div_pow]

theorem State.status_outcome (s : State) : s.status.toNat / 2 ^ 4 % 4 = s.outcome.bits.toNat :=
  State.status_field fun i hi => by rw [State.status_getLsbD]; interval_cases i <;> rfl

theorem State.status_failCause (s : State) : s.status.toNat / 2 ^ 6 % 4 = s.failCause.bits.toNat :=
  State.status_field fun i hi => by rw [State.status_getLsbD]; interval_cases i <;> rfl

/-- Settles O11: each bit by `State.status_getLsbD`, the two fields as numbers. -/
theorem statusShowsItsFields : Obligations.StatusShowsItsFields := by
  unfold Obligations.StatusShowsItsFields
  intro s
  rw [State.status_outcome, State.status_failCause]
  refine ⟨?busy, s.status_getLsbD 1, ?resultOk, s.status_getLsbD 3, ?_, ?_, ?_, ?_, ?_, ?_, ?_, ?_, ?_, ?_, ?_, ?_, ?_, ?_,
    ?high⟩
  case busy => rw [State.status_getLsbD]; exact s.busy_iff
  case resultOk =>
    rw [State.status_getLsbD]
    show s.resultOk = true ↔ _
    rw [State.resultOk]
    cases s.outcome <;> decide
  case high =>
    intro b hb
    rw [State.status_getLsbD_of_ge (by omega), BitVec.getLsbD_of_ge _ _ (by omega)]
  iterate 4 cases s.outcome <;> decide
  iterate 4 cases s.failCause <;> decide
  all_goals rw [State.status_getLsbD_of_ge (by omega), ErrorBits.bits_getLsbD]; rfl

/-! ### Reads with BUSY = 0 -/

/-- The step of a Host read with BUSY = 0 and outside reset (R63). -/
theorem step_read_idle {s : State} {addr : Addr} {rest : List Input} (h : OutsideActs s (.read addr) rest)
    (hr : s.resetAsserted = false) (hb : s.busy = false) :
    step s = .next { s.turn rest with reads := (addr, s.value (locate s.config addr)) :: s.reads } :=
  step_read_specified h (State.unspecifiedRead_of_idle hr hb _)

/-- The codes of ERRINFO (R201), one for each event. -/
theorem EventCode.bits_toNat (c : EventCode) : c.bits.toNat ≤ 6 ∧ (c.bits.toNat = 0 ↔ c = .none) ∧
    (c.bits.toNat = 1 ↔ c = .busy) ∧ (c.bits.toNat = 2 ↔ c = .illegal) ∧ (c.bits.toNat = 3 ↔ c = .notInit) ∧
    (c.bits.toNat = 4 ↔ c = .ro) ∧ (c.bits.toNat = 5 ↔ c = .param) ∧ (c.bits.toNat = 6 ↔ c = .zdiv) := by
  cases c <;> decide

/-- Settles O13: what each of the first twelve words names, and its value. -/
theorem registerReadsReturnTheValue : Obligations.RegisterReadsReturnTheValue := by
  unfold Obligations.RegisterReadsReturnTheValue
  intro s addr rest h hr hb _
  refine ⟨_, step_read_idle h hr hb, ?_⟩
  refine ⟨fun hw => ?_, fun hw => ?_, fun hw => ?_, fun hw => ?_, fun hw => ?_, fun hw => ?_, fun hw => ?_, fun hw => ?_,
    fun hw => ?_, fun hw => ?_⟩ <;> rw [locate, wordAddr, hw]
  · exact s.cfg_toNat
  · rfl
  · rfl
  · show s.errInfoWord.toNat ≤ 6 ∧ (s.errInfoWord.toNat = 0 ↔ _) ∧ (s.errInfoWord.toNat = 1 ↔ _) ∧
      (s.errInfoWord.toNat = 2 ↔ _) ∧ (s.errInfoWord.toNat = 3 ↔ _) ∧ (s.errInfoWord.toNat = 4 ↔ _) ∧
      (s.errInfoWord.toNat = 5 ↔ _) ∧ (s.errInfoWord.toNat = 6 ↔ _)
    rw [State.errInfoWord_toNat]
    exact s.errInfo.bits_toNat
  · rfl
  · exact elementWord_toNat s.result
  · exact elementWord_toNat s.len
  · exact elementWord_toNat s.ecnt
  · exact s.nerrWord_toNat
  · exact elementWord_toNat s.bmL

/-- Settles O14: each array location at its word address, read by R63. -/
theorem arrayReadsReturnTheElement : Obligations.ArrayReadsReturnTheElement := by
  unfold Obligations.ArrayReadsReturnTheElement
  intro s addr rest h hr hb
  refine ⟨_, step_read_idle h hr hb, fun k hk hw => ?_, fun k hk hw => ?_, fun k hk hw => ?_, fun p hp i hi hw => ?_,
    fun i hi hw => ?_, fun k hk hw => ?_⟩ <;> rw [locate_of_ge (by omega)]
  · rw [locateArray_errloc hk (by omega)]
    exact elementWord_toNat _
  · rw [locateArray_era hk (by omega)]
    exact elementWord_toNat _
  · rw [locateArray_cw hk (by omega)]
    exact elementWord_toNat _
  · rw [locateArray_poly hp hi (by omega)]
    exact elementWord_toNat _
  · rw [locateArray_exp hi (by omega)]
    exact elementWord_toNat _
  · rw [locateArray_log hk (by omega)]
    exact elementWord_toNat _

/-! ### What a store leaves -/

/-- Slots of the register file are distinct (R65). -/
theorem polySlot_injective {p i q j : Nat} (hi : i < 512) (hj : j < 512) (h : polySlot p i = polySlot q j) :
    p = q ∧ i = j := by
  rw [polySlot, polySlot] at h
  omega

/-- The value of every location but the one stored to is as before (R68). -/
theorem State.value_store {s : State} (hc : Canonical s) {l l' : Loc} (hne : l' ≠ l)
    (hi : ∀ p i, l = .poly p i → i < 512) (hi' : ∀ p i, l' = .poly p i → i < 512) (v : Word) :
    (s.store l v).value l' = s.value l' := by
  cases l with
  | cfg => cases l' with
    | cfg => exact absurd rfl hne
    | _ => rfl
  | len => cases l' with
    | len => exact absurd rfl hne
    | _ => rfl
  | ecnt => cases l' with
    | ecnt => exact absurd rfl hne
    | _ => rfl
  | era k => cases l' with
    | era k' => exact congrArg elementWord (Memory.read_write_other hc.era (fun e => hne (congrArg Loc.era e)) _)
    | _ => rfl
  | cw k => cases l' with
    | cw k' => exact congrArg elementWord (Memory.read_write_other hc.cw (fun e => hne (congrArg Loc.cw e)) _)
    | _ => rfl
  | poly p i =>
    rw [State.store]
    split
    · rfl
    · cases l' with
      | poly q j =>
        refine congrArg elementWord (Memory.read_write_other hc.polys (fun e => hne ?_) _)
        obtain ⟨rfl, rfl⟩ := polySlot_injective (hi' q j rfl) (hi p i rfl) e
        rfl
      | _ => rfl
  | _ => rfl

/-- A store to one word of the map leaves every other word's value (R68). -/
theorem State.value_store_of_word_ne {s : State} (hc : Canonical s) {addr b : Addr} (hne : b.toNat / 4 ≠ addr.toNat / 4)
    (v : Word) : (s.store (locate s.config addr) v).value (locate s.config b) = s.value (locate s.config b) := by
  by_cases hres : locate s.config addr = .reserved
  · rw [hres, State.store]
  · have hle := s.config.maxdeg_le
    have hslot (a : Addr) : ∀ p i, locate s.config a = .poly p i → i < 512 := fun p i hl => by
      have := (locate_eq_poly hl).2
      omega
    exact State.value_store hc (fun e => hne (locate_injective e.symm hres).symm) (hslot addr) (hslot b) v

/-- Acknowledging events changes what STATUS reads as and nothing else (R25). -/
theorem State.value_acknowledge {s : State} {l : Loc} (hl : l ≠ .status) (v : Word) :
    (s.acknowledge v).value l = s.value l := by
  cases l with
  | status => exact absurd rfl hl
  | _ => rfl

/-- The step of a Host write with BUSY = 0 to a word that is neither CMD nor STATUS (R63, R67). -/
theorem step_write_idle {s : State} {addr : Addr} {v : Word} {rest : List Input}
    (h : OutsideActs s (.write addr v) rest) (hr : s.resetAsserted = false) (hb : s.busy = false)
    (hcmd : addr.toNat / 4 ≠ 3) (hstatus : addr.toNat / 4 ≠ 4) :
    step s = .next ((s.turn rest).store (locate s.config addr) v) :=
  step_write_store h hr hb (mt locate_eq_cmd.1 hcmd) (mt locate_eq_status.1 hstatus)

theorem Canonical.turn {s : State} (h : Canonical s) (rest : List Input) : Canonical (s.turn rest) := { h with }

/-- A store leaves the record of the outside world and the pending word. -/
theorem State.store_outside (s : State) (l : Loc) (v : Word) : (s.store l v).config = s.config ∧
    (s.store l v).inputs = s.inputs ∧ (s.store l v).reads = s.reads ∧ (s.store l v).pending = s.pending := by
  rw [State.store_eq]
  exact ⟨rfl, rfl, rfl, rfl⟩

/-- Settles O16: a write of STATUS acknowledges, any other is a store to the word's location. -/
theorem writeChangesOnlyTheAddressedLocation : Obligations.WriteChangesOnlyTheAddressedLocation := by
  unfold Obligations.WriteChangesOnlyTheAddressedLocation
  intro s addr v rest h hr hb hc hcmd
  have hnone : s.pending = none := by simpa [State.busy] using hb
  by_cases hstatus : addr.toNat / 4 = 4
  · refine ⟨_, step_write_status h hr hstatus, rfl, rfl, hnone, fun b hne => ?_, fun hw => ?_, fun hw => ?_, fun hw => ?_,
      fun k hk hw => ?_, fun k hk hw => ?_, fun p hp hg i hi hw => ?_⟩
    · have hl : locate s.config b ≠ .status := fun e => hne ((locate_eq_status.1 e).trans hstatus.symm)
      exact State.value_acknowledge (s := s.turn rest) hl v
    all_goals omega
  · obtain ⟨hconfig, hinputs, hreads, hpending⟩ := (s.turn rest).store_outside (locate s.config addr) v
    refine ⟨_, step_write_idle h hr hb hcmd hstatus, hinputs, hreads, hpending.trans hnone, fun b hne => ?_, fun hw => ?_,
      fun hw => ?_, fun hw => ?_, fun k hk hw => ?_, fun k hk hw => ?_, fun p hp hg i hi hw => ?_⟩
    · rw [hconfig]
      exact State.value_store_of_word_ne (hc.turn rest) hne v
    · rw [locate_cfg hw]
      exact ⟨rfl, rfl⟩
    · rw [locate, wordAddr, hw]
      rfl
    · rw [locate, wordAddr, hw]
      rfl
    · rw [locate_of_ge (by omega), locateArray_era hk hw]
      exact Memory.read_write_same hc.era k _
    · rw [locate_of_ge (by omega), locateArray_cw hk hw]
      exact Memory.read_write_same hc.cw k _
    · have hgen : p.toNat ≠ GEN.toNat := fun e => hg (BitVec.eq_of_toNat_eq e)
      rw [locate_of_ge (by omega), locateArray_poly hp hi hw, State.store, if_neg hgen]
      exact Memory.read_write_same hc.polys _ _

/-! ### Unspecified elements -/

/-- Every array word of the map that is not reserved names a location (R64). -/
theorem locate_ne_reserved {c : Config} {addr : Addr} (h12 : 12 ≤ addr.toNat / 4)
    (h : ¬ReservedWord c (addr.toNat / 4)) : locate c addr ≠ .reserved := by
  have hlt : addr.toNat / 4 < 2 ^ 14 := by have := addr.isLt; omega
  intro hl
  rw [locate_of_ge h12] at hl
  generalize addr.toNat / 4 = w at h h12 hlt hl
  have hpoly (h1 : 0x800 ≤ w) (h2 : w ≤ 0x27FF) : (w - 0x800) / 512 ≤ 12 ∧ (w - 0x800) % 512 < c.maxdeg := by
    by_contra hbad
    refine h (.inr (.inr (.inr (.inr (.inl ⟨(w - 0x800) / 512, (w - 0x800) % 512, ?_, ?_, ?_, ?_⟩)))))
    all_goals omega
  have hnot : ¬((0xC ≤ w ∧ w ≤ 0xFF) ∨ w = 0x1FF ∨ (0x200 + c.nparMax ≤ w ∧ w ≤ 0x3FF) ∨ (0x4FF ≤ w ∧ w ≤ 0x7FF) ∨
      (0x2B00 ≤ w ∧ w ≤ 0x3FFF)) := by
    rintro (h1 | h1 | h1 | h1 | h1)
    · exact h (.inl h1)
    · exact h (.inr (.inl h1))
    · exact h (.inr (.inr (.inl h1)))
    · exact h (.inr (.inr (.inr (.inl h1))))
    · exact h (.inr (.inr (.inr (.inr (.inr h1)))))
  unfold locateArray at hl
  split_ifs at hl with h1 h2 h3 h4 h5 h6 h7
  · exact h5 (hpoly h4.1 h4.2)
  · omega

/-- Right after a reset every array word reads as the free value of its own number (R41). -/
theorem resetFrom_value {c : Config} {addr : Addr} (hw : 0x100 ≤ addr.toNat / 4)
    (h : ¬ReservedWord c (addr.toNat / 4)) (d : Nat) :
    (State.resetFrom c d).value (locate c addr) = elementWord (Config.freeByte (d + addr.toNat / 4)) := by
  have hne := locate_ne_reserved (by omega) h
  have hword := word_locate hne
  rw [← hword] at hw ⊢
  cases hl : locate c addr with
  | reserved => exact absurd hl hne
  | errloc k => exact congrArg (fun n => elementWord (Config.freeByte n)) (Nat.add_assoc ..)
  | era k => exact congrArg (fun n => elementWord (Config.freeByte n)) (Nat.add_assoc ..)
  | cw k => exact congrArg (fun n => elementWord (Config.freeByte n)) (Nat.add_assoc ..)
  | poly p i =>
    refine congrArg (fun n => elementWord (Config.freeByte n)) ?_
    rw [polySlot, Loc.word]
    omega
  | exp i => exact congrArg (fun n => elementWord (Config.freeByte n)) (Nat.add_assoc ..)
  | log k => exact congrArg (fun n => elementWord (Config.freeByte n)) (Nat.add_assoc ..)
  | _ =>
    rw [hl] at hw
    exact absurd hw (by decide)

/-- No step lowers the count of free values drawn. -/
theorem step_draws_le {s t : State} (h : step s = .next t) : s.draws ≤ t.draws := by
  rcases step_next_cases h with ⟨v, i, -, -, -, rfl⟩ | ⟨-, -, rfl⟩ | ⟨a, rest, -, he⟩
  · exact Nat.le_of_eq (effectOf_same i s).draws.symm
  · exact Nat.le_refl _
  · have hread (addr : Addr) : s.draws ≤ (hostRead addr (s.turn rest)).draws := by
      cases hu : (s.turn rest).unspecifiedRead (locate (s.turn rest).config addr) with
      | true => rw [hostRead_unspecified hu]; exact Nat.le_succ s.draws
      | false => rw [hostRead_specified hu]; exact Nat.le_refl s.draws
    cases he with
    | reset => exact Nat.le_add_right s.draws 0x4000
    | read addr => exact hread addr
    | poll acts => exact hread statusAddr
    | stored =>
      rw [State.store_eq]
      exact Nat.le_refl s.draws
    | _ => exact Nat.le_refl s.draws

/-- The step in which the platform asserts reset (R230). -/
theorem step_assertReset {s : State} {rest : List Input} (h : OutsideActs s .assertReset rest) :
    step s = .next (assertReset (s.turn rest)) := by
  rw [step_outside h.1 h.2, outsideAct]

/-- Settles O51: power-on and every later reset leave `State.resetFrom` in the arrays. -/
theorem resetLeavesEveryElementUnspecified : Obligations.ResetLeavesEveryElementUnspecified := by
  unfold Obligations.ResetLeavesEveryElementUnspecified
  refine ⟨fun c => ⟨Nat.le_add_left (2 ^ 14) 0, fun a hw hres => ?_⟩, fun s rest h => ?_, fun s t => step_draws_le,
    fun s a rest h hr hb => step_read_idle h hr hb⟩
  · rw [← Nat.zero_add (a.toNat / 4)]
    exact resetFrom_value hw hres 0
  · refine ⟨_, step_assertReset h, Nat.le_refl _, fun a hw hres => ?_⟩
    have hvalue (l : Loc) (hl : l ≠ .status) : (assertReset (s.turn rest)).value l =
        (State.resetFrom s.config s.draws).value l := by
      cases l with
      | status => exact absurd rfl hl
      | _ => rfl
    have hstatus : locate s.config a ≠ .status := fun e => by
      have := locate_eq_status.1 e
      omega
    exact (hvalue _ hstatus).trans (resetFrom_value hw hres s.draws)

/-! ### The registers after a reset -/

/-- The control registers right after a reset (R40). -/
theorem resetFrom_registers (c : Config) (d : Nat) : (State.resetFrom c d).cfg = 0 ∧ (State.resetFrom c d).status = 0 ∧
    (State.resetFrom c d).errInfoWord = 0 := by
  have hcfg : (State.resetFrom c d).cfg = State.reset.cfg := rfl
  have hstatus : (State.resetFrom c d).status = State.reset.status := rfl
  have hinfo : (State.resetFrom c d).errInfoWord = State.reset.errInfoWord := rfl
  rw [hcfg, hstatus, hinfo]
  decide

/-- Settles O20: the registers `State.resetOf` sets, and CAP as a number. -/
theorem resetValuesOfTheSpec : Obligations.ResetValuesOfTheSpec := by
  unfold Obligations.ResetValuesOfTheSpec
  intro c
  obtain ⟨hcfg, hstatus, hinfo⟩ := resetFrom_registers c 0
  exact ⟨rfl, State.cap_toNat _, c.nparMax_pos, c.nparMax_le, hcfg, hstatus, hinfo, rfl, rfl, rfl, rfl, rfl, rfl, rfl⟩

/-- Settles O21: asserting reset leaves `State.resetFrom`, and in reset every access is without effect. -/
theorem resetDiscardsThePendingCommand : Obligations.ResetDiscardsThePendingCommand := by
  unfold Obligations.ResetDiscardsThePendingCommand
  intro s a rest h
  refine ⟨?assert, ?write, ?read, ?release⟩
  case assert =>
    rintro rfl
    obtain ⟨hcfg, hstatus, hinfo⟩ := resetFrom_registers s.config s.draws
    exact ⟨_, step_assertReset h, rfl, hcfg, hstatus, hinfo, rfl, rfl, rfl, rfl, rfl, rfl, rfl, rfl, rfl, rfl⟩
  case write =>
    rintro hr addr v rfl
    have hr : (s.turn rest).resetAsserted = true := hr
    rw [step_outside h.1 h.2, outsideAct, hostWrite, if_pos hr]
  case read =>
    rintro hr addr rfl
    exact step_read_unspecified h (by simp [State.unspecifiedRead, hr])
  case release =>
    rintro rfl
    rw [step_outside h.1 h.2, outsideAct]

end Sys2Proof.Machine

/-!
PROOFS. The sticky error bits over whole steps (10_state.md rule R29): what clears one, and the one kind of event that sets
each.
-/

namespace Sys2Proof.Machine

/-! ### The record of a completion -/

/-- Without a denominator 0 the corrections leave the event record alone (R185). -/
theorem forneyFold_not_warned (v : Word) {es : List Byte} {s : State} (h : ∀ e ∈ es, forneyDen s e ≠ 0) :
    (es.foldl (forneyCorrect v) s).errors = s.errors ∧ (es.foldl (forneyCorrect v) s).errInfo = s.errInfo ∧
    (es.foldl (forneyCorrect v) s).errCmd = s.errCmd := by
  induction es generalizing s with
  | nil => exact ⟨rfl, rfl, rfl⟩
  | cons f es ih =>
    obtain ⟨hf, htail⟩ := List.forall_mem_cons.1 h
    obtain ⟨_, _, hone⟩ := forneyCorrect_eq v s f
    rw [if_neg hf] at hone
    obtain ⟨herrors, hinfo, hcmd⟩ := ih (s := forneyCorrect v s f) (by simpa using htail)
    rw [List.foldl_cons, herrors, hinfo, hcmd, hone]
    exact ⟨rfl, rfl, rfl⟩

theorem forneyDen_forneyBody (v : Word) (s : State) (e : Byte) : forneyDen (forneyBody v s) e = forneyDen s e := by
  have hframe := forneyBody_eq v s
  generalize forneyBody v s = w at hframe ⊢
  rw [hframe]
  rfl

/-- A denominator at a location of s is 0. -/
def LocatedZero (s : State) : Prop := ∃ e ∈ s.locations, forneyDen s e = 0

/-- t has the event record of s. -/
def SameRecord (s t : State) : Prop := t.errors = s.errors ∧ t.errInfo = s.errInfo ∧ t.errCmd = s.errCmd

theorem locatedZero_forneyBody {v : Word} {s : State} (h : LocatedZero s) : LocatedZero (forneyBody v s) := by
  simp only [LocatedZero, forneyBody_locations, forneyDen_forneyBody]
  exact h

/-- FORNEY's body warns, with the word it is given, only where a denominator at a located error is 0 (R185, R207). -/
theorem forneyBody_record (s : State) :
    (∀ v, SameRecord s (forneyBody v s)) ∨ (LocatedZero s ∧ ∀ v, Warned s (forneyBody v s) v) := by
  by_cases hpass : (∀ e ∈ s.locations, e.toNat < s.len.toNat) ∧ s.nerr ≠ 0 ∧ s.nerr.toNat ≤ s.npar
  · obtain ⟨hrange, hpos, hle⟩ := hpass
    have hpos : 1 ≤ s.nerr.toNat := Nat.pos_of_ne_zero fun h => hpos (BitVec.eq_of_toNat_eq h)
    by_cases hzero : LocatedZero s
    · refine .inr ⟨hzero, fun v => ?_⟩
      rw [forneyBody_of_pass hrange hpos hle]
      exact forneyFold_warned v hzero
    · refine .inl fun v => ?_
      rw [forneyBody_of_pass hrange hpos hle]
      exact forneyFold_not_warned v fun e he hden => hzero ⟨e, he, hden⟩
  · refine .inl fun v => ?_
    rcases forneyBody_cases v s with ⟨-, h⟩ | ⟨-, -, h⟩ | ⟨hrange, hpos, hle, -⟩
    · rw [h]; exact ⟨rfl, rfl, rfl⟩
    · rw [h]; exact ⟨rfl, rfl, rfl⟩
    · exact absurd ⟨hrange, hpos, hle⟩ hpass

/-- A completion leaves the error bits, or sets WARN_ZDIV: GINV of 0, FORNEY or CORRECT (R207). -/
theorem effectOf_errors (i : Instr) (s : State) :
    (effectOf i s).errors = s.errors ∨ ((effectOf i s).errors = s.errors.set .zdiv ∧
      (i = .ginv 0 ∨ (i = .forney ∨ i = .correct) ∧ LocatedZero (effectOf i s))) := by
  cases i with
  | ginv a =>
    show (effectGinv a s).errors = _ ∨ ((effectGinv a s).errors = _ ∧ _)
    rcases effectGinv_cases a s with ⟨rfl, h⟩ | ⟨-, h⟩
    · rw [h]; exact .inr ⟨rfl, .inl rfl⟩
    · rw [h]; exact .inl rfl
  | forney =>
    rcases forneyBody_record s with h | ⟨hzero, h⟩
    · exact .inl (h _).1
    · exact .inr ⟨(h _).1, .inr ⟨.inl rfl, locatedZero_forneyBody hzero⟩⟩
  | correct =>
    obtain ⟨herrors, -⟩ := correctStages_record s
    refine effectCorrect_of (P := fun t => t.errors = s.errors ∨ (t.errors = s.errors.set .zdiv ∧
      (Instr.correct = .ginv 0 ∨ (Instr.correct = .forney ∨ Instr.correct = .correct) ∧ LocatedZero t)))
      (fun t sc ht => ht) (.inl rfl) ?_
    rcases forneyBody_record (correctStages s) with h | ⟨hzero, h⟩
    · exact .inl ((h _).1.trans herrors)
    · have hset := (h (encode .correct)).1
      rw [herrors] at hset
      exact .inr ⟨hset, .inr ⟨.inr rfl, locatedZero_forneyBody hzero⟩⟩
  | _ => exact .inl rfl

/-! ### The error bits over a step -/

/-- The event of each code, as the step from s to t meets it (R25, R202, R207, R208). -/
def EventIn (s t : State) : EventCode → Prop
  | .none => False
  | .busy => s.busy = true ∧ s.resetAsserted = false ∧
      ∃ addr v rest, OutsideActs s (.write addr v) rest ∧ addr.toNat / 4 ≠ 4
  | .illegal => ∃ v why, Issues s v ∧ decode v = .illegal why
  | .notInit => ∃ v i, Issues s v ∧ decode v = .legal i ∧ i ≠ .init ∧ s.initDone = false
  | .ro => ∃ v i, Issues s v ∧ decode v = .legal i ∧ s.initDone = true ∧ destination i = some GEN
  | .param => ∃ v i, Issues s v ∧ decode v = .legal i ∧ (i = .init ∨ s.initDone = true) ∧ destination i ≠ some GEN ∧
      ParamViolation i s
  | .zdiv => ∃ v i, s.engineTurn = some v ∧ decode v = .legal i ∧
      (i = .ginv 0 ∨ (i = .forney ∨ i = .correct) ∧ LocatedZero t)

/-- The act of the step is one that clears error bits: the bits of w, or by a reset all of them (R29). -/
def ClearsErrors (s t : State) : Prop :=
  (t.errors = .clear ∧ ∃ rest, OutsideActs s .assertReset rest) ∨
  ∃ addr v rest, OutsideActs s (.write addr v) rest ∧ s.resetAsserted = false ∧ addr.toNat / 4 = 4 ∧
    t.errors = s.errors.writeOneToClear v

/-- The event that rejects a command (R202): the code its issue check answers. -/
theorem eventIn_of_issueCheck {s t : State} {v : Word} {i : Instr} {c : EventCode} (hissues : Issues s v)
    (hd : decode v = .legal i) (hc : issueCheck i s = some c) : EventIn s t c := by
  rcases issueCheck_cases i s with ⟨hi, hinit, h⟩ | ⟨hinit, hdest, h⟩ | ⟨hinit, hdest, hbad, h⟩ | ⟨-, h⟩
  · cases h.symm.trans hc
    exact ⟨v, i, hissues, hd, hi, hinit⟩
  · cases h.symm.trans hc
    exact ⟨v, i, hissues, hd, hinit, hdest⟩
  · cases h.symm.trans hc
    exact ⟨v, i, hissues, hd, hinit, hdest, hbad⟩
  · exact nomatch h.symm.trans hc

theorem issueCheck_turn (i : Instr) (s : State) (rest : List Input) : issueCheck i (s.turn rest) = issueCheck i s := by
  cases i <;> rfl

/-- Everything a step can do to the error bits: leave them, clear some by an act, or set the one of an event. -/
theorem step_errors_cases {s t : State} (h : step s = .next t) :
    t.errors = s.errors ∨ ClearsErrors s t ∨ ∃ c, t.errors = s.errors.set c ∧ EventIn s t c := by
  rcases step_next_cases h with ⟨v, i, he, -, hd, rfl⟩ | ⟨-, -, rfl⟩ | ⟨a, rest, hact, heffect⟩
  · rcases effectOf_errors i s with hsame | ⟨hset, hevent⟩
    · exact .inl hsame
    · exact .inr (.inr ⟨.zdiv, hset, v, i, he, hd, hevent⟩)
  · exact .inl rfl
  · cases heffect with
    | reset => exact .inr (.inl (.inl ⟨rfl, rest, hact⟩))
    | acknowledged hr hstatus => exact .inr (.inl (.inr ⟨_, _, rest, hact, hr, hstatus, rfl⟩))
    | dropped hr hstatus hb => exact .inr (.inr ⟨.busy, rfl, hb, hr, _, _, rest, hact, hstatus⟩)
    | illegal hr hb hcmd hd => exact .inr (.inr ⟨.illegal, rfl, _, _, ⟨hb, hr, _, rest, hact, hcmd⟩, hd⟩)
    | rejected hr hb hcmd hd hc =>
      rw [issueCheck_turn] at hc
      exact .inr (.inr ⟨_, rfl, eventIn_of_issueCheck ⟨hb, hr, _, rest, hact, hcmd⟩ hd hc⟩)
    | stored =>
      rw [State.store_eq]
      exact .inl rfl
    | _ => exact .inl rfl

/-- The bits of a W1C write to the sticky bits (R25). -/
theorem ErrorBits.writeOneToClear_bits_getLsbD (e : ErrorBits) (w : Word) (b : Nat) :
    (e.writeOneToClear w).bits.getLsbD b = (e.bits.getLsbD b && !w.getLsbD (b + 8)) := by
  by_cases hb : b < 6
  · rw [ErrorBits.bits_getLsbD, ErrorBits.bits_getLsbD]
    interval_cases b <;> rfl
  · rw [BitVec.getLsbD_of_ge _ _ (by omega), BitVec.getLsbD_of_ge _ _ (by omega), Bool.false_and]

/-- A sticky bit newly 1 shows the event whose bit it is (R25, R201). -/
theorem eventIn_of_new_bit {s t : State} (h : step s = .next t) {c : EventCode} {b : Nat} (hc : b = 7 + c.bits.toNat)
    (hb : 8 ≤ b) (hs : s.status.getLsbD b = false) (ht : t.status.getLsbD b = true) : EventIn s t c := by
  rw [State.status_getLsbD_of_ge hb] at hs ht
  rcases step_errors_cases h with hsame | (⟨hclear, -⟩ | ⟨_, v, _, -, -, -, hack⟩) | ⟨c', hset, hevent⟩
  · rw [hsame, hs] at ht
    exact nomatch ht
  · rw [hclear, show ErrorBits.clear.bits = 0#6 from rfl, BitVec.getLsbD_zero] at ht
    exact nomatch ht
  · rw [hack, ErrorBits.writeOneToClear_bits_getLsbD, hs, Bool.false_and] at ht
    exact nomatch ht
  · rw [hset, ErrorBits.set_bits_getLsbD, hs, Bool.false_or, decide_eq_true_iff] at ht
    have hcode : c'.bits = c.bits := BitVec.eq_of_toNat_eq (by omega)
    have hsame : c' = c := by
      revert hcode
      cases c' <;> cases c <;> decide
    exact hsame ▸ hevent

/-- A sticky bit that was 1 and is 0 was cleared by a STATUS write that names it or by a reset (R29). -/
theorem cleared_bit {s t : State} (h : step s = .next t) {b : Nat} (hb : 8 ≤ b) (hs : s.status.getLsbD b = true)
    (ht : t.status.getLsbD b = false) : ∃ a rest, OutsideActs s a rest ∧ (a = .assertReset ∨
      s.resetAsserted = false ∧ ∃ addr v, a = .write addr v ∧ addr.toNat / 4 = 4 ∧ v.getLsbD b = true) := by
  rw [State.status_getLsbD_of_ge hb] at hs ht
  rcases step_errors_cases h with hsame | (⟨-, rest, hact⟩ | ⟨addr, v, rest, hact, hr, hw, hack⟩) | ⟨c, hset, -⟩
  · rw [hsame, hs] at ht
    exact nomatch ht
  · exact ⟨_, rest, hact, .inl rfl⟩
  · rw [hack, ErrorBits.writeOneToClear_bits_getLsbD, hs, Bool.true_and, Nat.sub_add_cancel hb] at ht
    exact ⟨_, rest, hact, .inr ⟨hr, addr, v, rfl, hw, by simpa using ht⟩⟩
  · rw [hset, ErrorBits.set_bits_getLsbD, hs, Bool.true_or] at ht
    exact nomatch ht

/-- Settles O17: what clears a bit, and bit 7 + code by its event. -/
theorem errorBitsAreSticky : Obligations.ErrorBitsAreSticky := by
  unfold Obligations.ErrorBitsAreSticky
  intro s t h
  exact ⟨fun b hb _ => cleared_bit h hb, eventIn_of_new_bit (c := .busy) h rfl (by decide),
    eventIn_of_new_bit (c := .illegal) h rfl (by decide), eventIn_of_new_bit (c := .notInit) h rfl (by decide),
    eventIn_of_new_bit (c := .ro) h rfl (by decide), eventIn_of_new_bit (c := .param) h rfl (by decide),
    eventIn_of_new_bit (c := .zdiv) h rfl (by decide)⟩

end Sys2Proof.Machine

/-!
PROOFS. Progress and independence (30_encoding.md rule R91, 20_memory.md rules R70 and R73, 70_reset_and_hazards.md rule
R241): a poll ends, and what the Host does while a command is pending does not reach the command.
-/

namespace Sys2Proof.Machine

/-! ### The poll -/

/-- STATUS shows BUSY in bit 0 (R26). -/
theorem State.status_bit_zero (s : State) : s.status.getLsbD 0 = s.busy := by
  rw [State.status_getLsbD]
  rfl

/-- Outside reset a poll reads STATUS as it stands (R70). -/
theorem State.readValue_status {s : State} (hr : s.resetAsserted = false) : s.readValue statusAddr = s.status := by
  have hl : locate s.config statusAddr = .status := locate_eq_status.2 (by decide)
  rw [State.readValue, hl, State.unspecifiedRead_of_readableWhileBusy hr rfl]
  rfl

/-- The value a poll reads as its act finds the state: STATUS, whose bit 0 is BUSY. -/
theorem State.readValue_status_turn {s : State} (hr : s.resetAsserted = false) (rest : List Input) :
    (s.turn rest).readValue statusAddr = s.status ∧ ((s.turn rest).readValue statusAddr).getLsbD 0 = s.busy := by
  have hvalue : (s.turn rest).readValue statusAddr = s.status := State.readValue_status (s := s.turn rest) hr
  exact ⟨hvalue, by rw [hvalue, State.status_bit_zero]⟩

/-- The step of a poll that reads BUSY = 1: the poll stays next (R91). -/
theorem step_poll_busy {s : State} {rest : List Input} (h : OutsideActs s .poll rest) (hr : s.resetAsserted = false)
    (hb : s.busy = true) : step s = .next { hostRead statusAddr (s.turn rest) with inputs := .poll :: rest } := by
  have hbit := (State.readValue_status_turn hr rest).2.trans hb
  rw [step_outside h.1 h.2, outsideAct, if_pos hbit]
  rfl

/-- The step of a poll that reads BUSY = 0: the poll is over (R91). -/
theorem step_poll_idle {s : State} {rest : List Input} (h : OutsideActs s .poll rest) (hr : s.resetAsserted = false)
    (hb : s.busy = false) : step s = .next (hostRead statusAddr (s.turn rest)) := by
  have hbit : ¬((s.turn rest).readValue statusAddr).getLsbD 0 = true := by
    rw [(State.readValue_status_turn hr rest).2, hb]
    decide
  rw [step_outside h.1 h.2, outsideAct, if_neg hbit]

/-- From the state a completion leaves, a poll that comes next is over in one step (R91). -/
theorem poll_after_completion {s : State} {v : Word} {i : Instr} {rest : List Input} (hin : s.inputs = .poll :: rest)
    (hr : s.resetAsserted = false) (he : s.engineTurn = some v) (hd : decode v = .legal i) :
    ∃ t, Sys2Proof.core.run 2 s = .next t ∧ t.inputs = rest ∧ t.pending = none ∧
      ∃ x rs, t.reads = (statusAddr, x) :: rs ∧ x.getLsbD 0 = false := by
  have hsame := effectOf_same i s
  have hact : OutsideActs (effectOf i s).complete .poll rest :=
    ⟨State.engineTurn_of_idle rfl, hsame.inputs.trans hin⟩
  have hr : (effectOf i s).complete.resetAsserted = false := hsame.resetAsserted.trans hr
  refine ⟨hostRead statusAddr ((effectOf i s).complete.turn rest), ?_, rfl, rfl, _, _, rfl, ?_⟩
  · rw [run_succ_of_next (step_completes he hd), run_succ_of_next (step_poll_idle hact hr rfl)]
    rfl
  · exact (State.readValue_status_turn hr rest).2

/-- Settles O18, by induction on the acts the schedule still lets pass: each such poll reads BUSY = 1 and stays next. -/
theorem pollEndsWithTheCommandComplete : Obligations.PollEndsWithTheCommandComplete := by
  unfold Obligations.PollEndsWithTheCommandComplete
  intro s v i rest hin hr hp hd
  generalize hw : s.engineWait = w
  induction w generalizing s with
  | zero =>
    have he : s.engineTurn = some v := State.engineTurn_eq_some.2 ⟨hp, .inl hw⟩
    obtain ⟨t, hrun, hinputs, hpending, x, rs, hreads, hbit⟩ := poll_after_completion hin hr he hd
    exact ⟨2, t, x, rs, by omega, hrun, hinputs, hpending, hreads, hbit⟩
  | succ w ih =>
    have hact : OutsideActs s .poll rest :=
      ⟨State.engineTurn_eq_none.2 (.inr ⟨by omega, by rw [hin]; exact List.cons_ne_nil _ _⟩), hin⟩
    have hstep := step_poll_busy hact hr ((State.busy_iff s).2 ⟨v, hp⟩)
    have hwait : s.engineWait - 1 = w := by omega
    obtain ⟨n, t, x, rs, hn, hrun, hrest⟩ := ih { hostRead statusAddr (s.turn rest) with inputs := .poll :: rest }
      rfl hr hp hwait
    exact ⟨n + 1, t, x, rs, by omega, by rw [run_succ_of_next hstep, hrun], hrest⟩

/-! ### Independence -/

/-- s with other error bits, another record of the outside world and another reset level: all that the Host and the
platform change while a command is pending (R70, R73). -/
def State.withOutside (s : State) (errors : ErrorBits) (o : State) : State :=
  { s with errors := errors, inputs := o.inputs, reads := o.reads, draws := o.draws, resetAsserted := o.resetAsserted,
           engineWait := o.engineWait }

/-- f does not look at what the outside world changes, but for the error bits, which it may set. -/
def IgnoresOutside (f : State → State) : Prop :=
  ∀ s e o, ∃ e', f (s.withOutside e o) = (f s).withOutside e' o

theorem IgnoresOutside.comp {f g : State → State} (hf : IgnoresOutside f) (hg : IgnoresOutside g) :
    IgnoresOutside (fun s => f (g s)) := by
  intro s e o
  obtain ⟨e1, h1⟩ := hg s e o
  obtain ⟨e2, h2⟩ := hf (g s) e1 o
  exact ⟨e2, (congrArg f h1).trans h2⟩

theorem ignoresOutside_effectGinv (a : Byte) : IgnoresOutside (effectGinv a) := by
  intro s e o
  by_cases ha : a = 0
  · exact ⟨e.set .zdiv, by rw [effectGinv, effectGinv, if_pos ha, if_pos ha]; rfl⟩
  · exact ⟨e, by rw [effectGinv, effectGinv, if_neg ha, if_neg ha]; rfl⟩

theorem ignoresOutside_forneyCorrect (v : Word) (i : Byte) : IgnoresOutside (fun s => forneyCorrect v s i) := by
  intro s e o
  have hden : forneyDen (s.withOutside e o) i = forneyDen s i := rfl
  by_cases hzero : forneyDen s i = 0
  · exact ⟨e.set .zdiv, by simp only [forneyCorrect]; rw [if_pos (hden.trans hzero), if_pos hzero]; rfl⟩
  · exact ⟨e, by simp only [forneyCorrect]; rw [if_neg (by rwa [hden]), if_neg hzero]; rfl⟩

theorem ignoresOutside_forneyFold (v : Word) (es : List Byte) : IgnoresOutside (fun s => es.foldl (forneyCorrect v) s) := by
  induction es with
  | nil => exact fun s e o => ⟨e, rfl⟩
  | cons i es ih => exact ih.comp (ignoresOutside_forneyCorrect v i)

theorem ignoresOutside_forneyBody (v : Word) : IgnoresOutside (forneyBody v) := by
  intro s e o
  unfold forneyBody
  rw [show (s.withOutside e o).locations = s.locations from rfl, show (s.withOutside e o).len = s.len from rfl,
    show (s.withOutside e o).nerr = s.nerr from rfl, show (s.withOutside e o).npar = s.npar from rfl]
  split
  · exact ⟨e, rfl⟩
  · split
    · exact ⟨e, rfl⟩
    · obtain ⟨e', h⟩ := ignoresOutside_forneyFold v s.locations s e o
      exact ⟨e', congrArg (fun t : State => { t with outcome := .corrected, failCause := .none }) h⟩

theorem ignoresOutside_setPhase (p : Phase) : IgnoresOutside (fun s => s.setPhase p) := fun _ e _ => ⟨e, rfl⟩

theorem ignoresOutside_effectSynd : IgnoresOutside effectSynd := fun _ e _ => ⟨e, rfl⟩
theorem ignoresOutside_effectGamma : IgnoresOutside effectGamma := fun _ e _ => ⟨e, rfl⟩
theorem ignoresOutside_effectBmsolve : IgnoresOutside effectBmsolve := fun _ e _ => ⟨e, rfl⟩
theorem ignoresOutside_effectChien : IgnoresOutside effectChien := fun _ e _ => ⟨e, rfl⟩

theorem ignoresOutside_correctEnd : IgnoresOutside correctEnd := fun _ e _ => ⟨e, rfl⟩
theorem ignoresOutside_correctClean : IgnoresOutside correctClean := fun _ e _ => ⟨e, rfl⟩

theorem ignoresOutside_correctDirty : IgnoresOutside correctDirty :=
  ignoresOutside_correctEnd.comp ((ignoresOutside_forneyBody _).comp ((ignoresOutside_setPhase .rootsFound).comp
    (ignoresOutside_effectChien.comp ((ignoresOutside_setPhase .locatorSolved).comp
      (ignoresOutside_effectBmsolve.comp ignoresOutside_effectGamma)))))

theorem ignoresOutside_correctAfterSynd : IgnoresOutside correctAfterSynd := by
  intro s e o
  have hclean : (s.withOutside e o).clean = s.clean := rfl
  rw [correctAfterSynd, correctAfterSynd, hclean]
  split
  · exact ignoresOutside_correctClean s e o
  · exact ignoresOutside_correctDirty s e o

theorem ignoresOutside_effectCorrect : IgnoresOutside effectCorrect :=
  ignoresOutside_correctAfterSynd.comp ((ignoresOutside_setPhase .syndromeComputed).comp
    (ignoresOutside_effectSynd.comp (ignoresOutside_setPhase .start)))

/-- No command looks at what the Host changes while it is pending (R73). -/
theorem ignoresOutside_effectOf (i : Instr) : IgnoresOutside (effectOf i) := by
  cases i with
  | ginv a => exact ignoresOutside_effectGinv a
  | forney => exact ignoresOutside_forneyBody _
  | correct => exact ignoresOutside_effectCorrect
  | _ => exact fun _ e _ => ⟨e, rfl⟩

/-- An act in a busy state, but a reset, changes no more than `State.withOutside` lists (R70). -/
theorem OutsideEffect.eq_withOutside {s t : State} {a : Input} (h : OutsideEffect s a t) (hb : s.busy = true)
    (ha : a ≠ .assertReset) : ∃ e, t = s.withOutside e t := by
  have hidle {p : Prop} (hi : s.busy = false) : p := nomatch hi.symm.trans hb
  cases h with
  | reset => exact absurd rfl ha
  | illegal _ hi => exact hidle hi
  | rejected _ hi => exact hidle hi
  | accepted _ hi => exact hidle hi
  | stored _ hi => exact hidle hi
  | _ => exact ⟨_, rfl⟩

/-- Settles O19: the act changes only what no command's effect looks at. -/
theorem busyActsDoNotReachTheCommand : Obligations.BusyActsDoNotReachTheCommand := by
  unfold Obligations.BusyActsDoNotReachTheCommand
  intro s t a rest hact hb ha hstep
  have heffect : OutsideEffect (s.turn rest) a t :=
    outsideEffect_of_next ((step_outside hact.1 hact.2).symm.trans hstep)
  obtain ⟨e, ht⟩ := heffect.eq_withOutside hb ha
  have ht : t = s.withOutside e t := ht
  have hpending : t.pending = s.pending := by rw [ht]; rfl
  refine ⟨hpending, fun i u hu => ?_⟩
  cases (exec_busy hb).symm.trans hu
  obtain ⟨e', he⟩ := ignoresOutside_effectOf i s e t
  refine ⟨_, exec_busy (by rw [State.busy, hpending]; exact hb), ?_⟩
  rw [ht, he]
  rfl

end Sys2Proof.Machine

/-!
PROOFS. The results of INIT, GMUL, GINV and the polynomial commands (40_field.md sections 2 and 3, 41_polynomial.md).
-/

namespace Sys2Proof.Machine

/-! ### INIT -/

/-- The register file INIT leaves (R109): GEN is the generator, and every other element 0. -/
theorem effectInit_polys_read (s : State) (k : Nat) : (effectInit s).polys.read k =
    if polySlot GEN.toNat 0 ≤ k ∧ k < polySlot GEN.toNat 0 + s.maxdeg then
      coef (generator builtTables s.maxdeg s.nparReq.toNat) (k - polySlot GEN.toNat 0) else 0 := by
  have hpolys : (effectInit s).polys =
      Memory.ofBytes (polySlot GEN.toNat 0) (generator builtTables s.maxdeg s.nparReq.toNat) := rfl
  rw [hpolys, Memory.read_ofBytes, length_generator]
  rfl

/-- Settles O25: INIT's effect, and the register file it leaves read by register. -/
theorem initCompletes : Obligations.InitCompletes := by
  unfold Obligations.InitCompletes
  intro s hb
  refine ⟨_, exec_busy hb, rfl, fun p hp i hi => ?_, fun i hi => ?_, fun k => rfl⟩
  · have hne : p.toNat ≠ GEN.toNat := fun e => hp (BitVec.eq_of_toNat_eq e)
    have hle := s.maxdeg_le
    refine (effectInit_polys_read s (512 * p.toNat + i)).trans (if_neg ?_)
    rw [polySlot]
    omega
  · refine (effectInit_polys_read s (512 * GEN.toNat + i)).trans ?_
    rw [if_pos (by rw [polySlot]; omega), polySlot, Nat.add_zero, Nat.add_sub_cancel_left]

/-! ### GMUL and GINV -/

/-- Settles O28: gf_mul over the built tables is field multiplication. -/
theorem gmulIsPolynomialMultiplication : Obligations.GmulIsPolynomialMultiplication := by
  unfold Obligations.GmulIsPolynomialMultiplication
  intro s a b hb ht
  rw [exec_busy hb, effectOf, effectGmul, ht, gfMul_built]
  rfl

/-- Settles O29: gf_inv over the built tables is the inverse, and 1 for 0. -/
theorem ginvIsTheFieldInverse : Obligations.GinvIsTheFieldInverse := by
  unfold Obligations.GinvIsTheFieldInverse
  intro s a hb ht
  refine ⟨fun ha => ⟨gfInv builtTables a, fieldMul_gfInv_built ha, ?_⟩, ?_⟩
  · have hresult : gfInv s.tables a = gfInv builtTables a := by rw [ht]
    rw [exec_busy hb, effectOf, effectGinv, if_neg ha, hresult]
    generalize gfInv builtTables a = r
    rfl
  · rintro rfl
    exact exec_ginv_zero hb ht

/-! ### The polynomial commands -/

/-- A command that writes the register value v to P[pd] completes with the coefficients of v there. -/
theorem exec_writesRegister {i : Instr} {s : State} {pd : PIdx} {v : Poly} {f : Nat → Byte} (hb : s.busy = true)
    (hwf : s.polys.wf) (he : effectOf i s = s.setPoly pd v) (hv : v.length = s.maxdeg)
    (hf : ∀ j < s.maxdeg, coef v j = f j) : ∃ t, exec i s = .next t ∧ WritesRegister s t pd f :=
  ⟨_, exec_busy hb, he ▸ writesRegister_setPoly hwf pd hv hf⟩

/-- Settles O31: the coefficients of each value written. -/
theorem zeroCopyAddShiftWriteTheirResult : Obligations.ZeroCopyAddShiftWriteTheirResult := by
  unfold Obligations.ZeroCopyAddShiftWriteTheirResult
  intro s pd pa pb hb hwf
  refine ⟨?zero, ?copy, ?add, ?shift⟩
  case zero => exact exec_writesRegister hb hwf rfl (length_polyZero _) fun i _ => coef_polyZero _ i
  case copy =>
    exact exec_writesRegister hb hwf rfl (State.length_poly s pa) fun i hi => (s.coefAt_eq_coef pa hi).symm
  case add =>
    refine exec_writesRegister hb hwf rfl (length_polyAdd ..) fun i hi => ?_
    rw [coef_polyAdd, if_pos hi, s.coefAt_eq_coef pa hi, s.coefAt_eq_coef pb hi]
  case shift =>
    refine exec_writesRegister hb hwf rfl (length_polyShift ..) fun i hi => ?_
    rw [coef_polyShift, if_pos hi, s.coefAt_eq_coef pa (by omega)]

/-- Settles O32: the products over the built tables, coefficient by coefficient. -/
theorem scaleAndMultiplyWriteTheirResult : Obligations.ScaleAndMultiplyWriteTheirResult := by
  unfold Obligations.ScaleAndMultiplyWriteTheirResult
  intro s pd pa pb k hb hwf ht
  refine ⟨?scale, ?multiply⟩
  case scale =>
    refine exec_writesRegister hb hwf rfl (length_polyScale ..) fun i hi => ?_
    rw [coef_polyScale, if_pos hi, ht, gfMul_built, s.coefAt_eq_coef pa hi]
  case multiply =>
    refine exec_writesRegister hb hwf rfl (length_polyMul ..) fun m hm => ?_
    rw [coef_polyMul, if_pos hm, ht]
    refine xorSum_congr fun i hi => ?_
    rw [gfMul_built, s.coefAt_eq_coef pa (by omega), s.coefAt_eq_coef pb (by omega)]

/-! ### GAMMA -/

/-- Coefficient i of the locator of the first k listed locations (R161). -/
def State.gammaAfter (s : State) (k i : Nat) : Byte :=
  coef (erasureLocator builtTables s.maxdeg ((List.range k).map s.era.read)) i

theorem State.gammaAfter_succ (s : State) {k i : Nat} (hi : i < s.maxdeg) : s.gammaAfter (k + 1) i =
    s.gammaAfter k i ^^^ (if i = 0 then 0 else fieldMul (fieldPow (s.era.read k).toNat) (s.gammaAfter k (i - 1))) := by
  simp only [State.gammaAfter, List.range_succ, List.map_append, List.map_cons, List.map_nil]
  cases i with
  | zero => rw [coef_erasureLocator_concat_zero hi, if_pos rfl, byte_xor_zero]
  | succ i => rw [coef_erasureLocator_concat_succ hi, if_neg (Nat.succ_ne_zero i), Nat.add_sub_cancel]

/-- Settles O36: the locator takes in one listed location after another. -/
theorem gammaMultipliesTheFactors : Obligations.GammaMultipliesTheFactors := by
  unfold Obligations.GammaMultipliesTheFactors
  intro s hb hwf ht
  obtain ⟨t, hexec, hwrites⟩ := exec_writesRegister (i := .gamma) (f := s.gammaAfter s.ecnt.toNat) hb hwf rfl
    (length_erasureLocator ..) fun i _ => by rw [ht, State.erasures_eq_map]; rfl
  refine ⟨t, hexec, s.gammaAfter, fun i hi => ?_, fun k _ i hi => s.gammaAfter_succ hi, hwrites⟩
  have hone : s.gammaAfter 0 i = coef (polyConst s.maxdeg 0x01) i := rfl
  rw [hone, coef_polyConst]
  simp [hi]

end Sys2Proof.Machine

/-!
PROOFS. The encoder's shift register and the syndromes as values of the codeword (42_encoder.md rules R140 to R152), and
CORRECT on a codeword (43_decoder.md rule R192).
-/

namespace Sys2Proof.Machine

/-- One more element of a range of an array. -/
theorem Memory.bytes_succ (m : Memory) (k n : Nat) : m.bytes k (n + 1) = m.bytes k n ++ [m.read (k + n)] := by
  simp [Memory.bytes, List.range_succ]

/-! ### ENCODE -/

/-- Cell j of the shift register after the first τ message bytes (R140). -/
def State.lfsrAfter (s : State) (τ j : Nat) : Byte :=
  coef ((s.cw.bytes 0 τ).foldl (lfsrStep s.tables (s.poly GEN) s.npar) ((List.range s.npar).map fun _ => 0)) j

theorem State.lfsrAfter_zero (s : State) (j : Nat) : s.lfsrAfter 0 j = 0 := by
  show coef ((List.range s.npar).map fun _ => 0) j = 0
  rw [coef_map_range, ite_self]

/-- NPAR is at most half of MAXDEG (R11). -/
theorem State.npar_lt_maxdeg {s : State} (h : s.npar ≤ s.config.nparMax) : s.npar < s.maxdeg := by
  have := s.config.nparMax_pos
  rw [State.maxdeg, Config.maxdeg_eq]
  omega

/-- One message byte through the shift register (R140). -/
theorem State.lfsrAfter_succ {s : State} (ht : s.tables = builtTables) (hn : s.npar ≤ s.config.nparMax) (τ : Nat) {j : Nat}
    (hj : j < s.npar) : s.lfsrAfter (τ + 1) j = (if j = 0 then 0 else s.lfsrAfter τ (j - 1)) ^^^
      fieldMul (s.coefAt GEN j) (s.cw.read τ ^^^ s.lfsrAfter τ (s.npar - 1)) := by
  have hdeg : j < s.maxdeg := Nat.lt_trans hj (State.npar_lt_maxdeg hn)
  rw [State.lfsrAfter, Memory.bytes_succ, List.foldl_append, List.foldl_cons, List.foldl_nil, lfsrStep, coef_map_range,
    if_pos hj, ht, gfMul_built, s.coefAt_eq_coef GEN hdeg, Nat.zero_add, ← ht]
  rfl

/-- The parity bytes ENCODE writes are the final cells, the top one first (R140). -/
theorem effectEncode_cw_read {s : State} (hwf : s.cw.wf) {i : Nat} (hi : i < s.npar) :
    (effectEncode s).cw.read (s.len.toNat + i) = s.lfsrAfter s.len.toNat (s.npar - 1 - i) := by
  have hcw : (effectEncode s).cw =
    s.cw.writeAll s.len.toNat ((List.range s.npar).map fun i => (lfsrCells s).getD (s.npar - 1 - i) 0) := rfl
  have hcoef := coef_map_range s.npar (fun i => (lfsrCells s).getD (s.npar - 1 - i) 0) i
  rw [if_pos hi] at hcoef
  rw [hcw, Memory.read_writeAll hwf, List.length_map, List.length_range, if_pos (by omega), Nat.add_sub_cancel_left]
  exact hcoef

/-- Settles O33: the cells follow the recurrence of R140, and the last ones are written after the message. -/
theorem encodeWritesTheLfsrParity : Obligations.EncodeWritesTheLfsrParity := by
  unfold Obligations.EncodeWritesTheLfsrParity
  intro s hb hwf ht hn
  refine ⟨_, exec_busy hb, rfl, ⟨s.lfsrAfter, fun j _ => s.lfsrAfter_zero j, fun τ _ j hj => State.lfsrAfter_succ ht hn τ hj,
    fun i hi => effectEncode_cw_read hwf hi⟩, (writesOnly_encode hwf).2⟩

/-! ### SYND -/

/-- One more byte of a codeword: the value so far moves up one degree (R18, R150). -/
theorem codewordAt_succ (c : Nat → Byte) (n j : Nat) :
    codewordAt c (n + 1) j = c n ^^^ fieldMul (fieldPow (j + 1)) (codewordAt c n j) := by
  have hlast : fieldPow ((j + 1) * (n + 1 - 1 - n)) = 1 := by rw [show n + 1 - 1 - n = 0 by omega, Nat.mul_zero]; rfl
  rw [codewordAt, xorSum_succ, hlast, fieldMul_one_right, byte_xor_comm, codewordAt, fieldMul_xorSum]
  congr 1
  refine xorSum_congr fun τ hτ => ?_
  have hexp : (j + 1) * (n + 1 - 1 - τ) = (j + 1) + (j + 1) * (n - 1 - τ) := by
    rw [show n + 1 - 1 - τ = (n - 1 - τ) + 1 by omega, Nat.mul_succ, Nat.add_comm]
  rw [hexp, ← fieldMul_fieldPow, ← fieldMul_assoc, ← fieldMul_assoc, fieldMul_comm (c τ)]

/-- Horner's rule over the first n bytes gives the value of the codeword (R150, R151). -/
theorem horner_eq_codewordAt (m : Memory) {j : Nat} (hj : j + 1 < 512) (n : Nat) :
    (m.bytes 0 n).foldl (fun acc c => c ^^^ gfMul builtTables (builtTables.expAt (j + 1)) acc) 0 =
      codewordAt m.read n j := by
  induction n with
  | zero => rfl
  | succ n ih =>
    rw [Memory.bytes_succ, List.foldl_append, ih, List.foldl_cons, List.foldl_nil, codewordAt_succ, gfMul_built,
      builtTables_expAt hj, Nat.zero_add]

/-- Syndrome j is the codeword at α^(j+1) (R151). -/
theorem syndrome_eq_codewordAt {s : State} (ht : s.tables = builtTables) (hn : s.npar ≤ s.config.nparMax) {j : Nat}
    (hj : j < s.npar) : syndrome s j = codewordAt s.cw.read s.len.toNat j := by
  have := s.config.nparMax_le
  rw [syndrome, ht]
  exact horner_eq_codewordAt s.cw (by omega) _

/-- The register SYN after SYND (R150). -/
theorem coef_effectSynd {s : State} (hwf : s.polys.wf) {j : Nat} (hj : j < s.maxdeg) :
    (effectSynd s).coefAt SYN j = if j < s.npar then syndrome s j else 0 := by
  have hcoef := State.coef_setPoly hwf SYN SYN (length_syndromes s) j
  rw [if_pos rfl, coef_map_range, if_pos hj] at hcoef
  exact (State.coefAt_eq_coef (effectSynd s) SYN hj).trans hcoef

/-- CLEAN is 1 exactly when the buffer is 0 at α^1 to α^NPAR (R152). -/
theorem effectSynd_clean_iff {s : State} (ht : s.tables = builtTables) (hn : s.npar ≤ s.config.nparMax) :
    (effectSynd s).clean = true ↔ ∀ j < s.npar, codewordAt s.cw.read s.len.toNat j = 0 := by
  have hclean : (effectSynd s).clean = (List.range s.npar).all fun j => syndrome s j = 0 := rfl
  rw [hclean, List.all_eq_true]
  simp only [List.mem_range, decide_eq_true_eq]
  exact forall₂_congr fun j hj => by rw [syndrome_eq_codewordAt ht hn hj]

/-- Settles O34: Horner's rule gives the value of the codeword at each α^(j+1). -/
theorem syndEvaluatesTheCodeword : Obligations.SyndEvaluatesTheCodeword := by
  unfold Obligations.SyndEvaluatesTheCodeword
  intro s hb hwf ht hn
  have hlt := State.npar_lt_maxdeg hn
  refine ⟨_, exec_busy hb, rfl, onlyRegisters_effectSynd hwf, fun j hj => ?_, fun j hj hjn => ?_, effectSynd_clean_iff ht hn⟩
  · exact (coef_effectSynd hwf (Nat.lt_trans hj hlt)).trans ((if_pos hj).trans (syndrome_eq_codewordAt ht hn hj))
  · exact (coef_effectSynd hwf hjn).trans (if_neg (Nat.not_lt.2 hj))

/-! ### CORRECT on a codeword -/

/-- CORRECT whose SYND phase finds the buffer clean, the scratch included (R190, R191). -/
theorem effectCorrect_eq_of_clean {s : State} (h : (effectSynd s).clean = true) : effectCorrect s =
    { effectSynd s with outcome := .doneClean, failCause := .none,
                        scratch := { s.scratch with phase := .doneClean } } := by
  have hclean : ((effectSynd (s.setPhase .start)).setPhase .syndromeComputed).clean = true := h
  rw [effectCorrect, correctAfterSynd, if_pos hclean]
  rfl

/-- Settles O44: no syndrome, so CORRECT ends after its SYND phase. -/
theorem correctLeavesACleanCodeword : Obligations.CorrectLeavesACleanCodeword := by
  unfold Obligations.CorrectLeavesACleanCodeword
  intro s hb hwf ht hn hzero
  have hclean := (effectSynd_clean_iff ht hn).2 hzero
  have hsyn (j : Nat) (hj : j < s.maxdeg) : (effectSynd s).coefAt SYN j = 0 := by
    rw [coef_effectSynd hwf hj]
    split
    · next hjn => rw [syndrome_eq_codewordAt ht hn hjn, hzero j hjn]
    · rfl
  refine ⟨_, exec_busy hb, ?_⟩
  rw [effectOf, effectCorrect_eq_of_clean hclean]
  have hregs := onlyRegisters_effectSynd hwf
  have hframe := effectSynd_eq s
  generalize effectSynd s = w at hclean hsyn hregs hframe ⊢
  refine ⟨?_, hregs, hsyn⟩
  rw [hframe, hclean]
  rfl

end Sys2Proof.Machine

/-!
PROOFS. What CHIEN finds (43_decoder.md rule R180), FORNEY's corrections in full (rule R185), and CORRECT as the stages one
after another (rule R190).
-/

namespace Sys2Proof.Machine

/-! ### CHIEN -/

/-- The locations found are those of the roots (R180). -/
theorem mem_rootLocations {t : Tables} {n : Nat} {p : Poly} {e : Byte} : e ∈ rootLocations t n p ↔
    ∃ r, 1 ≤ r ∧ r ≤ 255 ∧ polyEval t n p r = 0 ∧ e.toNat = 255 - r := by
  simp only [rootLocations, List.mem_map, List.mem_filter, List.mem_range, decide_eq_true_eq]
  constructor
  · rintro ⟨r, ⟨⟨i, hi, rfl⟩, hroot⟩, rfl⟩
    refine ⟨i + 1, by omega, by omega, hroot, ?_⟩
    rw [BitVec.toNat_ofNat]
    omega
  · rintro ⟨r, h1, h255, hroot, he⟩
    refine ⟨r, ⟨⟨r - 1, by omega, by omega⟩, hroot⟩, BitVec.eq_of_toNat_eq ?_⟩
    rw [BitVec.toNat_ofNat]
    omega

/-- The locations are found in strictly decreasing order (R180). -/
theorem rootLocations_decreasing (t : Tables) (n : Nat) (p : Poly) :
    (rootLocations t n p).Pairwise fun e f => f.toNat < e.toNat := by
  have hpoints : ((List.range 255).map fun i => i + 1).Pairwise fun r q => r < q ∧ q ≤ 255 := by
    rw [List.pairwise_map]
    refine (List.pairwise_lt_range (n := 255)).imp_of_mem fun {a b} _ hb hab => ?_
    have := List.mem_range.1 hb
    omega
  rw [rootLocations, List.pairwise_map]
  refine (hpoints.filter _).imp fun {r q} h => ?_
  rw [BitVec.toNat_ofNat, BitVec.toNat_ofNat]
  omega

/-- NERR counts the locations CHIEN finds (R180). -/
theorem effectChien_nerr (s : State) :
    (effectChien s).nerr.toNat = (rootLocations s.tables s.maxdeg (s.poly LAMBDA)).length := by
  have hlen := length_rootLocations s.tables s.maxdeg (s.poly LAMBDA)
  rw [(effectChien_located s).1, BitVec.toNat_ofNat, Nat.mod_eq_of_lt (by omega)]

/-- ERRLOC holds the locations CHIEN finds, and 0 after them (R35, R180). -/
theorem effectChien_errloc_read (s : State) (k : Nat) :
    (effectChien s).errloc.read k = (rootLocations s.tables s.maxdeg (s.poly LAMBDA)).getD k 0 := by
  rw [(effectChien_located s).2, Memory.read_ofBytes, Nat.zero_add, Nat.sub_zero]
  split
  · rfl
  · rw [List.getD_eq_default]
    omega

/-- The located errors of CHIEN over the built tables: the roots of LAMBDA, read backwards (R180). -/
theorem effectChien_root_iff {s : State} (ht : s.tables = builtTables) {r : Nat} (h1 : 1 ≤ r) (h255 : r ≤ 255) :
    s.evalAt LAMBDA r = 0 ↔ ∃ k < (effectChien s).nerr.toNat, ((effectChien s).errloc.read k).toNat = 255 - r := by
  have hmem : (∃ k < (effectChien s).nerr.toNat, ((effectChien s).errloc.read k).toNat = 255 - r) ↔
      ∃ e ∈ (effectChien s).locations, e.toNat = 255 - r := by
    simp only [State.mem_locations, exists_exists_and_eq_and]
  rw [hmem, effectChien_locations, State.evalAt_eq_polyEval, ← ht]
  simp only [mem_rootLocations]
  constructor
  · intro hroot
    exact ⟨BitVec.ofNat 8 (255 - r), ⟨r, h1, h255, hroot, by rw [BitVec.toNat_ofNat]; omega⟩, by
      rw [BitVec.toNat_ofNat]; omega⟩
  · rintro ⟨e, ⟨q, hq1, hq255, hroot, he⟩, her⟩
    rwa [show r = q by omega]

/-- Settles O41: the located errors are the roots in the order of the search. -/
theorem chienFindsExactlyTheRoots : Obligations.ChienFindsExactlyTheRoots := by
  unfold Obligations.ChienFindsExactlyTheRoots
  intro s hb ht
  have hlegal := locationsLegal_effectChien s
  have hread := effectChien_errloc_read s
  have hnerr := effectChien_nerr s
  have hdecreasing := rootLocations_decreasing s.tables s.maxdeg (s.poly LAMBDA)
  generalize rootLocations s.tables s.maxdeg (s.poly LAMBDA) = L at hread hnerr hdecreasing
  refine ⟨_, exec_busy hb, ?frame, hlegal.count, fun r h1 h255 => effectChien_root_iff ht h1 h255, fun j k hjk hk => ?order,
    fun k hk => ?range, fun k hk => ?rest⟩
  case frame =>
    have hframe := effectChien_eq s
    rw [effectOf]
    generalize effectChien s = w at hframe ⊢
    rw [hframe]
    rfl
  case order =>
    have hk : k < L.length := hnerr ▸ hk
    have hj : j < L.length := Nat.lt_trans hjk hk
    show ((effectChien s).errloc.read k).toNat < ((effectChien s).errloc.read j).toNat
    rw [hread, hread, List.getD_eq_getElem _ _ hk, List.getD_eq_getElem _ _ hj]
    exact List.pairwise_iff_getElem.1 hdecreasing j k hj hk hjk
  case range => exact hlegal.range _ (State.mem_locations.2 ⟨k, hk, rfl⟩)
  case rest =>
    have hk : L.length ≤ k := hnerr ▸ hk
    show (effectChien s).errloc.read k = 0
    rw [hread, List.getD_eq_default _ _ hk]

/-! ### FORNEY -/

/-- With a denominator that is not 0 the magnitude is the quotient (R185). -/
theorem fieldMul_forneyMagnitude {s : State} (ht : s.tables = builtTables) {e : Byte}
    (hden : s.derivAt LAMBDA (255 - e.toNat) ≠ 0) :
    fieldMul (forneyMagnitude s e) (s.derivAt LAMBDA (255 - e.toNat)) = s.evalAt OMEGA (255 - e.toNat) := by
  rw [forneyMagnitude, forneyDen_built ht, forneyNum_built ht, ht, gfMul_built, fieldMul_assoc,
    fieldMul_comm (gfInv _ _), fieldMul_gfInv_built hden, fieldMul_one_right]

/-- Of the scratch the corrections write the two Forney accumulators (R37). -/
theorem forneyFold_scratchWritten (v : Word) (es : List Byte) (s : State) : (es.foldl (forneyCorrect v) s).scratch =
    { s.scratch with num := (es.foldl (forneyCorrect v) s).scratch.num,
                     den := (es.foldl (forneyCorrect v) s).scratch.den } := by
  induction es generalizing s with
  | nil => rfl
  | cons e es ih =>
    have hone : (forneyCorrect v s e).scratch = { s.scratch with num := forneyNum s e, den := forneyDen s e } := rfl
    rw [List.foldl_cons, ih, hone]

/-- The state FORNEY's body leaves where both checks pass (R185). -/
theorem forneyBody_frame_of_pass {s : State} (hrange : ∀ e ∈ s.locations, e.toNat < s.len.toNat)
    (hpos : 1 ≤ s.nerr.toNat) (hle : s.nerr.toNat ≤ s.npar) (v : Word) : forneyBody v s =
      { s with cw := (forneyBody v s).cw, outcome := .corrected, failCause := .none, errors := (forneyBody v s).errors,
               errInfo := (forneyBody v s).errInfo, errCmd := (forneyBody v s).errCmd,
               scratch := { s.scratch with num := (forneyBody v s).scratch.num,
                                           den := (forneyBody v s).scratch.den } } := by
  have hscratch := forneyFold_scratchWritten v s.locations s
  obtain ⟨_, _, _, _, _, hfold, -⟩ := forneyFold_frame v s.locations s
  rw [forneyBody_of_pass hrange hpos hle]
  generalize s.locations.foldl (forneyCorrect v) s = w at hscratch hfold ⊢
  rw [← hscratch, hfold]

/-- Settles O43: each location takes its magnitude once, and the warning is recorded where a denominator is 0. -/
theorem forneyCorrectsEachLocation : Obligations.ForneyCorrectsEachLocation := by
  unfold Obligations.ForneyCorrectsEachLocation
  intro s hb ht hwf hrange hpos hle hnodup
  have hlocations : ∀ e ∈ s.locations, e.toNat < s.len.toNat := by
    intro e he
    obtain ⟨k, hk, rfl⟩ := State.mem_locations.1 he
    exact hrange k hk
  have hmem (k : Nat) (hk : k < s.nerr.toNat) : s.errloc.read k ∈ s.locations := State.mem_locations.2 ⟨k, hk, rfl⟩
  have hpass := forneyBody_of_pass hlocations hpos hle (encode .forney)
  refine ⟨_, exec_busy hb, ?frame, fun k hk => ⟨forneyMagnitude s (s.errloc.read k), ?byte,
    fieldMul_forneyMagnitude ht, forneyMagnitude_of_den_eq_zero ht⟩, fun τ hτ => ?others, ?warned, ?silent⟩
  case frame =>
    have hframe := forneyBody_frame_of_pass hlocations hpos hle (encode .forney)
    rw [effectOf]
    generalize forneyBody (encode .forney) s = w at hframe ⊢
    rw [hframe]
    rfl
  case byte =>
    rw [effectOf, hpass]
    exact forneyFold_cw_read _ hwf hnodup hlocations (hmem k hk)
  case others =>
    refine forneyBody_cw_read hwf fun e he => ?_
    obtain ⟨k, hk, rfl⟩ := State.mem_locations.1 he
    exact hτ k hk
  case warned =>
    rintro ⟨k, hk, hden⟩
    have hword : encode .forney = 0x00000035 := by decide
    rw [effectOf, hpass, hword]
    exact forneyFold_warned _ ⟨_, hmem k hk, (forneyDen_built ht _).trans hden⟩
  case silent =>
    intro hden
    rw [effectOf, hpass]
    refine forneyFold_not_warned _ fun e he => ?_
    obtain ⟨k, hk, rfl⟩ := State.mem_locations.1 he
    rw [forneyDen_built ht]
    exact hden k hk

/-! ### CORRECT and its stages -/

/-- s with another word in ERRCMD. -/
def State.withErrCmd (s : State) (c : Word) : State := { s with errCmd := c }

/-- FORNEY's corrections under two words differ in ERRCMD only (R207). -/
theorem forneyCorrect_word (v w : Word) (s : State) (c : Word) (i : Byte) :
    ∃ c', forneyCorrect v (s.withErrCmd c) i = (forneyCorrect w s i).withErrCmd c' := by
  have hden : forneyDen (s.withErrCmd c) i = forneyDen s i := rfl
  by_cases hzero : forneyDen s i = 0
  · exact ⟨v, by rw [forneyCorrect, forneyCorrect, if_pos (hden.trans hzero), if_pos hzero]; rfl⟩
  · exact ⟨c, by rw [forneyCorrect, forneyCorrect, if_neg (by rwa [hden]), if_neg hzero]; rfl⟩

theorem forneyFold_word (v w : Word) (es : List Byte) (s : State) (c : Word) :
    ∃ c', es.foldl (forneyCorrect v) (s.withErrCmd c) = (es.foldl (forneyCorrect w) s).withErrCmd c' := by
  induction es generalizing s c with
  | nil => exact ⟨c, rfl⟩
  | cons e es ih =>
    obtain ⟨c', h⟩ := forneyCorrect_word v w s c e
    rw [List.foldl_cons, List.foldl_cons, h]
    exact ih _ _

theorem forneyBody_word (v w : Word) (s : State) : ∃ c, forneyBody v s = (forneyBody w s).withErrCmd c := by
  unfold forneyBody
  split
  · exact ⟨s.errCmd, rfl⟩
  · split
    · exact ⟨s.errCmd, rfl⟩
    · obtain ⟨c, h⟩ := forneyFold_word v w s.locations s s.errCmd
      exact ⟨c, congrArg (fun t : State => { t with outcome := .corrected, failCause := .none }) h⟩

/-- FORNEY does not look at the pending word. -/
theorem forneyCorrect_pendingWith (v : Word) (s : State) (p : Option Word) (n : Nat) (i : Byte) :
    forneyCorrect v (s.pendingWith p n) i = (forneyCorrect v s i).pendingWith p n := by
  have hden : forneyDen (s.pendingWith p n) i = forneyDen s i := rfl
  by_cases hzero : forneyDen s i = 0
  · rw [forneyCorrect, forneyCorrect, if_pos (hden.trans hzero), if_pos hzero]
    rfl
  · rw [forneyCorrect, forneyCorrect, if_neg (by rwa [hden]), if_neg hzero]
    rfl

theorem forneyFold_pendingWith (v : Word) (es : List Byte) (s : State) (p : Option Word) (n : Nat) :
    es.foldl (forneyCorrect v) (s.pendingWith p n) = (es.foldl (forneyCorrect v) s).pendingWith p n := by
  induction es generalizing s with
  | nil => rfl
  | cons e es ih => rw [List.foldl_cons, List.foldl_cons, forneyCorrect_pendingWith, ih]

theorem effectOf_forney_pendingWith (s : State) (p : Option Word) (n : Nat) :
    effectOf .forney (s.pendingWith p n) = (effectOf .forney s).pendingWith p n := by
  rw [effectOf, forneyBody, forneyBody, show (s.pendingWith p n).locations = s.locations from rfl,
    show (s.pendingWith p n).len = s.len from rfl, show (s.pendingWith p n).nerr = s.nerr from rfl,
    show (s.pendingWith p n).npar = s.npar from rfl, forneyFold_pendingWith]
  split
  · rfl
  · split <;> rfl

/-- The end of CORRECT on a buffer that is not clean, beside that of FORNEY as a command of its own on the same state
(R190): they differ in the scratch and, when the warning is recorded, in its word. -/
theorem correct_beside_forney {s w w' : State} {c : Word} (sc : Scratch) (hword : w' = w.withErrCmd c)
    (hrecord : (w'.errCmd = s.errCmd ∧ w.errCmd = s.errCmd) ∨
      (w'.errCmd = 0x00000036 ∧ w.errCmd = 0x00000035 ∧ w'.errInfo = .zdiv)) :
    (w'.withScratch sc).complete =
        { w.complete with errCmd := (w'.withScratch sc).complete.errCmd, scratch := (w'.withScratch sc).complete.scratch } ∧
      (((w'.withScratch sc).complete.errCmd = s.errCmd ∧ w.complete.errCmd = s.errCmd) ∨
       ((w'.withScratch sc).complete.errCmd = 0x00000036 ∧ w.complete.errCmd = 0x00000035 ∧
        (w'.withScratch sc).complete.errInfo = .zdiv)) := by
  refine ⟨?_, hrecord⟩
  rw [hword]
  rfl

/-- The words FORNEY's body records as part of CORRECT and as a command of its own (R207). -/
theorem forneyBody_words (s : State) :
    ((forneyBody (encode .correct) (correctStages s)).errCmd = s.errCmd ∧
      (forneyBody (encode .forney) (correctStages s)).errCmd = s.errCmd) ∨
    ((forneyBody (encode .correct) (correctStages s)).errCmd = 0x00000036 ∧
      (forneyBody (encode .forney) (correctStages s)).errCmd = 0x00000035 ∧
      (forneyBody (encode .correct) (correctStages s)).errInfo = .zdiv) := by
  have hcorrect : encode .correct = 0x00000036 := by decide
  have hforney : encode .forney = 0x00000035 := by decide
  obtain ⟨-, -, hcmd⟩ := correctStages_record s
  rcases forneyBody_record (correctStages s) with h | ⟨-, h⟩
  · obtain ⟨-, -, h1⟩ := h (encode .correct)
    obtain ⟨-, -, h2⟩ := h (encode .forney)
    exact .inl ⟨h1.trans hcmd, h2.trans hcmd⟩
  · obtain ⟨-, hinfo, h1⟩ := h (encode .correct)
    obtain ⟨-, -, h2⟩ := h (encode .forney)
    exact .inr ⟨h1.trans hcorrect, h2.trans hforney, hinfo⟩

/-- Settles O45: CORRECT's phases after SYND are the stages, and FORNEY's body under another word. -/
theorem correctIsItsStagesInSequence : Obligations.CorrectIsItsStagesInSequence := by
  unfold Obligations.CorrectIsItsStagesInSequence
  intro s u1 v hb h1 hdirty
  obtain rfl := Host.Outcome.next.inj ((exec_busy hb).symm.trans h1)
  refine ⟨_, _, _, _, _, exec_after_complete v (effectOf_gamma_pendingWith ..),
    exec_after_complete v (effectOf_bmsolve_pendingWith ..), exec_after_complete v (effectOf_chien_pendingWith ..),
    exec_after_complete v (effectOf_forney_pendingWith ..), exec_busy hb, ?_⟩
  obtain ⟨sc, heffect⟩ : ∃ sc, effectCorrect s = (forneyBody (encode .correct) (correctStages s)).withScratch sc :=
    effectCorrect_dirty hdirty
  obtain ⟨c, hword⟩ := forneyBody_word (encode .correct) (encode .forney) (correctStages s)
  have hwords := forneyBody_words s
  have hcorrect : effectOf .correct s = effectCorrect s := rfl
  have hforney : effectOf .forney (effectOf .chien (effectOf .bmsolve (effectOf .gamma (effectOf .synd s)))) =
      forneyBody (encode .forney) (correctStages s) := rfl
  rw [hcorrect, heffect, hforney]
  generalize forneyBody (encode .correct) (correctStages s) = w' at hword hwords ⊢
  generalize forneyBody (encode .forney) (correctStages s) = w at hword hwords ⊢
  exact correct_beside_forney sc hword hwords

end Sys2Proof.Machine

/-!
PROOFS. The generator polynomial: its degree, its leading coefficient and its roots (40_field.md rule R108).
-/

namespace Sys2Proof.Machine

/-- The factor x + α^i of the generator, for i = m + 1 (R108). -/
def generatorFactor (t : Tables) (n m : Nat) : Poly :=
  (List.range n).map fun j => if j = 0 then t.expAt (m + 1) else if j = 1 then 0x01 else 0

/-- The generator takes in one factor at a time (R108). -/
theorem generator_succ (t : Tables) (n m : Nat) :
    generator t n (m + 1) = polyMul t n (generator t n m) (generatorFactor t n m) := by
  rw [generator, generator, List.range_succ, List.foldl_append]
  rfl

/-- Multiplying by x + a is scaling by a, shifting, and adding (R123 to R126). -/
theorem polyMul_generatorFactor (n m : Nat) (g : Poly) : polyMul builtTables n g (generatorFactor builtTables n m) =
    polyAdd n (polyScale builtTables n (builtTables.expAt (m + 1)) g) (polyShift n g) := by
  refine List.map_congr_left fun j hj => ?_
  have hj : j < n := List.mem_range.1 hj
  have hfactor (i : Nat) (hi : i < n) : coef (generatorFactor builtTables n m) i =
      if i = 0 then builtTables.expAt (m + 1) else if i = 1 then 0x01 else 0 := by
    rw [generatorFactor, coef_map_range, if_pos hi]
  have hlast : gfMul builtTables (coef g j) (coef (generatorFactor builtTables n m) (j - j)) =
      gfMul builtTables (builtTables.expAt (m + 1)) (coef g j) := by
    rw [hfactor _ (by omega), if_pos (Nat.sub_self j), gfMul_built, gfMul_built, fieldMul_comm]
  rw [coef_polyScale, if_pos hj, coef_polyShift, if_pos hj, xorSum_succ, hlast, byte_xor_comm]
  congr 1
  cases j with
  | zero => rfl
  | succ j =>
    rw [if_neg (Nat.succ_ne_zero j), Nat.add_sub_cancel, xorSum_single (k := j) (Nat.lt_succ_self j)]
    · rw [hfactor _ (by omega), if_neg (by omega), if_pos (by omega), gfMul_built]
      exact fieldMul_one_right _
    · intro i hi hne
      rw [hfactor _ (by omega), if_neg (by omega), if_neg (by omega), gfMul_zero_right]

/-- The generator has no coefficient above degree m, and that of degree m is 1 (R108). -/
theorem generator_monic {n m : Nat} (h : m < n) :
    coef (generator builtTables n m) m = 1 ∧ ∀ j, m < j → coef (generator builtTables n m) j = 0 := by
  induction m with
  | zero =>
    exact ⟨(coef_polyConst n 0x01 0).trans (if_pos ⟨h, rfl⟩),
      fun j hj => (coef_polyConst n 0x01 j).trans (if_neg fun hzero => absurd hzero.2 (Nat.ne_of_gt hj))⟩
  | succ m ih =>
    obtain ⟨hlead, hhigh⟩ := ih (by omega)
    have hcoef (j : Nat) (hj : m < j) (hn : j < n) :
        coef (generator builtTables n (m + 1)) j = coef (generator builtTables n m) (j - 1) := by
      rw [generator_succ, polyMul_generatorFactor, coef_polyAdd, if_pos hn, coef_polyScale, if_pos hn, hhigh j hj,
        gfMul_zero_right, coef_polyShift, if_pos hn, if_neg (by omega), byte_zero_xor]
    refine ⟨by rw [hcoef _ (Nat.lt_succ_self m) h, Nat.succ_sub_one, hlead], fun j hj => ?_⟩
    by_cases hn : j < n
    · rw [hcoef j (by omega) hn, hhigh _ (by omega)]
    · rw [generator_succ, coef_polyMul, if_neg hn]

/-- One more factor multiplies the value at α^r by α^r + α^(m+1) (R108, R163). -/
theorem polyEval_generator_succ {n m : Nat} (h : m + 1 < n) (hm : m < 254) (r : Nat) :
    polyEval builtTables n (generator builtTables n (m + 1)) r =
      fieldMul (fieldPow (m + 1) ^^^ fieldPow r) (polyEval builtTables n (generator builtTables n m) r) := by
  obtain ⟨n, rfl⟩ : ∃ k, n = k + 1 := ⟨n - 1, by omega⟩
  have htop : coef (generator builtTables (n + 1) m) n = 0 := (generator_monic (by omega)).2 n (by omega)
  rw [generator_succ, polyMul_generatorFactor, polyEval_polyAdd, polyEval_polyScale, polyEval_polyShift htop,
    builtTables_expAt (by omega), fieldMul_xor_left]

/-- α^1 to α^m are roots of the generator (R108). -/
theorem polyEval_generator_eq_zero {n m : Nat} (h : m < n) (hm : m ≤ 254) {i : Nat} (h1 : 1 ≤ i) (hi : i ≤ m) :
    polyEval builtTables n (generator builtTables n m) i = 0 := by
  induction m with
  | zero => omega
  | succ m ih =>
    rw [polyEval_generator_succ h hm, fieldMul_eq_zero]
    rcases Nat.lt_or_ge m i with hlast | hle
    · left
      rw [show i = m + 1 by omega]
      exact BitVec.xor_self
    · exact .inr (ih (by omega) (by omega) hle)

/-- Settles O27: by induction on the factors. -/
theorem generatorIsMonicWithItsRoots : Obligations.GeneratorIsMonicWithItsRoots := by
  unfold Obligations.GeneratorIsMonicWithItsRoots
  intro n npar hlt h254
  obtain ⟨hlead, hhigh⟩ := generator_monic hlt
  refine ⟨hlead, hhigh, fun i h1 hi => ?_⟩
  rw [← polyEval_built]
  exact polyEval_generator_eq_zero hlt h254 h1 hi

end Sys2Proof.Machine

/-!
PROOFS. BMSOLVE follows the recurrence of its rule coefficient by coefficient, over the built tables (43_decoder.md rules
R170 and R173).
-/

namespace Sys2Proof.Machine

/-- BMSOLVE's working values before step m, on the registers of s (R170). -/
def State.bmBefore (s : State) (m : Nat) : BmScratch :=
  Machine.bmRun s.tables s.maxdeg (s.poly SYN) (s.poly GAMMA) s.ecnt.toNat m

theorem State.bmBefore_npar (s : State) : s.bmBefore s.npar = s.bmRun := rfl

theorem State.bmBefore_ecnt (s : State) : s.bmBefore s.ecnt.toNat = bmStart s.maxdeg (s.poly GAMMA) s.ecnt.toNat :=
  bmRun_self ..

theorem State.bmBefore_succ {s : State} {m : Nat} (h : s.ecnt.toNat ≤ m) :
    s.bmBefore (m + 1) = bmStep s.tables s.maxdeg (s.poly SYN) (s.bmBefore m) m := bmRun_succ _ _ _ _ h

/-! ### One step -/

/-- The updated connection polynomial (R170). -/
theorem coef_bmPsi (n : Nat) (syn : Poly) (b : BmScratch) (m : Nat) {i : Nat} (hi : i < n) :
    coef (bmPsi builtTables n syn b m) i =
      coef b.psi i ^^^ fieldMul (discrepancy builtTables syn b.psi b.l m) (coef b.d i) := by
  rw [bmPsi, coef_polyAdd, if_pos hi, coef_polyScale, if_pos hi, gfMul_built]

/-- The discrepancy over the built tables, from the register SYN (R170): step m reads SYN[0..m]. -/
theorem State.discrepancy_bmBefore {s : State} {m : Nat} (hm : m < s.maxdeg) :
    discrepancy builtTables (s.poly SYN) (s.bmBefore m).psi (s.bmBefore m).l m =
      xorSum ((s.bmBefore m).l + 1) fun i => fieldMul (coef (s.bmBefore m).psi i) (s.coefAt SYN (m - i)) := by
  rw [discrepancy]
  exact xorSum_congr fun i _ => by rw [gfMul_built, s.coefAt_eq_coef SYN (by omega)]

/-- Step m with no discrepancy only shifts D (R170). -/
theorem bmStep_of_disc_eq_zero {n : Nat} {syn : Poly} {b : BmScratch} {m : Nat}
    (h : discrepancy builtTables syn b.psi b.l m = 0) :
    (bmStep builtTables n syn b m).l = b.l ∧ (bmStep builtTables n syn b m).k = b.k ∧
    ∀ i < n, coef (bmStep builtTables n syn b m).psi i = coef b.psi i ∧
      coef (bmStep builtTables n syn b m).d i = if i = 0 then 0 else coef b.d (i - 1) := by
  rcases bmStep_cases builtTables n syn b m with ⟨-, hstep⟩ | ⟨hdisc, -⟩ | ⟨hdisc, -⟩
  · rw [hstep]
    exact ⟨rfl, rfl, fun i hi => ⟨rfl, (coef_polyShift ..).trans (if_pos hi)⟩⟩
  · exact absurd h hdisc
  · exact absurd h hdisc

/-- Step m with a discrepancy updates PSI (R170). -/
theorem bmStep_psi_of_disc_ne_zero {n : Nat} {syn : Poly} {b : BmScratch} {m : Nat}
    (h : discrepancy builtTables syn b.psi b.l m ≠ 0) {i : Nat} (hi : i < n) :
    coef (bmStep builtTables n syn b m).psi i =
      coef b.psi i ^^^ fieldMul (discrepancy builtTables syn b.psi b.l m) (coef b.d i) := by
  rcases bmStep_cases builtTables n syn b m with ⟨hdisc, -⟩ | ⟨-, -, hstep⟩ | ⟨-, -, hstep⟩
  · exact absurd hdisc h
  · rw [hstep]
    exact coef_bmPsi n syn b m hi
  · rw [hstep]
    exact coef_bmPsi n syn b m hi

/-- Step m with a discrepancy and a change of length sets L, k and D from their old values (R170). -/
theorem bmStep_of_longer {n : Nat} {syn : Poly} {b : BmScratch} {m : Nat}
    (h : discrepancy builtTables syn b.psi b.l m ≠ 0) (hlen : (b.l : Int) < m - b.k) :
    ((bmStep builtTables n syn b m).l : Int) = m - b.k ∧ (bmStep builtTables n syn b m).k = m - b.l ∧
    ∃ c, fieldMul (discrepancy builtTables syn b.psi b.l m) c = 1 ∧
      ∀ i < n, coef (bmStep builtTables n syn b m).d i = if i = 0 then 0 else fieldMul c (coef b.psi (i - 1)) := by
  rcases bmStep_cases builtTables n syn b m with ⟨hdisc, -⟩ | ⟨-, -, hstep⟩ | ⟨-, hnot, -⟩
  · exact absurd hdisc h
  · rw [hstep]
    refine ⟨Int.toNat_of_nonneg (by omega), rfl, _, fieldMul_gfInv_built h, fun i hi => ?_⟩
    rw [coef_polyShift, if_pos hi, coef_polyScale, if_pos (Nat.lt_of_le_of_lt (Nat.sub_le i 1) hi), gfMul_built]
  · exact absurd hlen hnot

/-- Step m with a discrepancy and no change of length shifts D (R170). -/
theorem bmStep_of_not_longer {n : Nat} {syn : Poly} {b : BmScratch} {m : Nat}
    (h : discrepancy builtTables syn b.psi b.l m ≠ 0) (hlen : ¬(b.l : Int) < m - b.k) :
    (bmStep builtTables n syn b m).l = b.l ∧ (bmStep builtTables n syn b m).k = b.k ∧
    ∀ i < n, coef (bmStep builtTables n syn b m).d i = if i = 0 then 0 else coef b.d (i - 1) := by
  rcases bmStep_cases builtTables n syn b m with ⟨hdisc, -⟩ | ⟨-, hlonger, -⟩ | ⟨-, -, hstep⟩
  · exact absurd hdisc h
  · exact absurd hlonger hlen
  · rw [hstep]
    exact ⟨rfl, rfl, fun i hi => (coef_polyShift ..).trans (if_pos hi)⟩

/-! ### The registers -/

/-- Coefficient i of OMEGA after BMSOLVE, over the built tables (R170, R173). -/
theorem coefAt_effectBmsolve_omega {s : State} (hwf : s.polys.wf) (ht : s.tables = builtTables) {i : Nat}
    (hi : i < s.maxdeg) : (effectBmsolve s).coefAt OMEGA i =
      if i < s.npar then xorSum (i + 1) fun j => fieldMul (coef s.bmRun.psi j) (s.coefAt SYN (i - j)) else 0 := by
  rw [State.coefAt_eq_coef (effectBmsolve s) OMEGA hi, effectBmsolve_omega hwf, evaluator, coef_map_range, if_pos hi]
  refine ite_congr rfl (fun _ => xorSum_congr fun j _ => ?_) fun _ => rfl
  rw [ht, gfMul_built, s.coefAt_eq_coef SYN (by omega)]

/-- Settles O38: the working values before each step are the sequences of the rule. -/
theorem bmsolveFollowsTheRecurrence : Obligations.BmsolveFollowsTheRecurrence := by
  unfold Obligations.BmsolveFollowsTheRecurrence
  intro s hb hwf ht hn hle
  have hlt : s.npar < s.maxdeg := State.npar_lt_maxdeg hn
  obtain ⟨-, hregs⟩ := writesOnly_bmsolve hwf
  have hstart := s.bmBefore_ecnt
  refine ⟨_, exec_busy hb, ?frame, hregs, fun m i => coef (s.bmBefore m).psi i, fun m i => coef (s.bmBefore m).d i,
    fun m => (s.bmBefore m).l, fun m => (s.bmBefore m).k, fun i hi => ?psi, fun i hi => ?d, ?l, ?k, fun m hm hmn => ?step,
    fun i hi => ?lambda, fun i hi => coefAt_effectBmsolve_omega hwf ht hi, effectBmsolve_bmL hle⟩
  case frame =>
    have heq := effectBmsolve_eq s
    rw [effectOf]
    generalize effectBmsolve s = w at heq ⊢
    rw [heq]
    rfl
  case psi =>
    simp only [hstart]
    exact (s.coefAt_eq_coef GAMMA hi).symm
  case d =>
    simp only [hstart, bmStart]
    rw [coef_polyShift, if_pos hi]
    exact ite_congr rfl (fun _ => rfl) fun _ => (s.coefAt_eq_coef GAMMA (by omega)).symm
  case l => simp only [hstart, bmStart]
  case k => simp only [hstart, bmStart]
  case step =>
    have hsucc := State.bmBefore_succ hm
    rw [ht] at hsucc
    simp only [hsucc, ← State.discrepancy_bmBefore (Nat.lt_trans hmn hlt)]
    exact ⟨bmStep_of_disc_eq_zero, fun hdisc => ⟨fun i hi => bmStep_psi_of_disc_ne_zero hdisc hi, bmStep_of_longer hdisc,
      bmStep_of_not_longer hdisc⟩⟩
  case lambda =>
    refine (State.coefAt_eq_coef (effectBmsolve s) LAMBDA hi).trans ?_
    rw [effectBmsolve_lambda hwf, ← State.bmBefore_npar]

end Sys2Proof.Machine

/-!
PROOFS. The encoder's words are codewords: the shift register divides by the generator, whose roots are α^1 to α^NPAR
(40_field.md rule R108, 42_encoder.md rules R140 and R141).
-/

namespace Sys2Proof.Machine

/-- One more power of α^e on a term of a polynomial's value at α^e. -/
theorem fieldMul_fieldPow_term (e i : Nat) (a : Byte) :
    fieldMul (fieldPow e) (fieldMul a (fieldPow (i * e))) = fieldMul a (fieldPow ((i + 1) * e)) := by
  rw [fieldMul_comm, fieldMul_assoc, fieldMul_fieldPow, Nat.succ_mul]

/-! ### The shift register -/

/-- The first n cells as a polynomial, at α^e (R18, R140). -/
def cellsAt (r : Nat → Byte) (n e : Nat) : Byte := xorSum n fun j => fieldMul (r j) (fieldPow (j * e))

/-- Moving every cell one up multiplies the value by α^e, less the top cell that falls out (R140). -/
theorem cellsAt_shift (r : Nat → Byte) (n e : Nat) : cellsAt (fun j => if j = 0 then 0 else r (j - 1)) (n + 1) e =
    fieldMul (fieldPow e) (cellsAt r (n + 1) e) ^^^ fieldMul (r n) (fieldPow ((n + 1) * e)) := by
  have hup : cellsAt (fun j => if j = 0 then 0 else r (j - 1)) (n + 1) e = fieldMul (fieldPow e) (cellsAt r n e) := by
    rw [cellsAt, xorSum_succ', if_pos rfl, fieldMul_zero_left, byte_zero_xor, cellsAt, fieldMul_xorSum]
    exact xorSum_congr fun j _ => by rw [fieldMul_fieldPow_term, if_neg (Nat.succ_ne_zero j), Nat.add_sub_cancel]
  have htop : cellsAt r (n + 1) e = cellsAt r n e ^^^ fieldMul (r n) (fieldPow (n * e)) := xorSum_succ ..
  rw [hup, htop, fieldMul_xor_right, fieldMul_fieldPow_term, BitVec.xor_assoc, BitVec.xor_self, BitVec.xor_zero]

/-- At a root α^e of the monic generator, its lower coefficients sum to α^(NPAR·e) (R108). -/
theorem cellsAt_generator {s : State} (h : Booted s) {e : Nat} (h1 : 1 ≤ e) (he : e ≤ s.npar) :
    cellsAt (s.coefAt GEN) s.npar e = fieldPow (s.npar * e) := by
  have hlt := State.npar_lt_maxdeg h.nparLe
  have hle : s.npar ≤ 254 := Nat.le_trans h.nparLe s.config.nparMax_le
  obtain ⟨hlead, hhigh⟩ := generator_monic hlt
  have hroot := polyEval_generator_eq_zero hlt hle h1 he
  have hcells : cellsAt (s.coefAt GEN) s.npar e =
      xorSum s.npar fun j => fieldMul (coef (generator builtTables s.maxdeg s.npar) j) (fieldPow (j * e)) :=
    xorSum_congr fun j hj => by rw [s.coefAt_eq_coef GEN (Nat.lt_trans hj hlt), h.gen]
  rw [polyEval_built, xorSum_of_le hlt fun j hj _ => by rw [hhigh j hj, fieldMul_zero_left], xorSum_succ, hlead,
    fieldMul_one_left, ← hcells] at hroot
  exact BitVec.xor_eq_zero_iff.1 hroot

/-- Each message byte multiplies the register's value by α^e and adds α^(NPAR·e) times the byte (R140). -/
theorem cellsAt_lfsrAfter_succ {s : State} (h : Booted s) {e : Nat} (h1 : 1 ≤ e) (he : e ≤ s.npar) (τ : Nat) :
    cellsAt (s.lfsrAfter (τ + 1)) s.npar e =
      fieldMul (fieldPow e) (cellsAt (s.lfsrAfter τ) s.npar e) ^^^ fieldMul (fieldPow (s.npar * e)) (s.cw.read τ) := by
  obtain ⟨n, hn⟩ : ∃ n, s.npar = n + 1 := ⟨s.npar - 1, by have := h.nparPos; omega⟩
  have hfeedback : cellsAt (s.lfsrAfter (τ + 1)) s.npar e =
      cellsAt (fun j => if j = 0 then 0 else s.lfsrAfter τ (j - 1)) s.npar e ^^^
        fieldMul (s.cw.read τ ^^^ s.lfsrAfter τ (s.npar - 1)) (cellsAt (s.coefAt GEN) s.npar e) := by
    rw [cellsAt, cellsAt, cellsAt, fieldMul_xorSum, ← xorSum_xor]
    refine xorSum_congr fun j hj => ?_
    rw [State.lfsrAfter_succ h.tables h.nparLe τ hj, fieldMul_xor_left, ← fieldMul_assoc, fieldMul_comm (s.coefAt GEN j)]
  have htop : s.npar - 1 = n := by omega
  rw [hfeedback, cellsAt_generator h h1 he, htop, hn, cellsAt_shift, fieldMul_xor_left, fieldMul_comm (s.cw.read τ),
    BitVec.xor_assoc, byte_xor_comm (fieldMul (fieldPow _) (s.cw.read τ)), ← BitVec.xor_assoc (fieldMul (s.lfsrAfter τ n) _),
    BitVec.xor_self, BitVec.zero_xor]

/-- After τ bytes the register's value is that of the message times α^(NPAR·e): the remainder (R140, R141). -/
theorem cellsAt_lfsrAfter {s : State} (h : Booted s) {j : Nat} (hj : j < s.npar) (τ : Nat) :
    cellsAt (s.lfsrAfter τ) s.npar (j + 1) = fieldMul (fieldPow (s.npar * (j + 1))) (codewordAt s.cw.read τ j) := by
  induction τ with
  | zero =>
    rw [cellsAt, xorSum_eq_zero fun i _ => by rw [s.lfsrAfter_zero, fieldMul_zero_left]]
    exact (fieldMul_zero_right _).symm
  | succ τ ih =>
    rw [cellsAt_lfsrAfter_succ h (Nat.succ_pos j) hj, ih, codewordAt_succ, fieldMul_xor_right, byte_xor_comm,
      ← fieldMul_assoc, fieldMul_comm (fieldPow (j + 1)), fieldMul_assoc]

/-! ### The codeword -/

/-- A message followed by the first k of n cells, the top one first (R140, R150). -/
theorem codewordAt_parity {c r : Nat → Byte} {len n : Nat} (h : ∀ i < n, c (len + i) = r (n - 1 - i)) (j : Nat) {k : Nat}
    (hk : k ≤ n) : codewordAt c (len + k) j =
      fieldMul (fieldPow (k * (j + 1))) (codewordAt c len j) ^^^ cellsAt (fun i => r (n - k + i)) k (j + 1) := by
  induction k with
  | zero =>
    rw [Nat.zero_mul]
    exact ((byte_xor_zero _).trans (fieldMul_one_left _)).symm
  | succ k ih =>
    have hcells : cellsAt (fun i => r (n - (k + 1) + i)) (k + 1) (j + 1) =
        r (n - 1 - k) ^^^ fieldMul (fieldPow (j + 1)) (cellsAt (fun i => r (n - k + i)) k (j + 1)) := by
      rw [cellsAt, xorSum_succ', cellsAt, fieldMul_xorSum, Nat.zero_mul]
      refine congrArg₂ _ ((fieldMul_one_right _).trans (congrArg r (by omega))) (xorSum_congr fun i _ => ?_)
      rw [fieldMul_fieldPow_term, show n - (k + 1) + (i + 1) = n - k + i by omega]
    rw [← Nat.add_assoc, codewordAt_succ, h k hk, ih (by omega), hcells, fieldMul_xor_right, ← fieldMul_assoc,
      fieldMul_fieldPow, ← BitVec.xor_assoc, ← BitVec.xor_assoc, byte_xor_comm (r _), Nat.succ_mul,
      Nat.add_comm (k * (j + 1))]

/-- The value of a word depends on its bytes only (R150). -/
theorem codewordAt_congr {c c' : Nat → Byte} {n : Nat} (h : ∀ τ < n, c τ = c' τ) (j : Nat) :
    codewordAt c n j = codewordAt c' n j := xorSum_congr fun τ hτ => by rw [h τ hτ]

/-- The buffer ENCODE leaves is 0 at α^1 to α^NPAR (R141). -/
theorem codewordAt_effectEncode {s : State} (h : Booted s) (hwf : s.cw.wf) {j : Nat} (hj : j < s.npar) :
    codewordAt (effectEncode s).cw.read (s.len.toNat + s.npar) j = 0 := by
  have hmessage : codewordAt (effectEncode s).cw.read s.len.toNat j = codewordAt s.cw.read s.len.toNat j :=
    codewordAt_congr (fun τ hτ => (writesOnly_encode hwf).2 τ fun hk => Nat.not_lt.2 hk.1 hτ) j
  have hcells : cellsAt (fun i => s.lfsrAfter s.len.toNat (s.npar - s.npar + i)) s.npar (j + 1) =
      cellsAt (s.lfsrAfter s.len.toNat) s.npar (j + 1) := by simp only [Nat.sub_self, Nat.zero_add]
  rw [codewordAt_parity (fun i hi => effectEncode_cw_read hwf hi) j (Nat.le_refl _), hmessage, hcells,
    cellsAt_lfsrAfter h hj]
  exact BitVec.xor_self

/-- Settles O35: the word ENCODE leaves is a codeword, and SYND and CORRECT find it so. -/
theorem encodeThenDecodeIsClean : Obligations.EncodeThenDecodeIsClean := by
  unfold Obligations.EncodeThenDecodeIsClean
  intro s t v hb hbooted hcanon hlen h u
  have hframe := effectEncode_eq s
  have hcode := fun j => codewordAt_effectEncode (j := j) hbooted hcanon.cw
  have ht : t = (effectEncode s).complete := Host.Outcome.next.inj (h.symm.trans (exec_busy hb))
  generalize effectEncode s = w at hframe hcode ht
  subst ht
  have hpolys : u.polys.wf := (congrArg State.polys hframe).symm ▸ hcanon.polys
  have htables : u.tables = builtTables := (congrArg State.tables hframe).trans hbooted.tables
  have hnpar : w.npar = s.npar := (congrArg State.npar hframe).trans rfl
  have hconfig : w.config = s.config := (congrArg State.config hframe).trans rfl
  have hle : w.npar ≤ w.config.nparMax := by rw [hnpar, hconfig]; exact hbooted.nparLe
  have hulen : u.len.toNat = s.len.toNat + s.npar := (BitVec.toNat_ofNat ..).trans (Nat.mod_eq_of_lt (by omega))
  have hzero : ∀ j < u.npar, codewordAt u.cw.read u.len.toNat j = 0 := fun j hj => by
    rw [hulen]
    exact hcode j (hnpar ▸ hj)
  obtain ⟨y, hsynd, -, -, hsyn, -, hclean⟩ := syndEvaluatesTheCodeword u rfl hpolys htables hle
  obtain ⟨x, hcorrect, hx, -⟩ := correctLeavesACleanCodeword u rfl hpolys htables hle hzero
  exact ⟨⟨y, hsynd, hclean.2 hzero, fun j hj => (hsyn j (hnpar ▸ hj)).trans (hzero j (hnpar ▸ hj))⟩, x, hcorrect,
    by rw [hx], by rw [hx]⟩

end Sys2Proof.Machine

/-!
PROOFS. BMSOLVE on the syndromes of a single error: they form a geometric sequence, and LAMBDA and OMEGA come out as
1 + x·z and a constant (43_decoder.md rules R170, R173 and R192).
-/

namespace Sys2Proof.Machine

/-- Field multiplication cancels (R100). -/
theorem fieldMul_right_cancel {a b c : Byte} (hc : c ≠ 0) (h : fieldMul a c = fieldMul b c) : a = b := by
  have hzero : fieldMul (a ^^^ b) c = 0 := by
    rw [fieldMul_xor_left, h]
    exact BitVec.xor_self
  exact BitVec.xor_eq_zero_iff.1 ((fieldMul_eq_zero.1 hzero).resolve_right hc)

/-- p is 1 + a·z, up to its capacity n. -/
def IsLinear (n : Nat) (p : Poly) (a : Byte) : Prop := ∀ i < n, coef p i = if i = 0 then 1 else if i = 1 then a else 0

/-- Each of the first npar syndromes is x times the one before, from one that is not 0: those of one error, at the
location whose power of α is x (R151). -/
structure GeometricSyndromes (npar : Nat) (syn : Poly) (x : Byte) : Prop where
  first : coef syn 0 ≠ 0
  next : ∀ j, j + 1 < npar → coef syn (j + 1) = fieldMul x (coef syn j)

/-! ### The steps -/

/-- The discrepancy of 1 + a·z (R170). -/
theorem discrepancy_linear {n : Nat} {psi : Poly} {a : Byte} (hn : 1 < n) (h : IsLinear n psi a) (syn : Poly) (m : Nat) :
    discrepancy builtTables syn psi 1 (m + 1) = coef syn (m + 1) ^^^ fieldMul a (coef syn m) := by
  rw [discrepancy, xorSum_succ, xorSum_succ, xorSum_zero, h 0 (by omega), h 1 hn, if_pos rfl, if_neg Nat.one_ne_zero,
    if_pos rfl, gfMul_built, gfMul_built, fieldMul_one_left, Nat.sub_zero, Nat.add_sub_cancel]
  exact congrArg (· ^^^ _) (byte_zero_xor _)

/-- PSI after any step (R170): with no discrepancy the second term is 0. -/
theorem coef_bmStep_psi {n : Nat} (syn : Poly) (b : BmScratch) (m : Nat) {i : Nat} (hi : i < n) :
    coef (bmStep builtTables n syn b m).psi i =
      coef b.psi i ^^^ fieldMul (discrepancy builtTables syn b.psi b.l m) (coef b.d i) := by
  by_cases hdisc : discrepancy builtTables syn b.psi b.l m = 0
  · obtain ⟨-, -, hcoef⟩ := bmStep_of_disc_eq_zero (n := n) hdisc
    rw [(hcoef i hi).1, hdisc, fieldMul_zero_left, byte_xor_zero]
  · exact bmStep_psi_of_disc_ne_zero hdisc hi

/-- The length after a step that does not change it (R170). -/
theorem bmStep_l_of_not_longer {n : Nat} {syn : Poly} {b : BmScratch} {m : Nat} (h : ¬(b.l : Int) < m - b.k) :
    (bmStep builtTables n syn b m).l = b.l := by
  by_cases hdisc : discrepancy builtTables syn b.psi b.l m = 0
  · exact (bmStep_of_disc_eq_zero (n := n) hdisc).1
  · exact (bmStep_of_not_longer (n := n) hdisc h).1

/-- What step 0 leaves, from GAMMA = 1: PSI takes the first syndrome, and D its inverse (R170). -/
structure AfterStepZero (n : Nat) (syn : Poly) (b : BmScratch) : Prop where
  psi : IsLinear n b.psi (coef syn 0)
  l : b.l = 1
  k : b.k = 0
  d : ∃ c, fieldMul (coef syn 0) c = 1 ∧ ∀ i < n, coef b.d i = if i = 1 then c else 0

theorem bmStep_zero {n : Nat} {syn gamma : Poly} (hn : 1 < n) (hgamma : IsLinear n gamma 0) (hfirst : coef syn 0 ≠ 0) :
    AfterStepZero n syn (bmStep builtTables n syn (bmStart n gamma 0) 0) := by
  have hdisc : discrepancy builtTables syn (bmStart n gamma 0).psi (bmStart n gamma 0).l 0 = coef syn 0 := by
    show discrepancy builtTables syn gamma 0 0 = coef syn 0
    rw [discrepancy, xorSum_succ, xorSum_zero, hgamma 0 (by omega), if_pos rfl, gfMul_built, fieldMul_one_left]
    exact byte_zero_xor _
  have hlonger : ((bmStart n gamma 0).l : Int) < (0 : Nat) - (bmStart n gamma 0).k := by
    simp only [bmStart]
    decide
  obtain ⟨hl, hk, c, hc, hd⟩ := bmStep_of_longer (n := n) (hdisc ▸ hfirst) hlonger
  have hlong : ((0 : Nat) : Int) - (-1) = 1 := by decide
  refine ⟨fun i hi => ?coefPsi, Int.ofNat.inj (hl.trans hlong), hk, c, hdisc ▸ hc, fun i hi => ?coefD⟩
  case coefPsi =>
    have hstart : (bmStart n gamma 0).psi = gamma ∧ (bmStart n gamma 0).d = polyShift n gamma := ⟨rfl, rfl⟩
    rw [coef_bmStep_psi _ _ _ hi, hdisc, hstart.1, hstart.2, coef_polyShift, if_pos hi, hgamma i hi]
    match i with
    | 0 => simp
    | 1 => rw [hgamma (1 - 1) (by omega)]; simp
    | i + 2 => rw [hgamma (i + 2 - 1) (by omega)]; simp
  case coefD =>
    rw [hd i hi]
    show (if i = 0 then 0 else fieldMul c (coef gamma (i - 1))) = _
    match i with
    | 0 => rfl
    | 1 => rw [hgamma (1 - 1) (by omega)]; simp
    | i + 2 => rw [hgamma (i + 2 - 1) (by omega)]; simp

/-- Step 1 makes PSI = 1 + x·z: the new coefficient times the first syndrome is the second one (R170). -/
theorem bmStep_one {n npar : Nat} {syn : Poly} {x : Byte} {b : BmScratch} (hn : 1 < n) (hnpar : 2 ≤ npar)
    (hsyn : GeometricSyndromes npar syn x) (h : AfterStepZero n syn b) :
    IsLinear n (bmStep builtTables n syn b 1).psi x ∧ (bmStep builtTables n syn b 1).l = 1 := by
  obtain ⟨hpsi, hl, hk, c, hc, hd⟩ := h
  have hlen : ¬(b.l : Int) < (1 : Nat) - b.k := by rw [hl, hk]; decide
  refine ⟨fun i hi => ?_, (bmStep_l_of_not_longer hlen).trans hl⟩
  rw [coef_bmStep_psi _ _ _ hi, hpsi i hi, hd i hi]
  match i with
  | 0 => simp
  | 1 =>
    rw [if_neg Nat.one_ne_zero, if_pos rfl, if_pos rfl, if_neg Nat.one_ne_zero, if_pos rfl]
    refine fieldMul_right_cancel hsyn.first ?_
    rw [fieldMul_xor_left, fieldMul_assoc, fieldMul_comm c, hc, fieldMul_one_right, hl, discrepancy_linear hn hpsi, byte_xor_comm,
      BitVec.xor_assoc, BitVec.xor_self, BitVec.xor_zero]
    exact hsyn.next 0 hnpar
  | i + 2 => simp

/-- Every later step finds no discrepancy (R170). -/
theorem bmStep_later {n npar m : Nat} {syn : Poly} {x : Byte} {b : BmScratch} (hn : 1 < n) (hm : m + 1 < npar)
    (hsyn : GeometricSyndromes npar syn x) (hpsi : IsLinear n b.psi x) (hl : b.l = 1) :
    IsLinear n (bmStep builtTables n syn b (m + 1)).psi x ∧ (bmStep builtTables n syn b (m + 1)).l = 1 := by
  have hdisc : discrepancy builtTables syn b.psi b.l (m + 1) = 0 := by
    rw [hl, discrepancy_linear hn hpsi, hsyn.next m hm]
    exact BitVec.xor_self
  obtain ⟨hlen, -, hcoef⟩ := bmStep_of_disc_eq_zero (n := n) hdisc
  exact ⟨fun i hi => (hcoef i hi).1.trans (hpsi i hi), hlen.trans hl⟩

/-- The run ends with PSI = 1 + x·z (R170, R192). -/
theorem bmRun_linear {n npar : Nat} {syn gamma : Poly} {x : Byte} (hn : 1 < n) (hsyn : GeometricSyndromes npar syn x)
    (hgamma : IsLinear n gamma 0) {m : Nat} (hm : 2 ≤ m) (hmn : m ≤ npar) :
    IsLinear n (bmRun builtTables n syn gamma 0 m).psi x ∧ (bmRun builtTables n syn gamma 0 m).l = 1 := by
  induction m, hm using Nat.le_induction with
  | base =>
    rw [bmRun_succ _ _ _ _ (Nat.zero_le 1), bmRun_succ _ _ _ _ (Nat.le_refl 0), bmRun_self]
    exact bmStep_one hn hmn hsyn (bmStep_zero hn hgamma hsyn.first)
  | succ m hm ih =>
    obtain ⟨hpsi, hl⟩ := ih (by omega)
    obtain ⟨m, rfl⟩ : ∃ k, m = k + 1 := ⟨m - 1, by omega⟩
    rw [bmRun_succ _ _ _ _ (Nat.zero_le _)]
    exact bmStep_later hn hmn hsyn hpsi hl

/-! ### The registers BMSOLVE leaves -/

/-- The state before BMSOLVE for one unknown error: no erasures, so GAMMA = 1, and geometric syndromes (R161, R192). -/
structure OneErrorToLocate (s : State) (x : Byte) : Prop where
  polys : s.polys.wf
  tables : s.tables = builtTables
  nparGe : 2 ≤ s.npar
  nparLe : s.npar ≤ s.config.nparMax
  noErasures : s.ecnt.toNat = 0
  gamma : IsLinear s.maxdeg (s.poly GAMMA) 0
  syn : GeometricSyndromes s.npar (s.poly SYN) x

theorem OneErrorToLocate.bmRun {s : State} {x : Byte} (h : OneErrorToLocate s x) : IsLinear s.maxdeg s.bmRun.psi x := by
  rw [State.bmRun, h.tables, h.noErasures]
  exact (bmRun_linear (Nat.lt_of_lt_of_le (by decide) s.maxdeg_pos) h.syn h.gamma h.nparGe (Nat.le_refl _)).1

/-- LAMBDA is 1 + x·z (R170, R192). -/
theorem OneErrorToLocate.lambda {s : State} {x : Byte} (h : OneErrorToLocate s x) {i : Nat} (hi : i < s.maxdeg) :
    (effectBmsolve s).coefAt LAMBDA i = if i = 0 then 1 else if i = 1 then x else 0 := by
  rw [State.coefAt_eq_coef (effectBmsolve s) LAMBDA hi, effectBmsolve_lambda h.polys]
  exact h.bmRun i hi

/-- OMEGA is the first syndrome (R170, R173, R192). -/
theorem OneErrorToLocate.omega {s : State} {x : Byte} (h : OneErrorToLocate s x) {i : Nat} (hi : i < s.maxdeg) :
    (effectBmsolve s).coefAt OMEGA i = if i = 0 then s.coefAt SYN 0 else 0 := by
  have hone : 1 < s.maxdeg := Nat.lt_of_lt_of_le (by decide) s.maxdeg_pos
  rw [coefAt_effectBmsolve_omega h.polys h.tables hi]
  cases i with
  | zero =>
    rw [if_pos (Nat.lt_of_lt_of_le (by decide) h.nparGe), if_pos rfl, xorSum_succ, xorSum_zero, h.bmRun 0 (by omega),
      if_pos rfl, fieldMul_one_left]
    exact byte_zero_xor _
  | succ i =>
    rw [if_neg (Nat.succ_ne_zero i)]
    split
    · next hnpar =>
      have htwo : xorSum (i + 1 + 1) (fun j => fieldMul (coef s.bmRun.psi j) (s.coefAt SYN (i + 1 - j))) =
          s.coefAt SYN (i + 1) ^^^ fieldMul x (s.coefAt SYN i) := by
        rw [xorSum_of_le (m := 2) (by omega), xorSum_succ, xorSum_succ, xorSum_zero, h.bmRun 0 (by omega), h.bmRun 1 hone,
          if_pos rfl, if_neg Nat.one_ne_zero, if_pos rfl, fieldMul_one_left, Nat.sub_zero, Nat.add_sub_cancel]
        · exact congrArg (· ^^^ _) (byte_zero_xor _)
        · intro j hj hji
          rw [h.bmRun j (by omega), if_neg (by omega), if_neg (by omega), fieldMul_zero_left]
      rw [htwo, s.coefAt_eq_coef SYN hi, s.coefAt_eq_coef SYN (by omega), h.syn.next i hnpar]
      exact BitVec.xor_self
    · rfl

end Sys2Proof.Machine

/-!
PROOFS. CORRECT with no erasures repairs one error (43_decoder.md rule R192): its syndromes are geometric, its locator has
the one root that names its location, and Forney's magnitude is the error's value.
-/

namespace Sys2Proof.Machine

/-! ### The syndromes -/

/-- Two words differ at α^(j+1) by the value of their difference (R150). -/
theorem codewordAt_xor (c d : Nat → Byte) (n j : Nat) :
    codewordAt c n j ^^^ codewordAt d n j = codewordAt (fun τ => c τ ^^^ d τ) n j := by
  rw [codewordAt, codewordAt, ← xorSum_xor]
  exact xorSum_congr fun τ _ => (fieldMul_xor_left ..).symm

/-- A word that is 0 but for the byte of location e (R150). -/
theorem codewordAt_single {d : Nat → Byte} {n e : Nat} (he : e < n) (h : ∀ τ < n, τ ≠ n - 1 - e → d τ = 0) (j : Nat) :
    codewordAt d n j = fieldMul (d (n - 1 - e)) (fieldPow ((j + 1) * e)) := by
  rw [codewordAt, xorSum_single (k := n - 1 - e) (by omega) fun τ hτ hne => by rw [h τ hτ hne, fieldMul_zero_left],
    show n - 1 - (n - 1 - e) = e by omega]

/-- A booted block whose buffer is a codeword c but for the byte of location e, with no erasures listed. -/
structure OneErrorInBuffer (s : State) (c : Nat → Byte) (e : Nat) : Prop where
  booted : Booted s
  canonical : Canonical s
  nparGe : 2 ≤ s.npar
  noErasures : s.ecnt.toNat = 0
  location : e < s.len.toNat
  codeword : ∀ j < s.npar, codewordAt c s.len.toNat j = 0
  differs : ∀ τ < s.len.toNat, s.cw.read τ = c τ ↔ τ ≠ s.len.toNat - 1 - e

/-- The value of the error: what the byte of location e differs by. -/
def errorValue (s : State) (c : Nat → Byte) (e : Nat) : Byte :=
  s.cw.read (s.len.toNat - 1 - e) ^^^ c (s.len.toNat - 1 - e)

theorem OneErrorInBuffer.location_le {s : State} {c : Nat → Byte} {e : Nat} (h : OneErrorInBuffer s c e) : e ≤ 254 := by
  have := s.len.isLt
  have := h.location
  omega

theorem OneErrorInBuffer.errorValue_ne_zero {s : State} {c : Nat → Byte} {e : Nat} (h : OneErrorInBuffer s c e) :
    errorValue s c e ≠ 0 := fun hzero =>
  have hlt : s.len.toNat - 1 - e < s.len.toNat := by have := h.location; omega
  (h.differs _ hlt).1 (BitVec.xor_eq_zero_iff.1 hzero) rfl

/-- Syndrome j is the error's value times α^((j+1)·e) (R151). -/
theorem OneErrorInBuffer.codewordAt_eq {s : State} {c : Nat → Byte} {e : Nat} (h : OneErrorInBuffer s c e) {j : Nat}
    (hj : j < s.npar) :
    codewordAt s.cw.read s.len.toNat j = fieldMul (errorValue s c e) (fieldPow ((j + 1) * e)) := by
  have hdiff := codewordAt_xor s.cw.read c s.len.toNat j
  rw [h.codeword j hj, byte_xor_zero] at hdiff
  rw [hdiff]
  refine codewordAt_single h.location (fun τ hτ hne => ?_) j
  rw [(h.differs τ hτ).2 hne]
  exact BitVec.xor_self

/-- So SYND finds the buffer not clean (R152). -/
theorem OneErrorInBuffer.not_clean {s : State} {c : Nat → Byte} {e : Nat} (h : OneErrorInBuffer s c e) :
    (effectSynd s).clean ≠ true := by
  have hpos : 0 < s.npar := Nat.lt_of_lt_of_le (by decide) h.nparGe
  intro hclean
  have hzero := (effectSynd_clean_iff h.booted.tables h.booted.nparLe).1 hclean 0 hpos
  rw [h.codewordAt_eq hpos, fieldMul_eq_zero] at hzero
  exact hzero.elim h.errorValue_ne_zero (fieldPow_ne_zero _)

/-! ### The state before BMSOLVE -/

/-- SYN after SYND and GAMMA (R150, R161). -/
theorem OneErrorInBuffer.coef_syn {s : State} {c : Nat → Byte} {e : Nat} (h : OneErrorInBuffer s c e) {j : Nat}
    (hj : j < s.npar) : coef ((effectGamma (effectSynd s)).poly SYN) j =
      fieldMul (errorValue s c e) (fieldPow ((j + 1) * e)) := by
  have hdeg : j < s.maxdeg := Nat.lt_trans hj (State.npar_lt_maxdeg h.booted.nparLe)
  have hwf : (effectSynd s).polys.wf := Memory.writeAll_wf h.canonical.polys _ _
  have hsyn : (effectGamma (effectSynd s)).poly SYN = (effectSynd s).poly SYN :=
    (onlyRegisters_effectGamma hwf).poly_eq (effectGamma_same _).maxdeg_eq (by decide)
  rw [hsyn, ← State.coefAt_eq_coef (effectSynd s) SYN hdeg, coef_effectSynd h.canonical.polys hdeg, if_pos hj,
    syndrome_eq_codewordAt h.booted.tables h.booted.nparLe hj, h.codewordAt_eq hj]

/-- With no erasures GAMMA is 1 (R161). -/
theorem isLinear_effectGamma {s : State} (hwf : s.polys.wf) (h : s.ecnt.toNat = 0) :
    IsLinear s.maxdeg ((effectGamma s).poly GAMMA) 0 := by
  have hnone : s.erasures = [] := List.length_eq_zero_iff.1 (s.length_erasures.trans h)
  have hgamma : (effectGamma s).poly GAMMA = polyConst s.maxdeg 0x01 := by
    rw [effectGamma, State.poly_setPoly hwf _ _ (length_erasureLocator ..), if_pos rfl, hnone]
    rfl
  intro i hi
  rw [hgamma, coef_polyConst, ite_self]
  exact if_congr (and_iff_right hi) rfl rfl

/-- SYND and GAMMA leave what BMSOLVE needs to locate the error (R190). -/
theorem OneErrorInBuffer.toLocate {s : State} {c : Nat → Byte} {e : Nat} (h : OneErrorInBuffer s c e) :
    OneErrorToLocate (effectGamma (effectSynd s)) (fieldPow e) := by
  have hwf : (effectSynd s).polys.wf := Memory.writeAll_wf h.canonical.polys _ _
  refine ⟨Memory.writeAll_wf hwf _ _, h.booted.tables, h.nparGe, h.booted.nparLe, h.noErasures,
    isLinear_effectGamma hwf h.noErasures, ?_, fun j hj => ?_⟩
  · rw [h.coef_syn (Nat.lt_of_lt_of_le (by decide) h.nparGe)]
    exact fun hzero => (fieldMul_eq_zero.1 hzero).elim h.errorValue_ne_zero (fieldPow_ne_zero _)
  · rw [h.coef_syn hj, h.coef_syn (Nat.lt_trans (Nat.lt_succ_self j) hj), fieldMul_fieldPow_term]

/-! ### The values of LAMBDA and OMEGA -/

/-- LAMBDA is 1 + α^e·z and OMEGA the constant y. -/
structure SolvedFor (s : State) (e : Nat) (y : Byte) : Prop where
  lambda : ∀ i < s.maxdeg, s.coefAt LAMBDA i = if i = 0 then 1 else if i = 1 then fieldPow e else 0
  omega : ∀ i < s.maxdeg, s.coefAt OMEGA i = if i = 0 then y else 0

theorem State.one_lt_maxdeg (s : State) : 1 < s.maxdeg := Nat.lt_of_lt_of_le (by decide) s.maxdeg_pos

/-- LAMBDA at α^r (R163). -/
theorem SolvedFor.evalAt_lambda {s : State} {e : Nat} {y : Byte} (h : SolvedFor s e y) (r : Nat) :
    s.evalAt LAMBDA r = 1 ^^^ fieldPow (e + r) := by
  have hone := s.one_lt_maxdeg
  rw [State.evalAt, xorSum_of_le (m := 2) hone, xorSum_succ, xorSum_succ, xorSum_zero, h.lambda 0 (by omega), h.lambda 1 hone,
    if_pos rfl, if_neg Nat.one_ne_zero, if_pos rfl, Nat.zero_mul, Nat.one_mul, fieldMul_fieldPow]
  · exact congrArg (· ^^^ _) ((byte_zero_xor _).trans (fieldMul_one_left _))
  · intro i hi hin
    rw [h.lambda i hin, if_neg (by omega), if_neg (by omega), fieldMul_zero_left]

/-- The derivative of LAMBDA is α^e everywhere (R187). -/
theorem SolvedFor.derivAt_lambda {s : State} {e : Nat} {y : Byte} (h : SolvedFor s e y) (r : Nat) :
    s.derivAt LAMBDA r = fieldPow e := by
  have hone := s.one_lt_maxdeg
  rw [State.derivAt, xorSum_single hone, if_pos rfl, h.lambda 1 hone, if_neg Nat.one_ne_zero, if_pos rfl]
  · exact fieldMul_one_right _
  · intro i hi hne
    split
    · rw [h.lambda i hi, if_neg (by omega), if_neg hne, fieldMul_zero_left]
    · rfl

/-- OMEGA is y everywhere (R163). -/
theorem SolvedFor.evalAt_omega {s : State} {e : Nat} {y : Byte} (h : SolvedFor s e y) (r : Nat) :
    s.evalAt OMEGA r = y := by
  have hpos : 0 < s.maxdeg := Nat.lt_trans (by decide) s.one_lt_maxdeg
  rw [State.evalAt, xorSum_single hpos, h.omega 0 hpos, if_pos rfl, Nat.zero_mul]
  · exact fieldMul_one_right _
  · intro i hi hne
    rw [h.omega i hi, if_neg hne, fieldMul_zero_left]

/-- The one root of LAMBDA in CHIEN's search is α^(255-e) (R180). -/
theorem SolvedFor.root_iff {s : State} {e : Nat} {y : Byte} (h : SolvedFor s e y) (he : e ≤ 254) {r : Nat} (h1 : 1 ≤ r)
    (h255 : r ≤ 255) : s.evalAt LAMBDA r = 0 ↔ r = 255 - e := by
  rw [h.evalAt_lambda]
  constructor
  · intro hzero
    have hpow : fieldPow ((e + r) % 255) = 1 := (fieldPow_mod _).trans (BitVec.xor_eq_zero_iff.1 hzero).symm
    have := (fieldPow_eq_one (by omega)).1 hpow
    omega
  · rintro rfl
    rw [show e + (255 - e) = 255 by omega, fieldPow_255]
    exact BitVec.xor_self

/-- CHIEN finds the error's location and no other (R180). -/
theorem SolvedFor.locations {s : State} {e : Nat} {y : Byte} (h : SolvedFor s e y) (ht : s.tables = builtTables)
    (he : e ≤ 254) : (effectChien s).locations = [BitVec.ofNat 8 e] := by
  have hmem (b : Byte) : b ∈ (effectChien s).locations ↔ b ∈ [BitVec.ofNat 8 e] := by
    rw [effectChien_locations, mem_rootLocations, List.mem_singleton, ht]
    constructor
    · rintro ⟨r, h1, h255, hroot, hb⟩
      rw [← State.evalAt_eq_polyEval, h.root_iff he h1 h255] at hroot
      refine BitVec.eq_of_toNat_eq ?_
      rw [BitVec.toNat_ofNat]
      omega
    · rintro rfl
      refine ⟨255 - e, by omega, by omega, ?_, by rw [BitVec.toNat_ofNat]; omega⟩
      rw [← State.evalAt_eq_polyEval, h.root_iff he (by omega) (by omega)]
  exact List.perm_singleton.1
    ((List.perm_ext_iff_of_nodup (locationsLegal_effectChien s).distinct (List.nodup_singleton _)).2 hmem)

/-- Forney's magnitude at the location: α^e cancels (R185). -/
theorem SolvedFor.forneyMagnitude_eq {s : State} {e : Nat} {y : Byte} (h : SolvedFor s e (fieldMul y (fieldPow e)))
    (ht : s.tables = builtTables) (b : Byte) : forneyMagnitude s b = y := by
  have hden := h.derivAt_lambda (255 - b.toNat)
  have hmag := fieldMul_forneyMagnitude ht (e := b) (by rw [hden]; exact fieldPow_ne_zero e)
  rw [hden, h.evalAt_omega] at hmag
  exact fieldMul_right_cancel (fieldPow_ne_zero e) hmag

/-! ### The repair -/

/-- The state before CORRECT's FORNEY phase (R190): one location found, and what FORNEY reads of the rest. -/
structure OneErrorLocated (s w : State) (c : Nat → Byte) (e : Nat) : Prop where
  locations : w.locations = [BitVec.ofNat 8 e]
  magnitude : forneyMagnitude w (BitVec.ofNat 8 e) = errorValue s c e
  len : w.len = s.len
  npar : w.npar = s.npar
  cw : w.cw = s.cw

theorem OneErrorInBuffer.solvedFor {s : State} {c : Nat → Byte} {e : Nat} (h : OneErrorInBuffer s c e) :
    SolvedFor (effectBmsolve (effectGamma (effectSynd s))) e (fieldMul (errorValue s c e) (fieldPow e)) := by
  have hlocate := h.toLocate
  have hfirst : (effectGamma (effectSynd s)).coefAt SYN 0 = fieldMul (errorValue s c e) (fieldPow e) := by
    rw [State.coefAt_eq_coef _ SYN (Nat.lt_trans (by decide) (State.one_lt_maxdeg _)),
      h.coef_syn (Nat.lt_of_lt_of_le (by decide) h.nparGe), Nat.zero_add, Nat.one_mul]
  generalize effectGamma (effectSynd s) = u at hlocate hfirst ⊢
  exact ⟨fun i hi => hlocate.lambda hi, fun i hi => hfirst ▸ hlocate.omega hi⟩

/-- CHIEN leaves what FORNEY reads of LAMBDA and OMEGA (R180). -/
theorem SolvedFor.effectChien {s : State} {e : Nat} {y : Byte} (h : SolvedFor s e y) : SolvedFor (effectChien s) e y :=
  ⟨h.lambda, h.omega⟩

theorem OneErrorInBuffer.located {s : State} {c : Nat → Byte} {e : Nat} (h : OneErrorInBuffer s c e) :
    OneErrorLocated s (correctStages s) c e := by
  have hsolved := h.solvedFor
  have hframe := correctStages_eq s
  have htables : (effectBmsolve (effectGamma (effectSynd s))).tables = builtTables := by
    rw [effectBmsolve_eq, effectGamma_eq, effectSynd_eq]
    exact h.booted.tables
  have hlocations := hsolved.locations htables h.location_le
  have hmagnitude := hsolved.effectChien.forneyMagnitude_eq htables (BitVec.ofNat 8 e)
  rw [← correctStages] at hlocations hmagnitude
  generalize correctStages s = w at hframe hlocations hmagnitude ⊢
  exact ⟨hlocations, hmagnitude, (congrArg State.len hframe).trans rfl, (congrArg State.npar hframe).trans rfl,
    (congrArg State.cw hframe).trans rfl⟩

/-- FORNEY's phase corrects the one location found (R185). -/
theorem OneErrorLocated.forneyBody {s w : State} {c : Nat → Byte} {e : Nat} (h : OneErrorLocated s w c e)
    (hone : OneErrorInBuffer s c e) (v : Word) :
    (forneyBody v w).outcome = .corrected ∧ (forneyBody v w).failCause = .none ∧
    (forneyBody v w).nerr.toNat = 1 ∧ ((forneyBody v w).errloc.read 0).toNat = e ∧
    ∀ τ < s.len.toNat, (forneyBody v w).cw.read τ = c τ := by
  have he : (BitVec.ofNat 8 e).toNat = e := by
    have := hone.location_le
    rw [BitVec.toNat_ofNat]
    omega
  have hnerr : w.nerr.toNat = 1 := (Memory.length_bytes ..).symm.trans (congrArg List.length h.locations)
  have hin : BitVec.ofNat 8 e ∈ w.locations := h.locations ▸ List.mem_singleton_self _
  have hrange : ∀ f ∈ w.locations, f.toNat < w.len.toNat := by
    intro f hf
    rw [h.locations, List.mem_singleton] at hf
    rw [hf, he, h.len]
    exact hone.location
  have hnodup : w.locations.Nodup := h.locations ▸ List.nodup_singleton _
  have hwf : w.cw.wf := h.cw ▸ hone.canonical.cw
  have hpass := forneyBody_of_pass hrange (Nat.le_of_eq hnerr.symm)
    (hnerr ▸ h.npar ▸ Nat.le_trans (by decide) hone.nparGe) v
  have hframe := forneyBody_eq v w
  have hfound := forneyFold_cw_read v hwf hnodup hrange hin
  have hothers := fun k => forneyBody_cw_read (v := v) hwf (k := k)
  refine ⟨by rw [hpass], by rw [hpass], by rw [hframe]; exact hnerr, ?errloc, fun τ hτ => ?byte⟩
  case errloc =>
    obtain ⟨k, hk, hread⟩ := State.mem_locations.1 hin
    rw [hframe]
    show (w.errloc.read 0).toNat = e
    rw [show 0 = k by omega, hread, he]
  case byte =>
    by_cases hτe : τ = s.len.toNat - 1 - e
    · rw [hpass]
      show (w.locations.foldl (forneyCorrect v) w).cw.read τ = c τ
      rw [he, h.magnitude, h.len, h.cw, errorValue, ← BitVec.xor_assoc, BitVec.xor_self, BitVec.zero_xor, ← hτe] at hfound
      exact hfound
    · rw [hothers τ fun f hf => ?_, h.cw]
      · exact (hone.differs τ hτ).2 hτe
      · rw [h.locations, List.mem_singleton] at hf
        rwa [hf, he, h.len]

/-- Settles O46: the located byte takes its value back, and no other byte changes. -/
theorem correctRepairsOneError : Obligations.CorrectRepairsOneError := by
  unfold Obligations.CorrectRepairsOneError
  intro s c e hb hbooted hcanon hnpar hecnt he hcode hdiff
  have hone : OneErrorInBuffer s c e := ⟨hbooted, hcanon, hnpar, hecnt, he, hcode, hdiff⟩
  rcases effectCorrect_cases s with ⟨hclean, -⟩ | ⟨-, sc, hdirty⟩
  · exact absurd hclean hone.not_clean
  · have hrepair := hone.located.forneyBody hone (encode .correct)
    refine ⟨_, exec_busy hb, ?_⟩
    rw [effectOf, hdirty]
    generalize forneyBody (encode .correct) (correctStages s) = w at hrepair ⊢
    exact hrepair

end Sys2Proof.Machine
